-- ==== Sys2Proof/Word.lean ====
section
/-! DEFINITION. The word types of the block (spec/00_scope.md R10, R11): bus words, bytes and coefficients are bit
vectors; byte strings and polynomials are lists of them. -/

namespace Sys2Proof

/-- A 32-bit bus or command word (R80, R110). -/
abbrev Word := BitVec 32

/-- A byte of BUF or of a byte string (R10). -/
abbrev Byte := BitVec 8

/-- A coefficient: an unsigned 16-bit value (R17, R40). -/
abbrev Coeff := BitVec 16

/-- A byte string, lowest offset first (R10). -/
abbrev Bytes := List Byte

/-- A polynomial: its 256 coefficients, coefficient 0 first (R17, R40). The operations keep the length; the lemmas are
in Sys2Proof/Laws. -/
abbrev Poly := List Coeff

end Sys2Proof
end

