-- ==== Sys2Proof/Config.lean ====
section
/-! DEFINITION. What the spec leaves to an implementation or to a run: the model arguments of spec/00_scope.md R9.
The constants declared `opaque` have no body: nothing can be proved of their values, so a claim holds whatever they are. -/

namespace Sys2Proof

/-- The public values LAT may depend on (spec/70_reset_and_hazards.md R361): the opcode, the snapshot's PARAM.SET, the
error code the command ends with (0 for none) and, for a command that samples a matrix, the public seed. -/
structure LatKey where
  opcode : BitVec 8
  set : BitVec 2
  ecode : BitVec 4
  seed : Option Bytes
  deriving DecidableEq, Repr

/-- LAT less one: how many host steps are taken between a command's acceptance and its commit (R360: "any positive
number, possibly different for each command and each run"). The first argument numbers the draw, so two commands need not
take equally long; the second holds all that R361 lets it depend on. Log entry 3. -/
opaque Config.latBefore : Nat → LatKey → Nat

/-- The value a host read of BUF or PREG returns while a command runs (spec/20_memory.md R94: "A model gives such a read
any value (a draw)"). Log entry 5. -/
opaque Config.busyRead : Nat → Word

/-- By how many bytes GENMAT_FUEL exceeds its least value. Log entry 10. -/
opaque Config.genmatExtra : Nat

/-- GENMAT_FUEL, "at least 672 bytes" (R9, spec/44_matrix.md R242): the longest SHAKE-128 output the model reads for one
matrix cell. -/
def Config.genmatFuel : Nat := Config.genmatExtra + 672

/-- The hash and XOF primitives (R15), "four parameters": SHA3_256, SHA3_512, and the first L bytes of the SHAKE128 and
SHAKE256 output. Every function of the model that hashes takes one; the machine's own is `Sys2Proof.Machine.sponge`. -/
structure Sponge where
  sha3_256 : Bytes → Bytes
  sha3_512 : Bytes → Bytes
  shake128 : Bytes → Nat → Bytes
  shake256 : Bytes → Nat → Bytes

end Sys2Proof
end

