-- ==== Sys2Proof/Machine/State.lean ====
section
/-! DEFINITION. The state of the block and of the host that drives it (spec/10_state.md R31, spec/30_encoding.md R125), as
plain data, the reasons a step can stop, and the state after a hardware reset (R56, R340). -/

namespace Sys2Proof.Machine

open Sys2Proof

/-- PARAM.SET: its four values 0, 1, 2 and 3 (R7, R36). -/
inductive ParamSet where
  /-- 0, the set "512" -/
  | p512
  /-- 1, the set "768" -/
  | p768
  /-- 2, the set "1024" -/
  | p1024
  /-- 3, the value after reset -/
  | unconfigured
  deriving DecidableEq, Repr

/-- The six error codes a command can end with (spec/60_exceptions.md R301). Code 0 is NONE; codes 7 to 15 are never
raised. -/
inductive CmdError where
  /-- 1: an unlisted opcode or a must-be-zero bit that is 1 -/
  | illegalOpcode
  /-- 2: PARAM.SET = 3 and the command needs k or eta -/
  | illegalParam
  /-- 3: a register group passes P31 or a BUF range passes offset 8191 -/
  | illegalOperand
  /-- 4: KEYLEN differs from the size the command needs -/
  | invalidKeySize
  /-- 5: the embedded hash differs from SHA3-256 of the embedded public key -/
  | invalidPrivateKey
  /-- 6: CTLEN differs from the ciphertext size -/
  | invalidCiphertextSize
  deriving DecidableEq, Repr

/-- Storage whose bytes are each defined or undefined (R41, R47): the defined bytes as (index, byte) pairs, indexes
strictly rising. An index that is not listed is undefined: it reads as no value (log entry 6). -/
abbrev Memory := List Host.Cell

/-- The CSR part of the snapshot a command takes at acceptance (R51, R54). BUF and PREG are read at commit, as R54
allows (log entry 8). -/
structure Snapshot where
  word : Word
  set : ParamSet
  arg : Word
  keylen : BitVec 16
  ctlen : BitVec 16
  deriving DecidableEq, Repr

/-- The engine state `eng` (R50): IDLE, or BUSY with the snapshot. `left` is the model's own: how many host steps are still
taken before the commit (LAT, R360; log entry 3). -/
inductive Engine where
  | idle
  | busy (snap : Snapshot) (left : Nat)
  deriving DecidableEq, Repr

/-- The width of a host access: 1, 2 or 4 bytes (spec/20_memory.md R80). -/
inductive Size where
  | byte
  | half
  | word
  deriving DecidableEq, Repr

/-- The address of a host line: a constant, or `[h]`, the address held in a host register (R125). -/
inductive Loc where
  | const (a : Nat)
  | reg (h : Fin 8)
  deriving DecidableEq, Repr

/-- The value a host line writes: a host register (R125) or a constant (the pseudo-instructions of R123). -/
inductive Src where
  | reg (h : Fin 8)
  | imm (v : Word)
  deriving DecidableEq, Repr

/-- One line of a host program (R125), labels resolved to line indexes. `read` and `write` carry a width, so that every
access of R92 can be made; R125's own `rd` and `wr` are the word forms (log entry 1). -/
inductive Line where
  /-- h <- imm -/
  | li (h : Fin 8) (imm : Word)
  /-- h <- w32(h' + imm) -/
  | addi (h h' : Fin 8) (imm : Word)
  /-- h <- h' AND imm, bit by bit on 32 bits: R125 lists the line without its effect (PRESUMED, log entry 28) -/
  | andi (h h' : Fin 8) (imm : Word)
  /-- HostWrite(a, size, v) -/
  | write (a : Loc) (size : Size) (v : Src)
  /-- h <- HostRead(a, size) -/
  | read (h : Fin 8) (a : Loc) (size : Size)
  /-- branch to the line `target` when h equals imm -/
  | beq (h : Fin 8) (imm : Word) (target : Nat)
  /-- branch to the line `target` when h differs from imm -/
  | bne (h : Fin 8) (imm : Word) (target : Nat)
  /-- one turn of the pseudo-instruction WAIT (R123): h7 <- HostRead(0x0008, 4); again if h7[0] = 1 -/
  | wait
  /-- the end of the run -/
  | halt
  /-- not a line of R125: the platform pulses the reset input rst between two host lines (R340; log entry 13) -/
  | rst
  deriving DecidableEq, Repr

/-- The host (R30): its registers h0 to h7, its program and the index of the line it runs next (R125). -/
structure HostAgent where
  regs : Vector Word 8
  prog : List Line
  pos : Nat
  deriving DecidableEq, Repr

/-- The whole state. ID, PKSIZE, SKSIZE, CTSIZE, PARAM.K, PARAM.ETA, STATUS.BUSY and irq are functions of it (R33, R36, R45,
R35, R48). -/
structure State where
  /-- CTRL.IE (R34) -/
  ie : Bool
  /-- STATUS.DONE (R35) -/
  done : Bool
  /-- STATUS.ERR (R35) -/
  err : Bool
  /-- STATUS.OVR (R35) -/
  ovr : Bool
  /-- STATUS.ECODE (R35): none is code 0 -/
  ecode : Option CmdError
  /-- PARAM.SET (R36) -/
  set : ParamSet
  /-- the CMD readback, the last accepted command word (R37) -/
  cmd : Word
  /-- ARG (R38) -/
  arg : Word
  /-- RES (R39) -/
  res : Word
  /-- KEYLEN[15:0] (R43) -/
  keylen : BitVec 16
  /-- CTLEN[15:0] (R44) -/
  ctlen : BitVec 16
  /-- PREG (R40, R41): byte b of coefficient c of register r at index 512 r + 2 c + b, the offset of R86 -/
  preg : Memory
  /-- BUF (R47, R84), by offset -/
  buf : Memory
  /-- the engine (R50) -/
  eng : Engine
  /-- the host agent (R30, R125) -/
  host : HostAgent
  /-- the model's own: how many free values have been drawn (log entry 4) -/
  draws : Nat
  deriving DecidableEq, Repr

/-- Why the machine stops. Every one of them is safe: the hardware goes on (or never ends), the model proves nothing of
what follows. -/
inductive Fault where
  /-- a host access to an unmapped address: a bus error (R83, R305). Raised by the host's reads and writes. Safe. -/
  | unmapped
  /-- a misaligned host access: a bus error (R88, R89, R305). Raised by the host's reads and writes. Safe. -/
  | misaligned
  /-- a byte or halfword access to the CSR region: a bus error (R88, R89, R305). Raised by the host's reads and writes. Safe. -/
  | narrowCsr
  /-- a host write to BUF or PREG while BUSY: a contract violation (R95, R305). Raised by the host's writes. Safe. -/
  | busyWrite
  /-- a read of an undefined PREG coefficient, by the host or by a command: a model treats it "as a fault, never as a
  value" (R41; R305, 92_eei_decisions.md D50, 93_implementation_defined.md items 1 and 2). Safe. -/
  | undefinedPreg
  /-- a read of an undefined BUF byte, by the host or by a command (R47, R91, R305). Safe. -/
  | undefinedBuf
  /-- stuck: a matrix cell needs more than GENMAT_FUEL bytes, "the commit step is not taken" (spec/44_matrix.md R242).
  Raised by GENMATRIX and the composite commands that sample a matrix. Safe. -/
  | samplerFuel
  deriving DecidableEq, Repr

/-- Refusals of the model. -/
inductive Refusal where
  /-- The command has no meaning in this model; no arm of `exec` answers it now. Safe. -/
  | notModelled (mnemonic : String)
  deriving DecidableEq, Repr

/-- The host of a reset state: no program loaded, its registers 0 (DESIGN CHOICE, log entry 1). -/
def HostAgent.reset : HostAgent := { regs := Vector.replicate 8 0, prog := [], pos := 0 }

/-- The state right after a hardware reset: the "After hardware reset" column of R56 (R340: "A model's initial state is this
state"), in which every PREG coefficient and every BUF byte is undefined, a state R41 gives them. `host` and `draws` are the
model's own (log entries 1 and 4). -/
def State.reset : State where
  ie := false
  done := false
  err := false
  ovr := false
  ecode := none
  set := .unconfigured
  cmd := 0
  arg := 0
  res := 0
  keylen := 0
  ctlen := 0
  preg := []
  buf := []
  eng := .idle
  host := HostAgent.reset
  draws := 0

end Sys2Proof.Machine
end

