-- ==== Sys2Proof/Machine/Ops.lean ====
section
/-! DEFINITION. The named operations over memory, registers and the completion of a command, each once: byte storage (R41,
R47), little-endian packing (R13, R14), the core's accesses (R91), and the commit of a command with or without an error
(R52, R303). -/

namespace Sys2Proof.Machine

open Sys2Proof

/-! ### Byte storage -/

/-- The byte at an index, none where it is undefined. -/
def Memory.byteAt : Memory → Nat → Option Byte
  | [], _ => none
  | (k, v) :: m, a => if a = k then some v else Memory.byteAt m a

/-- One byte stored: it becomes defined. -/
def Memory.store : Memory → Nat → Byte → Memory
  | [], a, b => [(a, b)]
  | (k, v) :: m, a, b =>
    if a < k then (a, b) :: (k, v) :: m
    else if a = k then (a, b) :: m
    else (k, v) :: Memory.store m a b

/-- The `n` bytes from `a` up, none unless every one of them is defined. -/
def Memory.load (m : Memory) (a : Nat) : Nat → Option Bytes
  | 0 => some []
  | n + 1 =>
    match Memory.byteAt m a, Memory.load m (a + 1) n with
    | some b, some bs => some (b :: bs)
    | _, _ => none

/-- A byte string stored from `a` up. -/
def Memory.storeBytes (m : Memory) (a : Nat) : Bytes → Memory
  | [] => m
  | b :: bs => Memory.storeBytes (Memory.store m a b) (a + 1) bs

/-- The `n` bytes from `a` up made undefined (R343). -/
def Memory.forget (m : Memory) (a n : Nat) : Memory := m.filter fun c => !(decide (a ≤ c.1) && decide (c.1 < a + n))

/-- The canonical form: indexes strictly rising. An entry holds a byte and an unlisted index none, so no entry equals what
an unlisted index reads as. -/
def Memory.wf : Memory → Bool
  | [] => true
  | [_] => true
  | c :: d :: m => decide (c.1 < d.1) && Memory.wf (d :: m)

/-- Every listed index is below `n`. -/
def Memory.below (m : Memory) (n : Nat) : Bool := m.all fun c => decide (c.1 < n)

/-! ### Byte order and packing -/

/-- The number with the given digits in base `2 ^ w`, least significant first. -/
def undigits (w : Nat) : List Nat → Nat
  | [] => 0
  | d :: ds => d + 2 ^ w * undigits w ds

/-- The `m` lowest digits of a number in base `2 ^ w`, least significant first. -/
def digits (w : Nat) : Nat → Nat → List Nat
  | 0, _ => []
  | m + 1, v => v % 2 ^ w :: digits w m (v / 2 ^ w)

/-- LoadLE (R14). -/
def loadLE (bs : Bytes) : Nat := undigits 8 (bs.map BitVec.toNat)

/-- StoreLE_n (R14). -/
def storeLE (n v : Nat) : Bytes := (digits 8 n v).map (BitVec.ofNat 8)

/-- PackBits_w (R13): "B is the little-endian byte encoding of the integer Σ_i v[i]·2^(w·i)", m·w/8 bytes. -/
def packBits (w : Nat) (vs : List Nat) : Bytes := storeLE (w * vs.length / 8) (undigits w vs)

/-- UnpackBits_w (R13), the inverse: `m` values of `w` bits. -/
def unpackBits (w m : Nat) (bs : Bytes) : List Nat := digits w m (loadLE bs)

/-! ### Polynomial registers and BUF -/

/-- Bytes of PREG per register (R40). -/
def pregBytes : Nat := 512

/-- BUFSIZE (R84). -/
def bufSize : Nat := 8192

/-- The size of the PREG window (R82). -/
def pregSize : Nat := 16384

/-- A coefficient from its low and high byte (R86). -/
def coeffOfBytes (lo hi : Byte) : Coeff := BitVec.ofNat 16 (lo.toNat + 2 ^ 8 * hi.toNat)

/-- The coefficients of a register image (R86). -/
def polyOfBytes : Bytes → Poly
  | lo :: hi :: bs => coeffOfBytes lo hi :: polyOfBytes bs
  | _ => []

/-- The register image of a polynomial: each coefficient low byte first (R86). -/
def bytesOfPoly : Poly → Bytes
  | [] => []
  | c :: p => BitVec.ofNat 8 c.toNat :: BitVec.ofNat 8 (c.toNat / 2 ^ 8) :: bytesOfPoly p

/-- P[r], none when one of its coefficients is undefined (R12, R41). -/
def Memory.poly (m : Memory) (r : Nat) : Option Poly := (Memory.load m (pregBytes * r) pregBytes).map polyOfBytes

/-- P[r], P[r+1], ..., `n` registers (R42). -/
def Memory.polys (m : Memory) (r : Nat) : Nat → Option (List Poly)
  | 0 => some []
  | n + 1 =>
    match Memory.poly m r, Memory.polys m (r + 1) n with
    | some p, some ps => some (p :: ps)
    | _, _ => none

/-- P[r] <- p (R12). -/
def Memory.storePoly (m : Memory) (r : Nat) (p : Poly) : Memory := Memory.storeBytes m (pregBytes * r) (bytesOfPoly p)

/-- Consecutive registers from P[r] written with the given polynomials (R42). -/
def Memory.storePolys (m : Memory) (r : Nat) : List Poly → Memory
  | [] => m
  | p :: ps => Memory.storePolys (Memory.storePoly m r p) (r + 1) ps

/-! ### What `Execute` answers (R52) -/

/-- The writes of a command that completes without error: polynomials to consecutive registers, byte strings to BUF, and
RES. -/
structure Writes where
  preg : List (Nat × List Poly) := []
  buf : List (Nat × Bytes) := []
  res : Option Word := none
  deriving DecidableEq, Repr

/-- Why `Execute` gives no writes: the command ends with an error code (R301), or the model stops (R305, R242). -/
inductive Stop where
  | err (c : CmdError)
  | fault (f : Fault)
  deriving DecidableEq, Repr

/-- `raise CmdError(c)` (R12). -/
def raise {α : Type} (c : CmdError) : Except Stop α := .error (.err c)

/-- `require b else raise CmdError(c)` (R12). -/
def require (b : Bool) (c : CmdError) : Except Stop Unit := if b then .ok () else raise c

/-- A value that is missing is a fault of the model. -/
def orFault {α : Type} (f : Fault) : Option α → Except Stop α
  | some a => .ok a
  | none => .error (.fault f)

/-- The snapshot the command in progress reads (R54); for an idle engine, the one an acceptance would take now (log
entry 14). -/
def State.snap (s : State) : Snapshot :=
  match s.eng with
  | .busy sn _ => sn
  | .idle => { word := s.cmd, set := s.set, arg := s.arg, keylen := s.keylen, ctlen := s.ctlen }

/-- MemRead(o, n) after its range check (R91): a fault if any byte is undefined. -/
def State.memRead (s : State) (o n : Nat) : Except Stop Bytes := orFault .undefinedBuf (Memory.load s.buf o n)

/-- A source register P[r] (R12). R41: a model treats a read of an undefined coefficient, by the host or by a command, "as a
fault, never as a value" (R305; spec/93_implementation_defined.md item 2). -/
def State.readPoly (s : State) (r : Nat) : Except Stop Poly := orFault .undefinedPreg (Memory.poly s.preg r)

/-- Vec(r), the `k` registers from P[r] (R12, R42): a fault if any coefficient is undefined, as R41 and R305 say
(spec/93_implementation_defined.md item 2). -/
def State.readVec (s : State) (r k : Nat) : Except Stop (List Poly) := orFault .undefinedPreg (Memory.polys s.preg r k)

/-- The writes of a command applied to PREG, BUF and RES, all at once (R52). -/
def State.applyWrites (s : State) (w : Writes) : State :=
  { s with
    preg := w.preg.foldl (fun m x => Memory.storePolys m x.1 x.2) s.preg
    buf := w.buf.foldl (fun m x => Memory.storeBytes m x.1 x.2) s.buf
    res := w.res.getD s.res }

/-- The end of a command without error (R52): DONE, and the engine IDLE. -/
def State.complete (s : State) : State := { s with done := true, eng := .idle }

/-- The end of a command with an error, the block's only exception (R303, R306): DONE, ERR and ECODE are written, the engine
is IDLE, nothing else changes; CMD keeps the failing word. -/
def State.completeError (s : State) (c : CmdError) : State :=
  { s with done := true, err := true, ecode := some c, eng := .idle }

/-- The host's acknowledgement of a completion, the counterpart of an exception's return (R307): the W1C fields of STATUS
(R35); writing 1 to ERR clears ECODE with it. -/
def State.acknowledge (s : State) (clearDone clearErr clearOvr : Bool) : State :=
  { s with
    done := s.done && !clearDone
    err := s.err && !clearErr
    ecode := if clearErr then none else s.ecode
    ovr := s.ovr && !clearOvr }

/-- The commit step (R52): all of the writes, or the error code, or a fault of the model. -/
def State.commit (s : State) (r : Except Stop Writes) : Host.Outcome State Fault Refusal :=
  match r with
  | .ok w => .next (s.applyWrites w).complete
  | .error (.err c) => .next (s.completeError c)
  | .error (.fault f) => .fault f

end Sys2Proof.Machine
end

