-- ==== Sys2Proof/Machine/Arith.lean ====
section
/-! DEFINITION. The coefficient arithmetic every family uses: the constants of spec/00_scope.md R8, the wraps of R11 and the
three reductions of spec/40_reduction.md (R141, R143, R145). -/

namespace Sys2Proof.Machine

open Sys2Proof

/-- q = 7681 (R8). -/
def q : Nat := 7681

/-- QINV = 7679 = −q⁻¹ mod 2^18 (R8, conflict C1). -/
def qinv : Nat := 7679

/-- MONT2 = 4613 = 2^36 mod q (R8). -/
def mont2 : Nat := 4613

/-- HALFQ = ⌊q/2⌋ (R8). -/
def halfq : Nat := 3840

/-- MSGONE = ⌊(q+1)/2⌋ (R8). -/
def msgone : Nat := 3841

/-- w16 of an integer (R11). -/
def w16 (v : Int) : Coeff := BitVec.ofInt 16 v

/-- w32 of an integer (R11). -/
def w32 (v : Int) : Word := BitVec.ofInt 32 v

/-- w32 of the product of two coefficients (R11): exact, since both are below 2^16. -/
def mulWord (x y : Coeff) : Word := BitVec.ofNat 32 (x.toNat * y.toNat)

/-- mont_f (R141): u = w32(a·QINV) mod 2^18, s = w32(a + u·q), w16(s >> 18). -/
def montF (a : Word) : Coeff :=
  let u := a.toNat * qinv % 2 ^ 32 % 2 ^ 18
  let s := (a.toNat + u * q) % 2 ^ 32
  BitVec.ofNat 16 (s / 2 ^ 18)

/-- barrett_f (R143): a − (a >> 13)·q. -/
def barrettF (a : Coeff) : Coeff := BitVec.ofNat 16 (a.toNat - a.toNat / 2 ^ 13 * q)

/-- freeze_f (R145): Barrett, then q subtracted under the sign-bit mask of r − q. -/
def freezeF (x : Coeff) : Coeff :=
  let r := barrettF x
  let m := w16 (r.toNat - q)
  let c : Coeff := if m.getLsbD 15 then 0xFFFF else 0x0000
  m ^^^ ((r ^^^ m) &&& c)

/-- A coefficient sum, w16(a + b) (R11). -/
def addCoeff (a b : Coeff) : Coeff := BitVec.ofNat 16 (a.toNat + b.toNat)

end Sys2Proof.Machine
end

