-- ==== Sys2Proof/Syntax.lean ====
section
/-! DEFINITION. The commands of the set KYBERCORE-R1: one constructor per row of spec/opcode_table.json
(spec/30_encoding.md R116). Operands are the numbers the command word names (R115): register numbers and BUF offsets. -/

namespace Sys2Proof

/-- A command. `rd` is the destination register (or vector base), `rs1` and `rs2` the sources, `rp` the register (or
base) of format B, `boff` its BUF offset (R113, R114). -/
inductive Instr where
  | nop
  | montr
  | barr
  | freeze
  | ntt (rd rs1 : Nat)
  | invntt (rd rs1 : Nat)
  | padd (rd rs1 rs2 : Nat)
  | psub (rd rs1 rs2 : Nat)
  | tobytes (rp boff : Nat)
  | frombytes (rp boff : Nat)
  | compress3 (rp boff : Nat)
  | decompress3 (rp boff : Nat)
  | compress11 (rp boff : Nat)
  | decompress11 (rp boff : Nat)
  | frommsg (rp boff : Nat)
  | tomsg (rp boff : Nat)
  | cbd (rp boff : Nat)
  | getnoise (rp boff : Nat)
  | pacc (rd rs1 rs2 : Nat)
  | vntt (rd rs1 : Nat)
  | vinvntt (rd rs1 : Nat)
  | vadd (rd rs1 rs2 : Nat)
  | vtobytes (rp boff : Nat)
  | vfrombytes (rp boff : Nat)
  | vcompress11 (rp boff : Nat)
  | vdecompress11 (rp boff : Nat)
  | genmatrix (rp boff : Nat)
  | cpaKeypair
  | cpaEnc
  | cpaDec
  | kemKeygen
  | kemEncaps
  | kemDecaps
  | kemSkcheck
  deriving DecidableEq, Repr

end Sys2Proof
end

