-- ==== Sys2Proof/WellFormed.lean ====
section
/-! DEFINITION. Which instruction terms a command word can carry (spec/30_encoding.md R113 to R115): register numbers are
5 bits, BUF offsets 13 bits. -/

namespace Sys2Proof

/-- A register number names one of P0 to P31 (spec/10_state.md R40, R115). -/
def regOk (r : Nat) : Bool := decide (r < 32)

/-- A BUF offset is a 13-bit number (R115). -/
def boffOk (o : Nat) : Bool := decide (o < 8192)

/-- The operands of the term fit the fields of its format. -/
def Instr.wellFormed : Instr → Bool
  | .nop => true
  | .montr => true
  | .barr => true
  | .freeze => true
  | .ntt rd rs1 => regOk rd && regOk rs1
  | .invntt rd rs1 => regOk rd && regOk rs1
  | .padd rd rs1 rs2 => regOk rd && regOk rs1 && regOk rs2
  | .psub rd rs1 rs2 => regOk rd && regOk rs1 && regOk rs2
  | .tobytes rp boff => regOk rp && boffOk boff
  | .frombytes rp boff => regOk rp && boffOk boff
  | .compress3 rp boff => regOk rp && boffOk boff
  | .decompress3 rp boff => regOk rp && boffOk boff
  | .compress11 rp boff => regOk rp && boffOk boff
  | .decompress11 rp boff => regOk rp && boffOk boff
  | .frommsg rp boff => regOk rp && boffOk boff
  | .tomsg rp boff => regOk rp && boffOk boff
  | .cbd rp boff => regOk rp && boffOk boff
  | .getnoise rp boff => regOk rp && boffOk boff
  | .pacc rd rs1 rs2 => regOk rd && regOk rs1 && regOk rs2
  | .vntt rd rs1 => regOk rd && regOk rs1
  | .vinvntt rd rs1 => regOk rd && regOk rs1
  | .vadd rd rs1 rs2 => regOk rd && regOk rs1 && regOk rs2
  | .vtobytes rp boff => regOk rp && boffOk boff
  | .vfrombytes rp boff => regOk rp && boffOk boff
  | .vcompress11 rp boff => regOk rp && boffOk boff
  | .vdecompress11 rp boff => regOk rp && boffOk boff
  | .genmatrix rp boff => regOk rp && boffOk boff
  | .cpaKeypair => true
  | .cpaEnc => true
  | .cpaDec => true
  | .kemKeygen => true
  | .kemEncaps => true
  | .kemDecaps => true
  | .kemSkcheck => true

/-- The proposition form of `wellFormed`. -/
abbrev Instr.WellFormed (i : Instr) : Prop := i.wellFormed = true

end Sys2Proof
end

