-- ==== Sys2Proof/Decode.lean ====
section
/-! DEFINITION. The command decoder and encoder (spec/30_encoding.md R110 to R122), total on every word and on every byte
string. A decoder "reads bits 7:0, then checks the format's must-be-zero bits" (R120). -/

namespace Sys2Proof

/-- Why a word is no command. Both end the command with ILLEGAL_OPCODE (R117, R119). -/
inductive DecodeError where
  /-- the opcode is not in the table of R116 (R119) -/
  | unlistedOpcode
  /-- a bit that the opcode's format marks "must be 0", or RS2 of a one-source opcode, is not 0 (R117) -/
  | mustBeZero
  /-- fewer than the four bytes of a command word (R110: "There is one length only") -/
  | tooShort
  deriving DecidableEq, Repr

/-- The field `w[hi:lo]` as an unsigned number (R10). -/
def bits (w : Word) (hi lo : Nat) : Nat := w.toNat / 2 ^ lo % 2 ^ (hi + 1 - lo)

/-- Format N (R112): bits 31:8 must be 0. -/
def formatN (w : Word) (i : Instr) : Except DecodeError Instr :=
  if bits w 31 8 = 0 then .ok i else .error .mustBeZero

/-- Format B (R113): bits 31:26 must be 0; RP is 12:8 and BOFF is 25:13. -/
def formatB (w : Word) (i : Nat → Nat → Instr) : Except DecodeError Instr :=
  if bits w 31 26 = 0 then .ok (i (bits w 12 8) (bits w 25 13)) else .error .mustBeZero

/-- Format R with two sources (R114): bits 31:23 must be 0; RD is 12:8, RS1 17:13, RS2 22:18. -/
def formatR (w : Word) (i : Nat → Nat → Nat → Instr) : Except DecodeError Instr :=
  if bits w 31 23 = 0 then .ok (i (bits w 12 8) (bits w 17 13) (bits w 22 18)) else .error .mustBeZero

/-- Format R with one source (R114): bits 31:23 and the RS2 field must be 0. -/
def formatR1 (w : Word) (i : Nat → Nat → Instr) : Except DecodeError Instr :=
  if bits w 31 23 = 0 ∧ bits w 22 18 = 0 then .ok (i (bits w 12 8) (bits w 17 13)) else .error .mustBeZero

/-- The command a word selects: the opcode map of R116, then the format's zero bits (R117). -/
def decode (w : Word) : Except DecodeError Instr :=
  match bits w 7 0 with
  | 0x00 => formatN w .nop
  | 0x10 => formatN w .montr
  | 0x11 => formatN w .barr
  | 0x12 => formatN w .freeze
  | 0x20 => formatR1 w .ntt
  | 0x21 => formatR1 w .invntt
  | 0x30 => formatR w .padd
  | 0x31 => formatR w .psub
  | 0x40 => formatB w .tobytes
  | 0x41 => formatB w .frombytes
  | 0x42 => formatB w .compress3
  | 0x43 => formatB w .decompress3
  | 0x44 => formatB w .compress11
  | 0x45 => formatB w .decompress11
  | 0x46 => formatB w .frommsg
  | 0x47 => formatB w .tomsg
  | 0x50 => formatB w .cbd
  | 0x51 => formatB w .getnoise
  | 0x60 => formatR w .pacc
  | 0x61 => formatR1 w .vntt
  | 0x62 => formatR1 w .vinvntt
  | 0x63 => formatR w .vadd
  | 0x64 => formatB w .vtobytes
  | 0x65 => formatB w .vfrombytes
  | 0x66 => formatB w .vcompress11
  | 0x67 => formatB w .vdecompress11
  | 0x70 => formatB w .genmatrix
  | 0x80 => formatN w .cpaKeypair
  | 0x81 => formatN w .cpaEnc
  | 0x82 => formatN w .cpaDec
  | 0x90 => formatN w .kemKeygen
  | 0x91 => formatN w .kemEncaps
  | 0x92 => formatN w .kemDecaps
  | 0x93 => formatN w .kemSkcheck
  | _ => .error .unlistedOpcode

/-- The 32-bit word whose four bytes, lowest address first, are given (spec/20_memory.md R87: little-endian). -/
def wordOfBytes (b0 b1 b2 b3 : Byte) : Word :=
  BitVec.ofNat 32 (b0.toNat + 2 ^ 8 * b1.toNat + 2 ^ 16 * b2.toNat + 2 ^ 24 * b3.toNat)

/-- Decoding from the bytes of a bus write to CMD: the command and the bytes after it. -/
def decodeBytes : Bytes → Except DecodeError (Instr × Bytes)
  | b0 :: b1 :: b2 :: b3 :: rest =>
    match decode (wordOfBytes b0 b1 b2 b3) with
    | .ok i => .ok (i, rest)
    | .error e => .error e
  | _ => .error .tooShort

/-- The opcode of a command (R116). -/
def Instr.opcode : Instr → Nat
  | .nop => 0x00
  | .montr => 0x10
  | .barr => 0x11
  | .freeze => 0x12
  | .ntt _ _ => 0x20
  | .invntt _ _ => 0x21
  | .padd _ _ _ => 0x30
  | .psub _ _ _ => 0x31
  | .tobytes _ _ => 0x40
  | .frombytes _ _ => 0x41
  | .compress3 _ _ => 0x42
  | .decompress3 _ _ => 0x43
  | .compress11 _ _ => 0x44
  | .decompress11 _ _ => 0x45
  | .frommsg _ _ => 0x46
  | .tomsg _ _ => 0x47
  | .cbd _ _ => 0x50
  | .getnoise _ _ => 0x51
  | .pacc _ _ _ => 0x60
  | .vntt _ _ => 0x61
  | .vinvntt _ _ => 0x62
  | .vadd _ _ _ => 0x63
  | .vtobytes _ _ => 0x64
  | .vfrombytes _ _ => 0x65
  | .vcompress11 _ _ => 0x66
  | .vdecompress11 _ _ => 0x67
  | .genmatrix _ _ => 0x70
  | .cpaKeypair => 0x80
  | .cpaEnc => 0x81
  | .cpaDec => 0x82
  | .kemKeygen => 0x90
  | .kemEncaps => 0x91
  | .kemDecaps => 0x92
  | .kemSkcheck => 0x93

/-- Format N of R122: the opcode alone. -/
def encodeN (opc : Nat) : Word := BitVec.ofNat 32 opc

/-- Format B of R122. The fields do not overlap, so the sum is the OR the rule writes. -/
def encodeB (opc rp boff : Nat) : Word := BitVec.ofNat 32 (opc + rp * 2 ^ 8 + boff * 2 ^ 13)

/-- Format R of R122; a one-source opcode has RS2 = 0. -/
def encodeR (opc rd rs1 rs2 : Nat) : Word := BitVec.ofNat 32 (opc + rd * 2 ^ 8 + rs1 * 2 ^ 13 + rs2 * 2 ^ 18)

/-- The word of a command (R122). -/
def encode (i : Instr) : Word :=
  match i with
  | .nop => encodeN i.opcode
  | .montr => encodeN i.opcode
  | .barr => encodeN i.opcode
  | .freeze => encodeN i.opcode
  | .ntt rd rs1 => encodeR i.opcode rd rs1 0
  | .invntt rd rs1 => encodeR i.opcode rd rs1 0
  | .padd rd rs1 rs2 => encodeR i.opcode rd rs1 rs2
  | .psub rd rs1 rs2 => encodeR i.opcode rd rs1 rs2
  | .tobytes rp boff => encodeB i.opcode rp boff
  | .frombytes rp boff => encodeB i.opcode rp boff
  | .compress3 rp boff => encodeB i.opcode rp boff
  | .decompress3 rp boff => encodeB i.opcode rp boff
  | .compress11 rp boff => encodeB i.opcode rp boff
  | .decompress11 rp boff => encodeB i.opcode rp boff
  | .frommsg rp boff => encodeB i.opcode rp boff
  | .tomsg rp boff => encodeB i.opcode rp boff
  | .cbd rp boff => encodeB i.opcode rp boff
  | .getnoise rp boff => encodeB i.opcode rp boff
  | .pacc rd rs1 rs2 => encodeR i.opcode rd rs1 rs2
  | .vntt rd rs1 => encodeR i.opcode rd rs1 0
  | .vinvntt rd rs1 => encodeR i.opcode rd rs1 0
  | .vadd rd rs1 rs2 => encodeR i.opcode rd rs1 rs2
  | .vtobytes rp boff => encodeB i.opcode rp boff
  | .vfrombytes rp boff => encodeB i.opcode rp boff
  | .vcompress11 rp boff => encodeB i.opcode rp boff
  | .vdecompress11 rp boff => encodeB i.opcode rp boff
  | .genmatrix rp boff => encodeB i.opcode rp boff
  | .cpaKeypair => encodeN i.opcode
  | .cpaEnc => encodeN i.opcode
  | .cpaDec => encodeN i.opcode
  | .kemKeygen => encodeN i.opcode
  | .kemEncaps => encodeN i.opcode
  | .kemDecaps => encodeN i.opcode
  | .kemSkcheck => encodeN i.opcode

/-- The match value of a command's row in spec/opcode_table.json (R117). -/
def Instr.tableMatch (i : Instr) : Word := BitVec.ofNat 32 i.opcode

/-- The mask of a command's row in spec/opcode_table.json (R117). -/
def Instr.tableMask : Instr → Word
  | .nop => 0xFFFFFFFF
  | .montr => 0xFFFFFFFF
  | .barr => 0xFFFFFFFF
  | .freeze => 0xFFFFFFFF
  | .ntt _ _ => 0xFFFC00FF
  | .invntt _ _ => 0xFFFC00FF
  | .padd _ _ _ => 0xFF8000FF
  | .psub _ _ _ => 0xFF8000FF
  | .tobytes _ _ => 0xFC0000FF
  | .frombytes _ _ => 0xFC0000FF
  | .compress3 _ _ => 0xFC0000FF
  | .decompress3 _ _ => 0xFC0000FF
  | .compress11 _ _ => 0xFC0000FF
  | .decompress11 _ _ => 0xFC0000FF
  | .frommsg _ _ => 0xFC0000FF
  | .tomsg _ _ => 0xFC0000FF
  | .cbd _ _ => 0xFC0000FF
  | .getnoise _ _ => 0xFC0000FF
  | .pacc _ _ _ => 0xFF8000FF
  | .vntt _ _ => 0xFFFC00FF
  | .vinvntt _ _ => 0xFFFC00FF
  | .vadd _ _ _ => 0xFF8000FF
  | .vtobytes _ _ => 0xFC0000FF
  | .vfrombytes _ _ => 0xFC0000FF
  | .vcompress11 _ _ => 0xFC0000FF
  | .vdecompress11 _ _ => 0xFC0000FF
  | .genmatrix _ _ => 0xFC0000FF
  | .cpaKeypair => 0xFFFFFFFF
  | .cpaEnc => 0xFFFFFFFF
  | .cpaDec => 0xFFFFFFFF
  | .kemKeygen => 0xFFFFFFFF
  | .kemEncaps => 0xFFFFFFFF
  | .kemDecaps => 0xFFFFFFFF
  | .kemSkcheck => 0xFFFFFFFF

/-- The command word of a table row's bits: `w` cut to `nbits` bits, every higher bit 0. -/
def tableWord (nbits w : Nat) : Word := BitVec.ofNat 32 (w % 2 ^ nbits)

/-- What the decoder reads from an instruction whose bits, numbered as spec/opcode_table.json numbers them, are `w`: the
word is laid out as its four bytes, lowest first, and given to `decodeBytes`. -/
def decodeTableWord (nbits w : Nat) : Option Instr :=
  let c := (tableWord nbits w).toNat
  match decodeBytes [BitVec.ofNat 8 c, BitVec.ofNat 8 (c / 2 ^ 8), BitVec.ofNat 8 (c / 2 ^ 16), BitVec.ofNat 8 (c / 2 ^ 24)] with
  | .ok (i, _) => some i
  | .error _ => none

end Sys2Proof
end

