-- ==== Sys2Proof/Machine/Flags.lean ====
section
/-! DEFINITION. The status flags and codes: STATUS and the interrupt output (spec/10_state.md R35, R48), the code numbers of
the errors (spec/60_exceptions.md R301) and the encoding of PARAM.SET (R36). -/

namespace Sys2Proof.Machine

open Sys2Proof

/-- The number of an error code (R301). -/
def CmdError.code : CmdError → Nat
  | .illegalOpcode => 1
  | .illegalParam => 2
  | .illegalOperand => 3
  | .invalidKeySize => 4
  | .invalidPrivateKey => 5
  | .invalidCiphertextSize => 6

/-- STATUS.ECODE (R35): 0 when no error. -/
def ecodeNumber : Option CmdError → Nat
  | none => 0
  | some c => c.code

/-- STATUS.BUSY (R35). -/
def State.isBusy (s : State) : Bool :=
  match s.eng with
  | .idle => false
  | .busy _ _ => true

/-- The interrupt output (R48): irq = CTRL.IE ∧ STATUS.DONE. -/
def State.irq (s : State) : Bool := s.ie && s.done

/-- A flag as a number. -/
def flagBit (b : Bool) : Nat := if b then 1 else 0

/-- STATUS as the host reads it (R35): BUSY 0, DONE 1, ERR 2, OVR 3, ECODE 11:8, the rest 0. -/
def State.statusWord (s : State) : Word :=
  BitVec.ofNat 32
    (flagBit s.isBusy + 2 * flagBit s.done + 4 * flagBit s.err + 8 * flagBit s.ovr + 2 ^ 8 * ecodeNumber s.ecode)

/-- The value of the field PARAM.SET (R7, R36). -/
def ParamSet.number : ParamSet → Nat
  | .p512 => 0
  | .p768 => 1
  | .p1024 => 2
  | .unconfigured => 3

/-- The parameter set of a written PARAM word: its bits 1:0 (R36). -/
def ParamSet.ofWord (w : Word) : ParamSet :=
  match w.toNat % 4 with
  | 0 => .p512
  | 1 => .p768
  | 2 => .p1024
  | _ => .unconfigured

end Sys2Proof.Machine
end

