-- ==== Sys2Proof/Machine/Operands.lean ====
section
/-! DEFINITION. Operand forms: the parameter sets and their sizes (spec/00_scope.md R7), the fixed BUF regions
(spec/20_memory.md R85), the operands taken from ARG (spec/30_encoding.md R115), the operand needs of every command (R118)
and the destinations of every command (R343). -/

namespace Sys2Proof.Machine

open Sys2Proof

/-- The module rank k (R7); 0 for SET 3 (R36). -/
def ParamSet.k : ParamSet → Nat
  | .p512 => 2
  | .p768 => 3
  | .p1024 => 4
  | .unconfigured => 0

/-- The noise width η (R7); 0 for SET 3 (R36). -/
def ParamSet.eta : ParamSet → Nat
  | .p512 => 5
  | .p768 => 4
  | .p1024 => 3
  | .unconfigured => 0

/-- The public-key size (R7, R45). -/
def ParamSet.pkSize : ParamSet → Nat
  | .p512 => 736
  | .p768 => 1088
  | .p1024 => 1440
  | .unconfigured => 0

/-- The private-key size (R7, R45). -/
def ParamSet.skSize : ParamSet → Nat
  | .p512 => 1632
  | .p768 => 2400
  | .p1024 => 3168
  | .unconfigured => 0

/-- The ciphertext size (R7, R45). -/
def ParamSet.ctSize : ParamSet → Nat
  | .p512 => 800
  | .p768 => 1152
  | .p1024 => 1504
  | .unconfigured => 0

/-- indcpa_pk = 352k + 32 bytes (R250). -/
def pkLen (k : Nat) : Nat := 352 * k + 32

/-- indcpa_sk = 416k bytes (R250). -/
def skcLen (k : Nat) : Nat := 416 * k

/-- The KEM private key: 768k + 96 bytes (R270). -/
def skLen (k : Nat) : Nat := 768 * k + 96

/-- The ciphertext: 352k + 96 bytes (R250). -/
def ctLen (k : Nat) : Nat := 352 * k + 96

/-! The fixed regions of BUF (R85). -/

def regionPK : Nat := 0x0000
def regionSK : Nat := 0x0600
def regionCT : Nat := 0x1300
def regionSS : Nat := 0x1900
def regionRND0 : Nat := 0x1920
def regionRND1 : Nat := 0x1940
def regionMSG : Nat := 0x1960
def regionCOINS : Nat := 0x1980
def regionFREE : Nat := 0x19A0

/-- ARG[15:0], the input of BARR and FREEZE (R115). -/
def argHalf (arg : Word) : Coeff := BitVec.ofNat 16 arg.toNat

/-- ARG[7:0], the nonce of GETNOISE (R115). -/
def argNonce (arg : Word) : Byte := BitVec.ofNat 8 arg.toNat

/-- ARG[0] = 1, the transposed flag of GENMATRIX (R115). -/
def argTransposed (arg : Word) : Bool := decide (arg.toNat % 2 = 1)

end Sys2Proof.Machine

namespace Sys2Proof

open Sys2Proof.Machine

/-- The command needs k or η, so SET must not be 3 (R118). -/
def Instr.needsParam : Instr → Bool
  | .nop | .montr | .barr | .freeze => false
  | .ntt _ _ | .invntt _ _ | .padd _ _ _ | .psub _ _ _ => false
  | .tobytes _ _ | .frombytes _ _ => false
  | .compress3 _ _ | .decompress3 _ _ | .compress11 _ _ | .decompress11 _ _ => false
  | .frommsg _ _ | .tomsg _ _ => false
  | .cbd _ _ | .getnoise _ _ => true
  | .pacc _ _ _ | .vntt _ _ | .vinvntt _ _ | .vadd _ _ _ => true
  | .vtobytes _ _ | .vfrombytes _ _ | .vcompress11 _ _ | .vdecompress11 _ _ => true
  | .genmatrix _ _ => true
  | .cpaKeypair | .cpaEnc | .cpaDec => true
  | .kemKeygen | .kemEncaps | .kemDecaps | .kemSkcheck => true

/-- The register groups whose range is checked (R118), as (base, number of registers). -/
def Instr.groups (k : Nat) : Instr → List (Nat × Nat)
  | .nop | .montr | .barr | .freeze => []
  | .ntt _ _ | .invntt _ _ | .padd _ _ _ | .psub _ _ _ => []
  | .tobytes _ _ | .frombytes _ _ => []
  | .compress3 _ _ | .decompress3 _ _ | .compress11 _ _ | .decompress11 _ _ => []
  | .frommsg _ _ | .tomsg _ _ => []
  | .cbd _ _ | .getnoise _ _ => []
  | .pacc _ rs1 rs2 => [(rs1, k), (rs2, k)]
  | .vntt rd rs1 => [(rd, k), (rs1, k)]
  | .vinvntt rd rs1 => [(rd, k), (rs1, k)]
  | .vadd rd rs1 rs2 => [(rd, k), (rs1, k), (rs2, k)]
  | .vtobytes rp _ => [(rp, k)]
  | .vfrombytes rp _ => [(rp, k)]
  | .vcompress11 rp _ => [(rp, k)]
  | .vdecompress11 rp _ => [(rp, k)]
  | .genmatrix rp _ => [(rp, k * k)]
  | .cpaKeypair | .cpaEnc | .cpaDec => []
  | .kemKeygen | .kemEncaps | .kemDecaps | .kemSkcheck => []

/-- The BUF range a format-B command names (R118), as (offset, length). -/
def Instr.bufRange (k eta : Nat) : Instr → Option (Nat × Nat)
  | .nop | .montr | .barr | .freeze => none
  | .ntt _ _ | .invntt _ _ | .padd _ _ _ | .psub _ _ _ => none
  | .tobytes _ boff => some (boff, 416)
  | .frombytes _ boff => some (boff, 416)
  | .compress3 _ boff => some (boff, 96)
  | .decompress3 _ boff => some (boff, 96)
  | .compress11 _ boff => some (boff, 352)
  | .decompress11 _ boff => some (boff, 352)
  | .frommsg _ boff => some (boff, 32)
  | .tomsg _ boff => some (boff, 32)
  | .cbd _ boff => some (boff, 64 * eta)
  | .getnoise _ boff => some (boff, 32)
  | .pacc _ _ _ | .vntt _ _ | .vinvntt _ _ | .vadd _ _ _ => none
  | .vtobytes _ boff => some (boff, 416 * k)
  | .vfrombytes _ boff => some (boff, 416 * k)
  | .vcompress11 _ boff => some (boff, 352 * k)
  | .vdecompress11 _ boff => some (boff, 352 * k)
  | .genmatrix _ boff => some (boff, 32)
  | .cpaKeypair | .cpaEnc | .cpaDec => none
  | .kemKeygen | .kemEncaps | .kemDecaps | .kemSkcheck => none

/-- The size KEYLEN must equal (R301 code 4): the public key's for KEM_ENCAPS, the private key's for KEM_DECAPS and
KEM_SKCHECK. -/
def Instr.keySize (set : ParamSet) : Instr → Option Nat
  | .nop | .montr | .barr | .freeze => none
  | .ntt _ _ | .invntt _ _ | .padd _ _ _ | .psub _ _ _ => none
  | .tobytes _ _ | .frombytes _ _ => none
  | .compress3 _ _ | .decompress3 _ _ | .compress11 _ _ | .decompress11 _ _ => none
  | .frommsg _ _ | .tomsg _ _ => none
  | .cbd _ _ | .getnoise _ _ => none
  | .pacc _ _ _ | .vntt _ _ | .vinvntt _ _ | .vadd _ _ _ => none
  | .vtobytes _ _ | .vfrombytes _ _ | .vcompress11 _ _ | .vdecompress11 _ _ => none
  | .genmatrix _ _ => none
  | .cpaKeypair | .cpaEnc | .cpaDec => none
  | .kemKeygen => none
  | .kemEncaps => some set.pkSize
  | .kemDecaps => some set.skSize
  | .kemSkcheck => some set.skSize

/-- The size CTLEN must equal (R301 code 6): KEM_DECAPS alone. -/
def Instr.ctSize (set : ParamSet) : Instr → Option Nat
  | .nop | .montr | .barr | .freeze => none
  | .ntt _ _ | .invntt _ _ | .padd _ _ _ | .psub _ _ _ => none
  | .tobytes _ _ | .frombytes _ _ => none
  | .compress3 _ _ | .decompress3 _ _ | .compress11 _ _ | .decompress11 _ _ => none
  | .frommsg _ _ | .tomsg _ _ => none
  | .cbd _ _ | .getnoise _ _ => none
  | .pacc _ _ _ | .vntt _ _ | .vinvntt _ _ | .vadd _ _ _ => none
  | .vtobytes _ _ | .vfrombytes _ _ | .vcompress11 _ _ | .vdecompress11 _ _ => none
  | .genmatrix _ _ => none
  | .cpaKeypair | .cpaEnc | .cpaDec => none
  | .kemKeygen | .kemEncaps => none
  | .kemDecaps => some set.ctSize
  | .kemSkcheck => none

/-- The command checks the hash embedded in the private key (R301 code 5). -/
def Instr.checksKeyHash : Instr → Bool
  | .nop | .montr | .barr | .freeze => false
  | .ntt _ _ | .invntt _ _ | .padd _ _ _ | .psub _ _ _ => false
  | .tobytes _ _ | .frombytes _ _ => false
  | .compress3 _ _ | .decompress3 _ _ | .compress11 _ _ | .decompress11 _ _ => false
  | .frommsg _ _ | .tomsg _ _ => false
  | .cbd _ _ | .getnoise _ _ => false
  | .pacc _ _ _ | .vntt _ _ | .vinvntt _ _ | .vadd _ _ _ => false
  | .vtobytes _ _ | .vfrombytes _ _ | .vcompress11 _ _ | .vdecompress11 _ _ => false
  | .genmatrix _ _ => false
  | .cpaKeypair | .cpaEnc | .cpaDec => false
  | .kemKeygen | .kemEncaps => false
  | .kemDecaps | .kemSkcheck => true

/-- The registers a command writes when it ends without error, as (first register, number of registers): the PREG part of
the set W of R343. -/
def Instr.pregDest (k : Nat) : Instr → Option (Nat × Nat)
  | .nop | .montr | .barr | .freeze => none
  | .ntt rd _ => some (rd, 1)
  | .invntt rd _ => some (rd, 1)
  | .padd rd _ _ => some (rd, 1)
  | .psub rd _ _ => some (rd, 1)
  | .tobytes _ _ => none
  | .frombytes rp _ => some (rp, 1)
  | .compress3 _ _ => none
  | .decompress3 rp _ => some (rp, 1)
  | .compress11 _ _ => none
  | .decompress11 rp _ => some (rp, 1)
  | .frommsg rp _ => some (rp, 1)
  | .tomsg _ _ => none
  | .cbd rp _ => some (rp, 1)
  | .getnoise rp _ => some (rp, 1)
  | .pacc rd _ _ => some (rd, 1)
  | .vntt rd _ => some (rd, k)
  | .vinvntt rd _ => some (rd, k)
  | .vadd rd _ _ => some (rd, k)
  | .vtobytes _ _ => none
  | .vfrombytes rp _ => some (rp, k)
  | .vcompress11 _ _ => none
  | .vdecompress11 rp _ => some (rp, k)
  | .genmatrix rp _ => some (rp, k * k)
  | .cpaKeypair | .cpaEnc | .cpaDec => none
  | .kemKeygen | .kemEncaps | .kemDecaps | .kemSkcheck => none

/-- The BUF ranges a command writes when it ends without error, as (offset, length): the BUF part of the set W of R343
(the clobbered regions of R355). -/
def Instr.bufDest (k : Nat) : Instr → List (Nat × Nat)
  | .nop | .montr | .barr | .freeze => []
  | .ntt _ _ | .invntt _ _ | .padd _ _ _ | .psub _ _ _ => []
  | .tobytes _ boff => [(boff, 416)]
  | .frombytes _ _ => []
  | .compress3 _ boff => [(boff, 96)]
  | .decompress3 _ _ => []
  | .compress11 _ boff => [(boff, 352)]
  | .decompress11 _ _ => []
  | .frommsg _ _ => []
  | .tomsg _ boff => [(boff, 32)]
  | .cbd _ _ | .getnoise _ _ => []
  | .pacc _ _ _ | .vntt _ _ | .vinvntt _ _ | .vadd _ _ _ => []
  | .vtobytes _ boff => [(boff, 416 * k)]
  | .vfrombytes _ _ => []
  | .vcompress11 _ boff => [(boff, 352 * k)]
  | .vdecompress11 _ _ => []
  | .genmatrix _ _ => []
  | .cpaKeypair => [(regionPK, pkLen k), (regionSK, skcLen k)]
  | .cpaEnc => [(regionCT, ctLen k)]
  | .cpaDec => [(regionMSG, 32)]
  | .kemKeygen => [(regionPK, pkLen k), (regionSK, skLen k)]
  | .kemEncaps => [(regionCT, ctLen k), (regionSS, 32)]
  | .kemDecaps => [(regionSS, 32)]
  | .kemSkcheck => []

/-- RES is the destination of the three scalar reductions alone (R39). -/
def Instr.writesRes : Instr → Bool
  | .nop => false
  | .montr | .barr | .freeze => true
  | .ntt _ _ | .invntt _ _ | .padd _ _ _ | .psub _ _ _ => false
  | .tobytes _ _ | .frombytes _ _ => false
  | .compress3 _ _ | .decompress3 _ _ | .compress11 _ _ | .decompress11 _ _ => false
  | .frommsg _ _ | .tomsg _ _ => false
  | .cbd _ _ | .getnoise _ _ => false
  | .pacc _ _ _ | .vntt _ _ | .vinvntt _ _ | .vadd _ _ _ => false
  | .vtobytes _ _ | .vfrombytes _ _ | .vcompress11 _ _ | .vdecompress11 _ _ => false
  | .genmatrix _ _ => false
  | .cpaKeypair | .cpaEnc | .cpaDec => false
  | .kemKeygen | .kemEncaps | .kemDecaps | .kemSkcheck => false

end Sys2Proof
end

