-- ==== Sys2Proof/Machine/Sponge.lean ====
section
/-! DEFINITION. The sponge unit (spec/00_scope.md R15): SHA3-256, SHA3-512, SHAKE-128 and SHAKE-256, "the FIPS 202
functions". R15 names that standard and does not reproduce it: the permutation and padding here are PRESUMED, from FIPS 202
(log entry 9), checked against the digests of spec/95_test_vectors.md. Every function that hashes takes a `Sponge`. -/

namespace Sys2Proof.Machine

open Sys2Proof

/-- A lane of the permutation's state. -/
abbrev Lane := BitVec 64

/-- The round constants of the permutation's step iota. -/
def keccakRoundConstants : List Lane :=
  [0x0000000000000001, 0x0000000000008082, 0x800000000000808A, 0x8000000080008000,
   0x000000000000808B, 0x0000000080000001, 0x8000000080008081, 0x8000000000008009,
   0x000000000000008A, 0x0000000000000088, 0x0000000080008009, 0x000000008000000A] ++
  [0x000000008000808B, 0x800000000000008B, 0x8000000000008089, 0x8000000000008003,
   0x8000000000008002, 0x8000000000000080, 0x000000000000800A, 0x800000008000000A,
   0x8000000080008081, 0x8000000000008080, 0x0000000080000001, 0x8000000080008008]

/-- For each lane index x + 5y after the step pi: the lane it comes from, and that lane's rotation of the step rho. -/
def keccakRhoPi : List (Nat × Nat) :=
  [(0, 0), (6, 44), (12, 43), (18, 21), (24, 14), (3, 28), (9, 20), (10, 3), (16, 45), (22, 61)] ++
  [(1, 1), (7, 6), (13, 25), (19, 8), (20, 18), (4, 27), (5, 36), (11, 10), (17, 15), (23, 56)] ++
  [(2, 62), (8, 55), (14, 39), (15, 41), (21, 2)]

/-- The lane with index `i`. -/
def lane : List Lane → Nat → Lane
  | [], _ => 0
  | v :: _, 0 => v
  | _ :: a, i + 1 => lane a i

/-- A lane rotated left by `n` bits. -/
def rotl (v : Lane) (n : Nat) : Lane := (v <<< n) ||| (v >>> (64 - n))

/-- The parities of the five columns, from the five planes of five lanes. -/
def keccakParities (a : List Lane) : List Lane :=
  let plane (y : Nat) := (a.drop (5 * y)).take 5
  List.zipWith BitVec.xor (plane 0) (List.zipWith BitVec.xor (plane 1)
    (List.zipWith BitVec.xor (plane 2) (List.zipWith BitVec.xor (plane 3) (plane 4))))

/-- What the step theta adds to each column: the parity of the column before it, and that of the column after it rotated
by one. -/
def keccakColumnMix : List Lane → List Lane
  | [c0, c1, c2, c3, c4] => [c4 ^^^ rotl c1 1, c0 ^^^ rotl c2 1, c1 ^^^ rotl c3 1, c2 ^^^ rotl c4 1, c3 ^^^ rotl c0 1]
  | c => c

/-- The step theta. -/
def keccakTheta (a : List Lane) : List Lane :=
  let d := keccakColumnMix (keccakParities a)
  List.zipWith BitVec.xor a (d ++ d ++ d ++ d ++ d)

/-- The steps rho and pi. -/
def keccakMove (a : List Lane) : List Lane := keccakRhoPi.map fun s => rotl (lane a s.1) s.2

/-- The step chi, plane by plane: each lane takes the AND of the next lane's complement and the one after. -/
def keccakChi : List Lane → List Lane
  | p :: q :: r :: s :: t :: a =>
    (p ^^^ (~~~q &&& r)) :: (q ^^^ (~~~r &&& s)) :: (r ^^^ (~~~s &&& t)) :: (s ^^^ (~~~t &&& p)) :: (t ^^^ (~~~p &&& q)) ::
      keccakChi a
  | a => a

/-- The step iota: lane 0 takes the round constant. -/
def keccakIota (rc : Lane) : List Lane → List Lane
  | [] => []
  | x :: a => (x ^^^ rc) :: a

/-- One round of the permutation. -/
def keccakRound (a : List Lane) (rc : Lane) : List Lane := keccakIota rc (keccakChi (keccakMove (keccakTheta a)))

/-- The permutation on 25 lanes of 64 bits, 24 rounds. -/
def keccakF (a : List Lane) : List Lane := keccakRoundConstants.foldl keccakRound a

/-- The lanes of a byte string of whole lanes, little-endian. -/
def lanesOfBytes (n : Nat) (bs : Bytes) : List Lane :=
  match n with
  | 0 => []
  | n + 1 => BitVec.ofNat 64 (loadLE (bs.take 8)) :: lanesOfBytes n (bs.drop 8)

/-- The bytes of lanes, little-endian. -/
def bytesOfLanes (a : List Lane) : Bytes := a.flatMap fun v => storeLE 8 v.toNat

/-- One block of `rate` bytes absorbed. -/
def absorbBlock (a : List Lane) (block : Bytes) : List Lane :=
  keccakF (List.zipWith BitVec.xor a (lanesOfBytes 25 block))

/-- The message cut to whole blocks of `rate` bytes, the last one padded: the domain byte after the message and bit 7 set in
the block's last byte. The first argument bounds the number of blocks. -/
def paddedBlocks (rate : Nat) (domain : Byte) : Nat → Bytes → List Bytes
  | 0, _ => []
  | n + 1, msg =>
    if msg.length < rate then
      let b := msg ++ domain :: List.replicate (rate - 1 - msg.length) 0
      [b.take (rate - 1) ++ (b.drop (rate - 1)).map (fun v => v ||| 0x80)]
    else msg.take rate :: paddedBlocks rate domain n (msg.drop rate)

/-- The state after a message is absorbed. -/
def absorb (rate : Nat) (domain : Byte) (msg : Bytes) : List Lane :=
  (paddedBlocks rate domain (msg.length / rate + 1) msg).foldl absorbBlock (List.replicate 25 0)

/-- The first bytes of the output stream: `block` is what is left of the present block, `a` the state it came from; when a
block is used up the state is permuted and the next one is read. -/
def squeezeFrom (rate : Nat) : Nat → Bytes → List Lane → Bytes
  | 0, _, _ => []
  | n + 1, v :: block, a => v :: squeezeFrom rate n block a
  | n + 1, [], a =>
    let a' := keccakF a
    match (bytesOfLanes a').take rate with
    | v :: block => v :: squeezeFrom rate n block a'
    | [] => 0 :: squeezeFrom rate n [] a'

/-- The first `n` output bytes of the sponge with the given rate and domain byte. -/
def spongeBytes (rate : Nat) (domain : Byte) (msg : Bytes) (n : Nat) : Bytes :=
  let a := absorb rate domain msg
  squeezeFrom rate n ((bytesOfLanes a).take rate) a

/-- The four FIPS 202 functions (R15): rates 136, 72, 168 (R8) and 136 bytes, domain bytes 06 and 1F. -/
def fips202 : Sponge where
  sha3_256 x := spongeBytes 136 0x06 x 32
  sha3_512 x := spongeBytes 72 0x06 x 64
  shake128 x n := spongeBytes 168 0x1F x n
  shake256 x n := spongeBytes 136 0x1F x n

/-- The sponge unit of the block (R15, R30). -/
def sponge : Sponge := fips202

end Sys2Proof.Machine
end

