-- ==== Sys2Proof/Machine/Checks.lean ====
section
/-! DEFINITION. The checks a command makes before it computes anything, in the order of spec/60_exceptions.md R302. The first
check, opcode and must-be-zero bits, is the decoder's. -/

namespace Sys2Proof.Machine

open Sys2Proof

/-- skcheck_f (R276): the hash embedded in a private key is H of the public key embedded in it. -/
def skCheck (h : Sponge) (k : Nat) (sk : Bytes) : Bool :=
  decide (((sk.drop (768 * k + 32)).take 32) = h.sha3_256 ((sk.drop (416 * k)).take (352 * k + 32)))

/-- A register group stays within P0 to P31 (R42): base + count − 1 ≤ 31. -/
def groupOk (g : Nat × Nat) : Bool := decide (g.1 + g.2 ≤ 32)

/-- A BUF range stays within the buffer (R91, R118): offset + length ≤ 8192. -/
def rangeOk (r : Nat × Nat) : Bool := decide (r.1 + r.2 ≤ bufSize)

/-- A declared length equals the size that is needed, where one is (R302 checks 4 and 5). -/
def lengthOk (declared : BitVec 16) : Option Nat → Bool
  | none => true
  | some n => decide (declared.toNat = n)

/-- The private-key check of KEM_DECAPS and KEM_SKCHECK (R277, R279): all of sk is read, then its hash compared. -/
def State.checkKeyHash (s : State) (i : Instr) : Except Stop Unit :=
  if i.checksKeyHash then do
    let sk ← s.memRead regionSK (skLen s.snap.set.k)
    require (skCheck sponge s.snap.set.k sk) .invalidPrivateKey
  else .ok ()

/-- Checks 2 to 6 of R302, in their order, stopping at the first that fails. -/
def State.check (s : State) (i : Instr) : Except Stop Unit := do
  let set := s.snap.set
  require (!(i.needsParam && decide (set = .unconfigured))) .illegalParam
  require ((i.groups set.k).all groupOk) .illegalOperand
  require ((i.bufRange set.k set.eta).all rangeOk) .illegalOperand
  require (lengthOk s.snap.keylen (i.keySize set)) .invalidKeySize
  require (lengthOk s.snap.ctlen (i.ctSize set)) .invalidCiphertextSize
  s.checkKeyHash i

end Sys2Proof.Machine
end

