-- ==== Sys2Proof/Machine/Poly.lean ====
section
/-! DEFINITION. Component P (spec/42_poly.md): addition and subtraction, serialisation, compression, messages and noise, and
their commands. -/

namespace Sys2Proof.Machine

open Sys2Proof

/-- padd_f (R180). -/
def paddF (a b : Poly) : Poly := List.zipWith (fun x y => barrettF (addCoeff x y)) a b

/-- psub_f (R182): barrett_f(w16(a + 3q − b)). -/
def psubF (a b : Poly) : Poly := List.zipWith (fun x y => barrettF (w16 (x.toNat + 3 * q - y.toNat))) a b

/-- A coefficient as the number it holds. -/
def nats (p : Poly) : List Nat := p.map BitVec.toNat

/-- Numbers as coefficients. -/
def coeffs (vs : List Nat) : Poly := vs.map (BitVec.ofNat 16)

/-- tobytes_f (R184): 13 bits of each frozen coefficient. -/
def tobytesF (p : Poly) : Bytes := packBits 13 (nats (p.map freezeF))

/-- frombytes_f (R184): no reduction. -/
def frombytesF (bs : Bytes) : Poly := coeffs (unpackBits 13 256 bs)

/-- cq_d (R188). -/
def cq (d : Nat) (x : Coeff) : Nat := ((freezeF x).toNat * 2 ^ d + 3840) / 7681 % 2 ^ d

/-- dq_d (R188). -/
def dq (d y : Nat) : Nat := (y * 7681 + 2 ^ (d - 1)) / 2 ^ d

/-- compress_d (R188): 32·d bytes. -/
def compressF (d : Nat) (p : Poly) : Bytes := packBits d (p.map (cq d))

/-- decompress_d (R188). -/
def decompressF (d : Nat) (bs : Bytes) : Poly := coeffs ((unpackBits d 256 bs).map (dq d))

/-- The eight coefficients of one message byte (R194): bit j gives MSGONE under the mask 0 − bit. -/
def frommsgByte (m : Byte) : Poly :=
  (List.range 8).map fun j => w16 (0 - ((m.toNat / 2 ^ j % 2 : Nat) : Int)) &&& BitVec.ofNat 16 msgone

/-- frommsg_f (R194): bit j of byte i is coefficient 8i + j. -/
def frommsgF (m : Bytes) : Poly := m.flatMap frommsgByte

/-- The message bit of a coefficient (R196). -/
def msgBit (c : Coeff) : Nat := (2 * (freezeF c).toNat + halfq) / q % 2

/-- tomsg_f (R196): bit 8i + j goes to bit j of byte i. -/
def tomsgF (p : Poly) : Bytes := packBits 1 (p.map msgBit)

/-- The mask of R198 with one bit set every η positions. -/
def cbdMask (eta : Nat) : Nat :=
  if eta = 3 then 0x249249 else if eta = 4 then 0x11111111 else 0x0842108421

/-- The sum over s < η of (t >> s) AND mask (R198): each η-bit field counts the ones of the same field of t. -/
def cbdCounts (eta t : Nat) : Nat := ((List.range eta).map fun s => (t >>> s) &&& cbdMask eta).sum

/-- The four coefficients of one group of η bytes (R198). -/
def cbdGroup (eta : Nat) (bs : Bytes) : Poly :=
  let d := cbdCounts eta (loadLE bs)
  (List.range 4).map fun m =>
    let a := d / 2 ^ (2 * eta * m) % 2 ^ eta
    let b := d / 2 ^ (2 * eta * m + eta) % 2 ^ eta
    BitVec.ofNat 16 (a + 7681 - b)

/-- `n` groups of η bytes. -/
def cbdGroups (eta : Nat) : Nat → Bytes → Poly
  | 0, _ => []
  | n + 1, bs => cbdGroup eta (bs.take eta) ++ cbdGroups eta n (bs.drop eta)

/-- cbd_f (R198): 64 groups of η bytes, four coefficients each. -/
def cbdF (eta : Nat) (bs : Bytes) : Poly := cbdGroups eta 64 bs

/-- getnoise_f (R200): cbd_f(SHAKE256(seed ‖ [nonce], 64η), η). -/
def getnoiseF (h : Sponge) (seed : Bytes) (nonce : Byte) (eta : Nat) : Poly :=
  cbdF eta (h.shake256 (seed ++ [nonce]) (64 * eta))

/-- PADD (R181). -/
def execPadd (rd rs1 rs2 : Nat) (s : State) : Host.Outcome State Fault Refusal :=
  s.commit do
    s.check (.padd rd rs1 rs2)
    let a ← s.readPoly rs1
    let b ← s.readPoly rs2
    return { preg := [(rd, [paddF a b])] }

/-- PSUB (R183): the minuend is RS1. -/
def execPsub (rd rs1 rs2 : Nat) (s : State) : Host.Outcome State Fault Refusal :=
  s.commit do
    s.check (.psub rd rs1 rs2)
    let a ← s.readPoly rs1
    let b ← s.readPoly rs2
    return { preg := [(rd, [psubF a b])] }

/-- TOBYTES (R185): 416 bytes from BOFF. -/
def execTobytes (rp boff : Nat) (s : State) : Host.Outcome State Fault Refusal :=
  s.commit do
    s.check (.tobytes rp boff)
    let p ← s.readPoly rp
    return { buf := [(boff, tobytesF p)] }

/-- FROMBYTES (R187). -/
def execFrombytes (rp boff : Nat) (s : State) : Host.Outcome State Fault Refusal :=
  s.commit do
    s.check (.frombytes rp boff)
    let bs ← s.memRead boff 416
    return { preg := [(rp, [frombytesF bs])] }

/-- COMPRESS3 (R190): 96 bytes from BOFF. -/
def execCompress3 (rp boff : Nat) (s : State) : Host.Outcome State Fault Refusal :=
  s.commit do
    s.check (.compress3 rp boff)
    let p ← s.readPoly rp
    return { buf := [(boff, compressF 3 p)] }

/-- DECOMPRESS3 (R191). -/
def execDecompress3 (rp boff : Nat) (s : State) : Host.Outcome State Fault Refusal :=
  s.commit do
    s.check (.decompress3 rp boff)
    let bs ← s.memRead boff 96
    return { preg := [(rp, [decompressF 3 bs])] }

/-- COMPRESS11 (R192): 352 bytes from BOFF. -/
def execCompress11 (rp boff : Nat) (s : State) : Host.Outcome State Fault Refusal :=
  s.commit do
    s.check (.compress11 rp boff)
    let p ← s.readPoly rp
    return { buf := [(boff, compressF 11 p)] }

/-- DECOMPRESS11 (R193). -/
def execDecompress11 (rp boff : Nat) (s : State) : Host.Outcome State Fault Refusal :=
  s.commit do
    s.check (.decompress11 rp boff)
    let bs ← s.memRead boff 352
    return { preg := [(rp, [decompressF 11 bs])] }

/-- FROMMSG (R195). -/
def execFrommsg (rp boff : Nat) (s : State) : Host.Outcome State Fault Refusal :=
  s.commit do
    s.check (.frommsg rp boff)
    let bs ← s.memRead boff 32
    return { preg := [(rp, [frommsgF bs])] }

/-- TOMSG (R197): 32 bytes from BOFF. -/
def execTomsg (rp boff : Nat) (s : State) : Host.Outcome State Fault Refusal :=
  s.commit do
    s.check (.tomsg rp boff)
    let p ← s.readPoly rp
    return { buf := [(boff, tomsgF p)] }

/-- CBD (R199): η from the snapshot's SET. -/
def execCbd (rp boff : Nat) (s : State) : Host.Outcome State Fault Refusal :=
  s.commit do
    s.check (.cbd rp boff)
    let bs ← s.memRead boff (64 * s.snap.set.eta)
    return { preg := [(rp, [cbdF s.snap.set.eta bs])] }

/-- GETNOISE (R201): the seed from BUF, the nonce ARG[7:0]. -/
def execGetnoise (rp boff : Nat) (s : State) : Host.Outcome State Fault Refusal :=
  s.commit do
    s.check (.getnoise rp boff)
    let seed ← s.memRead boff 32
    return { preg := [(rp, [getnoiseF sponge seed (argNonce s.snap.arg) s.snap.set.eta])] }

end Sys2Proof.Machine
end

