-- ==== Sys2Proof/Machine/PolyVec.lean ====
section
/-! DEFINITION. Component V (spec/43_polyvec.md): the vector functions, the multiply-accumulate and their commands. A vector
is the list of its polynomials, element 0 first (R220). -/

namespace Sys2Proof.Machine

open Sys2Proof

/-- vntt_f (R220). -/
def vnttF (u : List Poly) : List Poly := u.map nttF

/-- vinvntt_f (R220). -/
def vinvnttF (u : List Poly) : List Poly := u.map invnttF

/-- vadd_f (R220). -/
def vaddF (u v : List Poly) : List Poly := List.zipWith paddF u v

/-- vtobytes_f (R220): 416 bytes an element. -/
def vtobytesF (u : List Poly) : Bytes := u.flatMap tobytesF

/-- `k` consecutive pieces of `n` bytes. -/
def pieces (n : Nat) : Nat → Bytes → List Bytes
  | 0, _ => []
  | k + 1, bs => bs.take n :: pieces n k (bs.drop n)

/-- vfrombytes_f (R220). -/
def vfrombytesF (k : Nat) (bs : Bytes) : List Poly := (pieces 416 k bs).map frombytesF

/-- vcompress_f (R220): 352 bytes an element. -/
def vcompressF (u : List Poly) : Bytes := u.flatMap (compressF 11)

/-- vdecompress_f (R220). -/
def vdecompressF (k : Nat) (bs : Bytes) : List Poly := (pieces 352 k bs).map (decompressF 11)

/-- One product of R221: t = mont_f(w32(4613·b[j])), then mont_f(w32(a[j]·t)). -/
def mulCoeff (a b : Coeff) : Coeff := montF (mulWord a (montF (mulWord (BitVec.ofNat 16 mont2) b)))

/-- The pointwise products of two polynomials (R221). -/
def mulPoly (a b : Poly) : Poly := List.zipWith mulCoeff a b

/-- The accumulator of R221: the product of elements 0, then each further product added with w16. -/
def paccSum : List Poly → List Poly → Poly
  | a :: as, b :: bs => (List.zipWith mulPoly as bs).foldl (List.zipWith addCoeff) (mulPoly a b)
  | _, _ => []

/-- pacc_f (R221): the accumulator, Barrett-reduced. The factor 4613 multiplies the second operand's elements. -/
def paccF (a b : List Poly) : Poly := (paccSum a b).map barrettF

/-- PACC (R222): P[RD] <- pacc_f(Vec(RS1), Vec(RS2)). -/
def execPacc (rd rs1 rs2 : Nat) (s : State) : Host.Outcome State Fault Refusal :=
  s.commit do
    s.check (.pacc rd rs1 rs2)
    let a ← s.readVec rs1 s.snap.set.k
    let b ← s.readVec rs2 s.snap.set.k
    return { preg := [(rd, [paccF a b])] }

/-- VNTT (R223). -/
def execVntt (rd rs1 : Nat) (s : State) : Host.Outcome State Fault Refusal :=
  s.commit do
    s.check (.vntt rd rs1)
    let u ← s.readVec rs1 s.snap.set.k
    return { preg := [(rd, vnttF u)] }

/-- VINVNTT (R224). -/
def execVinvntt (rd rs1 : Nat) (s : State) : Host.Outcome State Fault Refusal :=
  s.commit do
    s.check (.vinvntt rd rs1)
    let u ← s.readVec rs1 s.snap.set.k
    return { preg := [(rd, vinvnttF u)] }

/-- VADD (R225). -/
def execVadd (rd rs1 rs2 : Nat) (s : State) : Host.Outcome State Fault Refusal :=
  s.commit do
    s.check (.vadd rd rs1 rs2)
    let u ← s.readVec rs1 s.snap.set.k
    let v ← s.readVec rs2 s.snap.set.k
    return { preg := [(rd, vaddF u v)] }

/-- VTOBYTES (R226): 416k bytes from BOFF. -/
def execVtobytes (rp boff : Nat) (s : State) : Host.Outcome State Fault Refusal :=
  s.commit do
    s.check (.vtobytes rp boff)
    let u ← s.readVec rp s.snap.set.k
    return { buf := [(boff, vtobytesF u)] }

/-- VFROMBYTES (R227). -/
def execVfrombytes (rp boff : Nat) (s : State) : Host.Outcome State Fault Refusal :=
  s.commit do
    s.check (.vfrombytes rp boff)
    let bs ← s.memRead boff (416 * s.snap.set.k)
    return { preg := [(rp, vfrombytesF s.snap.set.k bs)] }

/-- VCOMPRESS11 (R228): 352k bytes from BOFF. -/
def execVcompress11 (rp boff : Nat) (s : State) : Host.Outcome State Fault Refusal :=
  s.commit do
    s.check (.vcompress11 rp boff)
    let u ← s.readVec rp s.snap.set.k
    return { buf := [(boff, vcompressF u)] }

/-- VDECOMPRESS11 (R229). -/
def execVdecompress11 (rp boff : Nat) (s : State) : Host.Outcome State Fault Refusal :=
  s.commit do
    s.check (.vdecompress11 rp boff)
    let bs ← s.memRead boff (352 * s.snap.set.k)
    return { preg := [(rp, vdecompressF s.snap.set.k bs)] }

end Sys2Proof.Machine
end

