-- ==== Sys2Proof/Machine/Matrix.lean ====
section
/-! DEFINITION. Component M (spec/44_matrix.md): the rejection sampler of the public matrix and GENMATRIX. -/

namespace Sys2Proof.Machine

open Sys2Proof

/-- The 13-bit candidate of two stream bytes (R241): (b0 | (b1 << 8)) AND 0x1FFF. -/
def candidate (b0 b1 : Byte) : Nat := (b0.toNat ||| (b1.toNat <<< 8)) &&& 0x1FFF

/-- The loop of sample_f (R241) over the bytes of the output stream: `need` coefficients are still missing. None when the
bytes run out first (R242). -/
def sampleFrom : Nat → Bytes → Option Poly
  | 0, _ => some []
  | need + 1, b0 :: b1 :: bs =>
    let val := candidate b0 b1
    if val < 7681 then (sampleFrom need bs).map (BitVec.ofNat 16 val :: ·) else sampleFrom (need + 1) bs
  | _ + 1, _ => none

/-- sample_f (R241) on at most `fuel` bytes of SHAKE128(seed ‖ [x] ‖ [y]) (R242). -/
def sampleF (h : Sponge) (fuel : Nat) (seed : Bytes) (x y : Nat) : Option Poly :=
  sampleFrom 256 (h.shake128 (seed ++ [BitVec.ofNat 8 x, BitVec.ofNat 8 y]) fuel)

/-- The index bytes of cell (i, j) (R241): (i, j) when transposed, (j, i) when not. -/
def cellIndex (transposed : Bool) (i j : Nat) : Nat × Nat := if transposed then (i, j) else (j, i)

/-- genmatrix_f (R241): the k rows of k cells; none when a cell runs out of fuel (R242). -/
def genmatrixF (h : Sponge) (fuel : Nat) (seed : Bytes) (transposed : Bool) (k : Nat) : Option (List (List Poly)) :=
  (List.range k).mapM fun i =>
    (List.range k).mapM fun j => sampleF h fuel seed (cellIndex transposed i j).1 (cellIndex transposed i j).2

/-- GENMATRIX (R243): P[RP + i·k + j] <- A[i][j]. -/
def execGenmatrix (rp boff : Nat) (s : State) : Host.Outcome State Fault Refusal :=
  s.commit do
    s.check (.genmatrix rp boff)
    let seed ← s.memRead boff 32
    let a ← orFault .samplerFuel
      (genmatrixF sponge Config.genmatFuel seed (argTransposed s.snap.arg) s.snap.set.k)
    return { preg := [(rp, a.flatten)] }

end Sys2Proof.Machine
end

