-- ==== Sys2Proof/Machine/IndCpa.lean ====
section
/-! DEFINITION. Component E (spec/45_indcpa.md): IND-CPA key generation, encryption and decryption. The functions that sample
a matrix answer none when the sampler's fuel runs out (R242). -/

namespace Sys2Proof.Machine

open Sys2Proof

/-- `k` noise polynomials with nonces `first`, `first + 1`, ... (R251, R253). -/
def noiseVec (h : Sponge) (seed : Bytes) (eta first k : Nat) : List Poly :=
  (List.range k).map fun i => getnoiseF h seed (BitVec.ofNat 8 (first + i)) eta

/-- cpa_keypair_f (R251): (pk, sk). -/
def cpaKeypairF (h : Sponge) (fuel k eta : Nat) (d : Bytes) : Option (Bytes × Bytes) :=
  let g := h.sha3_512 d
  let publicSeed := g.take 32
  let noiseSeed := (g.drop 32).take 32
  match genmatrixF h fuel publicSeed false k with
  | none => none
  | some a =>
    let s := noiseVec h noiseSeed eta 0 k
    let e := noiseVec h noiseSeed eta k k
    let sHat := vnttF s
    let tHat := a.map fun row => paccF sHat row
    let t := vaddF (vinvnttF tHat) e
    some (vcompressF t ++ publicSeed, vtobytesF sHat)

/-- cpa_enc_f (R253). -/
def cpaEncF (h : Sponge) (fuel k eta : Nat) (m pk coins : Bytes) : Option Bytes :=
  let t := vdecompressF k (pk.take (352 * k))
  let publicSeed := (pk.drop (352 * k)).take 32
  let kpoly := frommsgF m
  let tHat := vnttF t
  match genmatrixF h fuel publicSeed true k with
  | none => none
  | some aT =>
    let r := noiseVec h coins eta 0 k
    let e1 := noiseVec h coins eta k k
    let e2 := getnoiseF h coins (BitVec.ofNat 8 (2 * k)) eta
    let rHat := vnttF r
    let b := vaddF (vinvnttF (aT.map fun row => paccF rHat row)) e1
    let v := paddF (paddF (invnttF (paccF tHat rHat)) e2) kpoly
    some (vcompressF b ++ compressF 3 v)

/-- cpa_dec_f (R255). -/
def cpaDecF (k : Nat) (ct sk : Bytes) : Bytes :=
  let b := vdecompressF k (ct.take (352 * k))
  let v := decompressF 3 ((ct.drop (352 * k)).take 96)
  let sHat := vfrombytesF k (sk.take (416 * k))
  tomsgF (psubF (invnttF (paccF sHat (vnttF b))) v)

/-- CPA_KEYPAIR (R252): RND0 → PK, SK. -/
def execCpaKeypair (s : State) : Host.Outcome State Fault Refusal :=
  s.commit do
    s.check .cpaKeypair
    let d ← s.memRead regionRND0 32
    let ks ← orFault .samplerFuel (cpaKeypairF sponge Config.genmatFuel s.snap.set.k s.snap.set.eta d)
    return { buf := [(regionPK, ks.1), (regionSK, ks.2)] }

/-- CPA_ENC (R254): MSG, PK, COINS → CT. -/
def execCpaEnc (s : State) : Host.Outcome State Fault Refusal :=
  s.commit do
    s.check .cpaEnc
    let m ← s.memRead regionMSG 32
    let pk ← s.memRead regionPK (pkLen s.snap.set.k)
    let coins ← s.memRead regionCOINS 32
    let ct ← orFault .samplerFuel (cpaEncF sponge Config.genmatFuel s.snap.set.k s.snap.set.eta m pk coins)
    return { buf := [(regionCT, ct)] }

/-- CPA_DEC (R256): CT, SK → MSG. -/
def execCpaDec (s : State) : Host.Outcome State Fault Refusal :=
  s.commit do
    s.check .cpaDec
    let ct ← s.memRead regionCT (ctLen s.snap.set.k)
    let sk ← s.memRead regionSK (skcLen s.snap.set.k)
    return { buf := [(regionMSG, cpaDecF s.snap.set.k ct sk)] }

end Sys2Proof.Machine
end

