-- ==== Sys2Proof/Machine/Kem.lean ====
section
/-! DEFINITION. Component K (spec/46_kem.md): the IND-CCA KEM and the private-key check. -/

namespace Sys2Proof.Machine

open Sys2Proof

/-- kem_keygen_f (R272): (pk, skc ‖ pk ‖ H(pk) ‖ z). -/
def kemKeygenF (h : Sponge) (fuel k eta : Nat) (d z : Bytes) : Option (Bytes × Bytes) :=
  match cpaKeypairF h fuel k eta d with
  | none => none
  | some (pk, skc) => some (pk, skc ++ pk ++ h.sha3_256 pk ++ z)

/-- kem_encaps_f (R274): (ct, ss); kr_hi = kr[0..32) and kr_lo = kr[32..64) (R271). -/
def kemEncapsF (h : Sponge) (fuel k eta : Nat) (rRaw pk : Bytes) : Option (Bytes × Bytes) :=
  let m := h.sha3_256 rRaw
  let kr := h.sha3_512 (m ++ h.sha3_256 pk)
  match cpaEncF h fuel k eta m pk ((kr.drop 32).take 32) with
  | none => none
  | some ct => some (ct, h.sha3_256 (kr.take 32 ++ h.sha3_256 ct))

/-- ConstantTimeEqual (R278, R280): the OR over all byte pairs of their XOR is 0. -/
def constantTimeEqual (x y : Bytes) : Bool :=
  decide (x.length = y.length) && decide ((List.zipWith (fun a b => a ^^^ b) x y).foldl (fun a b => a ||| b) 0 = 0)

/-- ConstantTimeSelect (R278, R280): each byte under the mask, 0xFF when `fail`. -/
def constantTimeSelect (fail : Bool) (x y : Bytes) : Bytes :=
  let mask : Byte := if fail then 0xFF else 0x00
  List.zipWith (fun a b => (a &&& mask) ||| (b &&& ~~~mask)) x y

/-- kem_decaps_f (R278); z replaces the pre-key kr'_hi on failure (conflict C3). -/
def kemDecapsF (h : Sponge) (fuel k eta : Nat) (ct sk : Bytes) : Option Bytes :=
  let skc := sk.take (416 * k)
  let pk := (sk.drop (416 * k)).take (352 * k + 32)
  let hpk := (sk.drop (768 * k + 32)).take 32
  let z := (sk.drop (768 * k + 64)).take 32
  let m' := cpaDecF k ct skc
  let kr' := h.sha3_512 (m' ++ hpk)
  match cpaEncF h fuel k eta m' pk ((kr'.drop 32).take 32) with
  | none => none
  | some ct' =>
    let fail := !constantTimeEqual ct ct'
    let pre := constantTimeSelect fail z (kr'.take 32)
    some (h.sha3_256 (pre ++ h.sha3_256 ct))

/-- KEM_KEYGEN (R273): RND0, RND1 → PK, SK. -/
def execKemKeygen (s : State) : Host.Outcome State Fault Refusal :=
  s.commit do
    s.check .kemKeygen
    let d ← s.memRead regionRND0 32
    let z ← s.memRead regionRND1 32
    let ks ← orFault .samplerFuel (kemKeygenF sponge Config.genmatFuel s.snap.set.k s.snap.set.eta d z)
    return { buf := [(regionPK, ks.1), (regionSK, ks.2)] }

/-- KEM_ENCAPS (R275): RND0, PK → CT, SS. -/
def execKemEncaps (s : State) : Host.Outcome State Fault Refusal :=
  s.commit do
    s.check .kemEncaps
    let rRaw ← s.memRead regionRND0 32
    let pk ← s.memRead regionPK (pkLen s.snap.set.k)
    let cs ← orFault .samplerFuel (kemEncapsF sponge Config.genmatFuel s.snap.set.k s.snap.set.eta rRaw pk)
    return { buf := [(regionCT, cs.1), (regionSS, cs.2)] }

/-- KEM_DECAPS (R279): CT, SK → SS. The check of the embedded hash is the last of `check` (R281). -/
def execKemDecaps (s : State) : Host.Outcome State Fault Refusal :=
  s.commit do
    s.check .kemDecaps
    let sk ← s.memRead regionSK (skLen s.snap.set.k)
    let ct ← s.memRead regionCT (ctLen s.snap.set.k)
    let ss ← orFault .samplerFuel (kemDecapsF sponge Config.genmatFuel s.snap.set.k s.snap.set.eta ct sk)
    return { buf := [(regionSS, ss)] }

/-- KEM_SKCHECK (R277): the checks alone; Ok(no writes). -/
def execKemSkcheck (s : State) : Host.Outcome State Fault Refusal :=
  s.commit do
    s.check .kemSkcheck
    return { }

end Sys2Proof.Machine
end

