-- ==== Sys2Proof/Machine/Reduce.lean ====
section
/-! DEFINITION. Component R (spec/40_reduction.md): NOP, MONTR, BARR and FREEZE. The functions they expose are in
Sys2Proof/Machine/Arith.lean. -/

namespace Sys2Proof.Machine

open Sys2Proof

/-- NOP (R147): Ok(no writes). -/
def execNop (s : State) : Host.Outcome State Fault Refusal :=
  s.commit do
    s.check .nop
    return { }

/-- MONTR (R142): RES <- zext_32(mont_f(snap.ARG)). -/
def execMontr (s : State) : Host.Outcome State Fault Refusal :=
  s.commit do
    s.check .montr
    return { res := some (BitVec.ofNat 32 (montF s.snap.arg).toNat) }

/-- BARR (R144): RES <- zext_32(barrett_f(snap.ARG[15:0])). -/
def execBarr (s : State) : Host.Outcome State Fault Refusal :=
  s.commit do
    s.check .barr
    return { res := some (BitVec.ofNat 32 (barrettF (argHalf s.snap.arg)).toNat) }

/-- FREEZE (R146): RES <- zext_32(freeze_f(snap.ARG[15:0])). -/
def execFreeze (s : State) : Host.Outcome State Fault Refusal :=
  s.commit do
    s.check .freeze
    return { res := some (BitVec.ofNat 32 (freezeF (argHalf s.snap.arg)).toNat) }

end Sys2Proof.Machine
end

