-- ==== Sys2Proof/Machine/Dispatch.lean ====
section
/-! DEFINITION. One arm per command: the commit of the command `i` in the state `s` (spec/10_state.md R52). -/

namespace Sys2Proof.Machine

open Sys2Proof

def exec (i : Instr) (s : State) : Host.Outcome State Fault Refusal :=
  match i with
  | .nop => Sys2Proof.Machine.execNop s
  | .montr => Sys2Proof.Machine.execMontr s
  | .barr => Sys2Proof.Machine.execBarr s
  | .freeze => Sys2Proof.Machine.execFreeze s
  | .ntt rd rs1 => Sys2Proof.Machine.execNtt rd rs1 s
  | .invntt rd rs1 => Sys2Proof.Machine.execInvntt rd rs1 s
  | .padd rd rs1 rs2 => Sys2Proof.Machine.execPadd rd rs1 rs2 s
  | .psub rd rs1 rs2 => Sys2Proof.Machine.execPsub rd rs1 rs2 s
  | .tobytes rp boff => Sys2Proof.Machine.execTobytes rp boff s
  | .frombytes rp boff => Sys2Proof.Machine.execFrombytes rp boff s
  | .compress3 rp boff => Sys2Proof.Machine.execCompress3 rp boff s
  | .decompress3 rp boff => Sys2Proof.Machine.execDecompress3 rp boff s
  | .compress11 rp boff => Sys2Proof.Machine.execCompress11 rp boff s
  | .decompress11 rp boff => Sys2Proof.Machine.execDecompress11 rp boff s
  | .frommsg rp boff => Sys2Proof.Machine.execFrommsg rp boff s
  | .tomsg rp boff => Sys2Proof.Machine.execTomsg rp boff s
  | .cbd rp boff => Sys2Proof.Machine.execCbd rp boff s
  | .getnoise rp boff => Sys2Proof.Machine.execGetnoise rp boff s
  | .pacc rd rs1 rs2 => Sys2Proof.Machine.execPacc rd rs1 rs2 s
  | .vntt rd rs1 => Sys2Proof.Machine.execVntt rd rs1 s
  | .vinvntt rd rs1 => Sys2Proof.Machine.execVinvntt rd rs1 s
  | .vadd rd rs1 rs2 => Sys2Proof.Machine.execVadd rd rs1 rs2 s
  | .vtobytes rp boff => Sys2Proof.Machine.execVtobytes rp boff s
  | .vfrombytes rp boff => Sys2Proof.Machine.execVfrombytes rp boff s
  | .vcompress11 rp boff => Sys2Proof.Machine.execVcompress11 rp boff s
  | .vdecompress11 rp boff => Sys2Proof.Machine.execVdecompress11 rp boff s
  | .genmatrix rp boff => Sys2Proof.Machine.execGenmatrix rp boff s
  | .cpaKeypair => Sys2Proof.Machine.execCpaKeypair s
  | .cpaEnc => Sys2Proof.Machine.execCpaEnc s
  | .cpaDec => Sys2Proof.Machine.execCpaDec s
  | .kemKeygen => Sys2Proof.Machine.execKemKeygen s
  | .kemEncaps => Sys2Proof.Machine.execKemEncaps s
  | .kemDecaps => Sys2Proof.Machine.execKemDecaps s
  | .kemSkcheck => Sys2Proof.Machine.execKemSkcheck s

end Sys2Proof.Machine
end

