-- ==== Sys2Proof/Machine/Engine.lean ====
section
/-! DEFINITION. The command engine beside the commit: acceptance of a command word with its snapshot (spec/10_state.md R51),
the latency its public values allow (spec/70_reset_and_hazards.md R360, R361), abort and soft reset (R342, R343), and the
reset input (R340). -/

namespace Sys2Proof.Machine

open Sys2Proof

/-- The error code a command ends with, none when it ends without one (R302). -/
def State.errorOf (s : State) (i : Instr) : Option CmdError :=
  match s.check i with
  | .error (.err c) => some c
  | _ => none

/-- The 32 bytes of BUF from `o`, none when one of them is undefined. -/
def State.seedAt (s : State) (o : Nat) : Option Bytes := Memory.load s.buf o 32

/-- The public seed of the matrix a command samples (R361, R244): read from BUF, or for key generation the first half of
SHA3_512(d), which is published in pk. None for a command that samples no matrix. -/
def State.matrixSeed (s : State) : Instr → Option Bytes
  | .nop | .montr | .barr | .freeze => none
  | .ntt _ _ | .invntt _ _ | .padd _ _ _ | .psub _ _ _ => none
  | .tobytes _ _ | .frombytes _ _ => none
  | .compress3 _ _ | .decompress3 _ _ | .compress11 _ _ | .decompress11 _ _ => none
  | .frommsg _ _ | .tomsg _ _ => none
  | .cbd _ _ | .getnoise _ _ => none
  | .pacc _ _ _ | .vntt _ _ | .vinvntt _ _ | .vadd _ _ _ => none
  | .vtobytes _ _ | .vfrombytes _ _ | .vcompress11 _ _ | .vdecompress11 _ _ => none
  | .genmatrix _ boff => s.seedAt boff
  | .cpaKeypair => (s.seedAt regionRND0).map fun d => (sponge.sha3_512 d).take 32
  | .cpaEnc => s.seedAt (regionPK + 352 * s.snap.set.k)
  | .cpaDec => none
  | .kemKeygen => (s.seedAt regionRND0).map fun d => (sponge.sha3_512 d).take 32
  | .kemEncaps => s.seedAt (regionPK + 352 * s.snap.set.k)
  | .kemDecaps => s.seedAt (regionSK + 768 * s.snap.set.k)
  | .kemSkcheck => none

/-- The public values of a command word in a state: all that its latency may depend on (R361). A command that ends with an
error samples no matrix. -/
def State.latKey (s : State) (w : Word) : LatKey :=
  match decode w with
  | .error _ =>
    { opcode := BitVec.ofNat 8 w.toNat, set := BitVec.ofNat 2 s.snap.set.number,
      ecode := BitVec.ofNat 4 CmdError.illegalOpcode.code, seed := none }
  | .ok i =>
    { opcode := BitVec.ofNat 8 w.toNat, set := BitVec.ofNat 2 s.snap.set.number,
      ecode := BitVec.ofNat 4 (ecodeNumber (s.errorOf i)),
      seed := if (s.errorOf i).isSome then none else s.matrixSeed i }

/-- The CSR snapshot of an acceptance (R51). -/
def State.snapshotFor (s : State) (w : Word) : Snapshot :=
  { word := w, set := s.set, arg := s.arg, keylen := s.keylen, ctlen := s.ctlen }

/-- Acceptance (R51) of word `w` by an idle engine, with the given number of host steps before the commit. No check is made
here. -/
def State.acceptWith (s : State) (w : Word) (left : Nat) : State :=
  { s with cmd := w, done := false, err := false, ecode := none, eng := .busy (s.snapshotFor w) left }

/-- Acceptance with the latency of R360: one draw of LAT. -/
def State.accept (s : State) (w : Word) : State :=
  { s.acceptWith w (Config.latBefore s.draws (s.latKey w)) with draws := s.draws + 1 }

/-- A host write to CMD: accepted when idle (R51), dropped with OVR when busy (R53). -/
def State.writeCmd (s : State) (w : Word) : State :=
  match s.eng with
  | .idle => s.accept w
  | .busy _ _ => { s with ovr := true }

/-- A PREG destination made undefined (R343). -/
def Memory.forgetRegs (m : Memory) : Option (Nat × Nat) → Memory
  | none => m
  | some (r, n) => Memory.forget m (pregBytes * r) (pregBytes * n)

/-- BUF destinations made undefined (R343). -/
def Memory.forgetRanges (m : Memory) (rs : List (Nat × Nat)) : Memory :=
  rs.foldl (fun m r => Memory.forget m r.1 r.2) m

/-- abort(snap) (R343): every coefficient and byte that `Execute(snap)` would write becomes undefined; none does when the
command would end with an error. A command whose own check reads an undefined byte counts as one that would write (log
entry 11). -/
def State.abort (s : State) : State :=
  match s.eng with
  | .idle => s
  | .busy sn _ =>
    match decode sn.word with
    | .error _ => s
    | .ok i =>
      match s.errorOf i with
      | some _ => s
      | none =>
        { s with
          preg := Memory.forgetRegs s.preg (i.pregDest sn.set.k)
          buf := Memory.forgetRanges s.buf (i.bufDest sn.set.k) }

/-- The registers and the engine at their reset values (R56); PREG, BUF, the host and the draw counter are left. -/
def State.clearRegisters (s : State) : State :=
  { s with
    ie := false
    done := false
    err := false
    ovr := false
    ecode := none
    set := .unconfigured
    cmd := 0
    arg := 0
    res := 0
    keylen := 0
    ctlen := 0
    eng := .idle }

/-- A soft reset (R342): abort, then the registers and the engine. -/
def State.softReset (s : State) : State := s.abort.clearRegisters

/-- The reset input (R340): the block's state is that after a hardware reset; the host goes on. -/
def State.hardReset (s : State) : State := { s.clearRegisters with preg := [], buf := [] }

end Sys2Proof.Machine
end

