-- ==== Sys2Proof/Machine/Bus.lean ====
section
/-! DEFINITION. The host bus (spec/20_memory.md R80 to R95): the address map, the CSR reads and writes of
spec/10_state.md R32 to R46, HostRead and HostWrite (R92). -/

namespace Sys2Proof.Machine

open Sys2Proof

/-- The bytes an access moves (R80). -/
def Size.bytes : Size → Nat
  | .byte => 1
  | .half => 2
  | .word => 4

/-- The windows of the address map (R82). -/
inductive Region where
  | csr
  | buf
  | preg
  deriving DecidableEq, Repr

/-- The region an address lies in, none where it is unmapped (R82). -/
def regionOf (a : Nat) : Option Region :=
  if a < 0x0100 then some .csr
  else if 0x2000 ≤ a ∧ a < 0x4000 then some .buf
  else if 0x8000 ≤ a ∧ a < 0xC000 then some .preg
  else none

/-- The bus-error conditions of R92 (R83, R89), and the region of an access that is none of them. -/
def busCheck (a : Nat) (sz : Size) : Except Fault Region :=
  if a % sz.bytes ≠ 0 then .error .misaligned
  else
    match regionOf a with
    | none => .error .unmapped
    | some .csr => if sz = .word then .ok .csr else .error .narrowCsr
    | some r => .ok r

/-- The value of ID (R33). -/
def idWord : Word := 0x4B594231

/-- CTRL as it reads (R34): IE in bit 0; SRST reads 0. -/
def State.ctrlWord (s : State) : Word := BitVec.ofNat 32 (flagBit s.ie)

/-- PARAM as it reads (R36): SET 1:0, K 6:4, ETA 10:8. -/
def State.paramWord (s : State) : Word :=
  BitVec.ofNat 32 (s.set.number + 2 ^ 4 * s.set.k + 2 ^ 8 * s.set.eta)

/-- A CSR read at an aligned offset (R32); reserved offsets read 0 (R46). No read has a side effect (R90). -/
def State.csrRead (s : State) (a : Nat) : Word :=
  match a with
  | 0x00 => idWord
  | 0x04 => s.ctrlWord
  | 0x08 => s.statusWord
  | 0x0C => s.paramWord
  | 0x10 => s.cmd
  | 0x14 => s.arg
  | 0x18 => s.res
  | 0x1C => BitVec.ofNat 32 s.keylen.toNat
  | 0x20 => BitVec.ofNat 32 s.ctlen.toNat
  | 0x24 => BitVec.ofNat 32 s.set.pkSize
  | 0x28 => BitVec.ofNat 32 s.set.skSize
  | 0x2C => BitVec.ofNat 32 s.set.ctSize
  | _ => 0

/-- A write to CTRL (R34): SRST = 1 performs the soft reset and the written IE is ignored; else IE is bit 0. -/
def State.writeCtrl (s : State) (v : Word) : State :=
  if v.getLsbD 1 then s.softReset else { s with ie := v.getLsbD 0 }

/-- A CSR write at an aligned offset (R32 to R46). Read-only and reserved offsets ignore it. -/
def State.csrWrite (s : State) (a : Nat) (v : Word) : State :=
  match a with
  | 0x04 => s.writeCtrl v
  | 0x08 => s.acknowledge (v.getLsbD 1) (v.getLsbD 2) (v.getLsbD 3)
  | 0x0C => { s with set := ParamSet.ofWord v }
  | 0x10 => s.writeCmd v
  | 0x14 => { s with arg := v }
  | 0x1C => { s with keylen := BitVec.ofNat 16 v.toNat }
  | 0x20 => { s with ctlen := BitVec.ofNat 16 v.toNat }
  | _ => s

/-- The value of a read, and the state after it: a read changes nothing but the draw counter, where a value is drawn. -/
structure ReadResult where
  value : Word
  after : State

/-- The free value of a host read of BUF or PREG while BUSY (R94), cut to the width of the access: one draw. -/
def State.busyValue (s : State) (sz : Size) : ReadResult :=
  { value := BitVec.ofNat 32 ((Config.busyRead s.draws).toNat % 2 ^ (8 * sz.bytes)), after := { s with draws := s.draws + 1 } }

/-- The bytes of BUF at an offset (R92): a fault if one is undefined (R47). -/
def State.bufRead (s : State) (o : Nat) (sz : Size) : Except Fault Word :=
  match Memory.load s.buf o sz.bytes with
  | some bs => .ok (BitVec.ofNat 32 (loadLE bs))
  | none => .error .undefinedBuf

/-- The bytes of PREG at an offset of its window (R86, R92): "model: fault if undefined" (R92), that is if a coefficient the
access touches is undefined (R41, R305; spec/93_implementation_defined.md item 1). A byte
access touches one whole coefficient, which "counts as undefined" when either of its bytes is (R86; log entry 7). -/
def State.pregRead (s : State) (o : Nat) (sz : Size) : Except Fault Word :=
  match Memory.load s.preg (o / 2 * 2) (max sz.bytes 2) with
  | some bs => .ok (BitVec.ofNat 32 (loadLE ((bs.drop (o % 2)).take sz.bytes)))
  | none => .error .undefinedPreg

/-- HostRead(a, size) (R92). -/
def State.hostRead (s : State) (a : Nat) (sz : Size) : Except Fault ReadResult :=
  match busCheck a sz with
  | .error f => .error f
  | .ok .csr => .ok { value := s.csrRead a, after := s }
  | .ok .buf =>
    if s.isBusy then .ok (s.busyValue sz)
    else (s.bufRead (a - 0x2000) sz).map fun v => { value := v, after := s }
  | .ok .preg =>
    if s.isBusy then .ok (s.busyValue sz)
    else (s.pregRead (a - 0x8000) sz).map fun v => { value := v, after := s }

/-- HostWrite(a, size, v) (R92): a write to BUF or PREG while BUSY is a contract violation (R95). -/
def State.hostWrite (s : State) (a : Nat) (sz : Size) (v : Word) : Except Fault State :=
  match busCheck a sz with
  | .error f => .error f
  | .ok .csr => .ok (s.csrWrite a v)
  | .ok .buf =>
    if s.isBusy then .error .busyWrite
    else .ok { s with buf := Memory.storeBytes s.buf (a - 0x2000) (storeLE sz.bytes v.toNat) }
  | .ok .preg =>
    if s.isBusy then .error .busyWrite
    else .ok { s with preg := Memory.storeBytes s.preg (a - 0x8000) (storeLE sz.bytes v.toNat) }

end Sys2Proof.Machine
end

