-- ==== Sys2Proof/Machine/HostAgent.lean ====
section
/-! DEFINITION. The host agent (spec/10_state.md R30): one line of its program a step (spec/30_encoding.md R125), and the
pseudo-instructions of R123 as lines. -/

namespace Sys2Proof.Machine

open Sys2Proof

/-- A host register's value. -/
def State.hreg (s : State) (h : Fin 8) : Word := s.host.regs[h.val]

/-- A host register written. -/
def State.setHreg (s : State) (h : Fin 8) (v : Word) : State :=
  { s with host := { s.host with regs := s.host.regs.set h.val v } }

/-- The host goes to the line with index `n`. -/
def State.goto (s : State) (n : Nat) : State := { s with host := { s.host with pos := n } }

/-- The host goes to the next line. -/
def State.nextLine (s : State) : State := s.goto (s.host.pos + 1)

/-- The address of a line (R125). -/
def State.locAddr (s : State) : Loc → Nat
  | .const a => a
  | .reg h => (s.hreg h).toNat

/-- The value a line writes. -/
def State.srcVal (s : State) : Src → Word
  | .reg h => s.hreg h
  | .imm v => v

/-- One line of the host's program (R125). R125 does not write out what `andi` does: that it is the bitwise AND of 32 bits is
PRESUMED from the line's name (log entry 28). -/
def State.runLine (s : State) : Line → Host.Outcome State Fault Refusal
  | .li h imm => .next (s.setHreg h imm).nextLine
  | .addi h h' imm => .next (s.setHreg h (s.hreg h' + imm)).nextLine
  | .andi h h' imm => .next (s.setHreg h (s.hreg h' &&& imm)).nextLine
  | .write a sz v =>
    match s.hostWrite (s.locAddr a) sz (s.srcVal v) with
    | .ok t => .next t.nextLine
    | .error f => .fault f
  | .read h a sz =>
    match s.hostRead (s.locAddr a) sz with
    | .ok r => .next (r.after.setHreg h r.value).nextLine
    | .error f => .fault f
  | .beq h imm target => .next (if s.hreg h = imm then s.goto target else s.nextLine)
  | .bne h imm target => .next (if s.hreg h = imm then s.nextLine else s.goto target)
  | .wait =>
    match s.hostRead 0x0008 .word with
    | .ok r =>
      let t := r.after.setHreg 7 r.value
      .next (if r.value.getLsbD 0 then t else t.nextLine)
    | .error f => .fault f
  | .halt => .next s
  | .rst => .next s.hardReset.nextLine

/-- The host's turn: its present line; after the last line, and at `halt`, it does nothing more. -/
def State.hostStep (s : State) : Host.Outcome State Fault Refusal :=
  match s.host.prog[s.host.pos]? with
  | some l => s.runLine l
  | none => .next s

/-! The pseudo-instructions of R123. -/

/-- ISSUE <command line>. -/
def Line.issue (i : Instr) : Line := .write (.const 0x0010) .word (.imm (encode i))

/-- SETARG v. -/
def Line.setArg (v : Word) : Line := .write (.const 0x0014) .word (.imm v)

/-- SETPARAM s. -/
def Line.setParam (v : Word) : Line := .write (.const 0x000C) .word (.imm v)

/-- SETKEYLEN n. -/
def Line.setKeylen (v : Word) : Line := .write (.const 0x001C) .word (.imm v)

/-- SETCTLEN n. -/
def Line.setCtlen (v : Word) : Line := .write (.const 0x0020) .word (.imm v)

/-- CLRSTATUS: clears DONE, ERR with ECODE, and OVR. -/
def Line.clrStatus : Line := .write (.const 0x0008) .word (.imm 0x0000000E)

/-- RUN <command line>: ISSUE, then WAIT. -/
def Line.run (i : Instr) : List Line := [Line.issue i, .wait]

end Sys2Proof.Machine
end

