-- ==== Sys2Proof/Machine/Commit.lean ====
section
/-! DEFINITION. What the step calls: the core's commit of a command word (spec/10_state.md R52), and the host's turn while a
command waits. -/

namespace Sys2Proof.Machine

open Sys2Proof

/-- The commit of the command word `w`: the decoder's check first (R302, check 1), then the command. -/
def State.commitWord (s : State) (w : Word) : Host.Outcome State Fault Refusal :=
  match decode w with
  | .ok i => exec i s
  | .error _ => .next (s.completeError .illegalOpcode)

/-- The host's turn while the engine is BUSY: one of the host steps before the commit is used up (R360). -/
def State.hostTurn (s : State) (sn : Snapshot) (n : Nat) : Host.Outcome State Fault Refusal :=
  { s with eng := .busy sn n }.hostStep

end Sys2Proof.Machine
end

