-- ==== Sys2Proof/Machine/Step.lean ====
section
/-! DEFINITION. One step of the machine: the host's turn or the core's (spec/60_exceptions.md R312, "each step being one host
access or one commit"). -/

namespace Sys2Proof.Machine

open Sys2Proof

/-- The step. While BUSY with host steps left the host moves and one of them is used up; with none left the core commits
(R52); while IDLE the host moves. -/
def step (s : State) : Host.Outcome State Fault Refusal :=
  match s.eng with
  | .idle => s.hostStep
  | .busy sn (n + 1) => s.hostTurn sn n
  | .busy sn 0 => s.commitWord sn.word

/-- `s` with the command word of a table row accepted by the engine and nothing left before its commit, so that the next step
runs it: the placement that an acceptance (R51) makes, without its latency (log entry 2). -/
def State.withFetchWord (s : State) (nbits w : Nat) : State := s.acceptWith (tableWord nbits w) 0

end Sys2Proof.Machine
end

