-- ==== Sys2Proof/Machine/Loops.lean ====
section
/-! DEFINITION. The two transforms once more, as the loops of spec/41_ntt.md R163 and R165 are written: index by index, each
assignment in the order of the pseudocode. No step uses them; claims compare them with `nttF` and `invnttF`. -/

namespace Sys2Proof.Machine

open Sys2Proof

/-- p[j]. -/
def coeffAt (p : Poly) (j : Nat) : Coeff := p.getD j 0

/-- The body of the inner loop of R163. -/
def nttLoopBody (odd : Bool) (zeta : Coeff) (L : Nat) (p : Poly) (j : Nat) : Poly :=
  let t := montF (mulWord zeta (coeffAt p (j + L)))
  let p' := p.set (j + L) (barrettF (w16 ((coeffAt p j).toNat + 4 * 7681 - t.toNat)))
  if odd then p'.set j (addCoeff (coeffAt p' j) t) else p'.set j (barrettF (addCoeff (coeffAt p' j) t))

/-- One turn of the loop over `start` of R163, the `m`-th: start = 2L·m, and k counts up. -/
def nttLoopStart (level : Nat) (st : Poly × Nat) (m : Nat) : Poly × Nat :=
  let L := 2 ^ level
  let zeta := coeffAt zetas st.2
  ((List.range L).foldl (fun p i => nttLoopBody (decide (level % 2 = 1)) zeta L p (2 * L * m + i)) st.1, st.2 + 1)

/-- One level of R163: start = 0, 2L, 4L, ... while below 256. -/
def nttLoopLevel (st : Poly × Nat) (level : Nat) : Poly × Nat :=
  (List.range (128 / 2 ^ level)).foldl (nttLoopStart level) st

/-- ntt_f as R163 writes it, k starting at 1. -/
def nttLoop (p : Poly) : Poly := ([7, 6, 5, 4, 3, 2, 1, 0].foldl nttLoopLevel (p, 1)).1

/-- The body of the inner loop of R165: `a[j+L]` on the right is the value before the butterfly. -/
def invnttLoopBody (odd : Bool) (w : Coeff) (L : Nat) (a : Poly) (j : Nat) : Poly :=
  let temp := coeffAt a j
  let sum := addCoeff temp (coeffAt a (j + L))
  let a' := if odd then a.set j (barrettF sum) else a.set j sum
  a'.set (j + L) (montF (w32 (w.toNat * (w32 (temp.toNat + 4 * 7681 - (coeffAt a (j + L)).toNat)).toNat)))

/-- The inner loop of R165 for one `start`: j = start + 2L·jt, jt from 0. -/
def invnttLoopStart (level : Nat) (a : Poly) (start : Nat) : Poly :=
  let L := 2 ^ level
  (List.range (128 / L)).foldl
    (fun a jt => invnttLoopBody (decide (level % 2 = 1)) (coeffAt omegasInv jt) L a (start + 2 * L * jt)) a

/-- One level of R165: start = 0 to L − 1. -/
def invnttLoopLevel (a : Poly) (level : Nat) : Poly := (List.range (2 ^ level)).foldl (invnttLoopStart level) a

/-- The final pass of R165. -/
def invnttLoopTwist (a : Poly) : Poly :=
  (List.range 256).foldl (fun a j => a.set j (montF (mulWord (coeffAt a j) (coeffAt psisInv j)))) a

/-- invntt_f as R165 writes it. -/
def invnttLoop (a : Poly) : Poly := invnttLoopTwist ([0, 1, 2, 3, 4, 5, 6, 7].foldl invnttLoopLevel a)

end Sys2Proof.Machine
end

