-- ==== Sys2Proof/Safety.lean ====
section
/-! DEFINITION. The terms claims are stated in: the invariant of every state a run reaches, what it is for a command to commit,
and the arithmetic that the laws of spec/ speak of. -/

namespace Sys2Proof.Machine

open Sys2Proof

/-- PREG and BUF are in canonical form and hold no byte outside their sizes (R40, R84). -/
def State.storageOk (s : State) : Bool :=
  Memory.wf s.preg && Memory.below s.preg pregSize && Memory.wf s.buf && Memory.below s.buf bufSize

/-- ERR is 1 exactly when ECODE is not 0 (R304). -/
def State.errorFlagsOk (s : State) : Bool := decide (s.err = s.ecode.isSome)

/-- While BUSY, DONE and ERR are 0: acceptance cleared them (R51) and only a commit sets them (R52). -/
def State.busyFlagsOk (s : State) : Bool := !s.isBusy || (!s.done && !s.err)

/-- CMD reads back the word of the command in progress (R37). -/
def State.cmdOk (s : State) : Bool :=
  match s.eng with
  | .idle => true
  | .busy sn _ => decide (sn.word = s.cmd)

/-- RES holds a zero-extended 16-bit value (R39). -/
def State.resOk (s : State) : Bool := decide (s.res.toNat < 2 ^ 16)

/-- The invariant of the machine. -/
def State.Inv (s : State) : Prop :=
  s.storageOk = true ∧ s.errorFlagsOk = true ∧ s.busyFlagsOk = true ∧ s.cmdOk = true ∧ s.resOk = true

/-! ### What a command leaves behind -/

/-- `t` is the state after a commit without error that writes the registers P[r], P[r+1], ... with `ps`, and nothing else:
DONE is set and the engine is IDLE (R52). Every other field, and every byte of PREG outside those registers, is as in `s`. -/
structure State.CommitsRegs (s t : State) (r : Nat) (ps : List Poly) : Prop where
  rest : t = { s with preg := t.preg, done := true, eng := .idle }
  written : Memory.polys t.preg r ps.length = some ps
  others : ∀ x, x < 512 * r ∨ 512 * (r + ps.length) ≤ x → Memory.byteAt t.preg x = Memory.byteAt s.preg x

/-- `t` is the state after a commit without error that stores the given byte strings in BUF at their offsets, and nothing
else. Every other field, and every byte of BUF outside those ranges, is as in `s`. -/
structure State.CommitsBytes (s t : State) (ws : List (Nat × Bytes)) : Prop where
  rest : t = { s with buf := t.buf, done := true, eng := .idle }
  written : ∀ w ∈ ws, Memory.load t.buf w.1 w.2.length = some w.2
  others : ∀ x, (∀ w ∈ ws, x < w.1 ∨ w.1 + w.2.length ≤ x) → Memory.byteAt t.buf x = Memory.byteAt s.buf x

/-- The state after a commit without error that writes no storage: RES is `v`. -/
def State.commitsRes (s : State) (v : Nat) : State := { s with res := BitVec.ofNat 32 v, done := true, eng := .idle }

/-- The state after a commit without error that writes nothing. -/
def State.commitsNothing (s : State) : State := { s with done := true, eng := .idle }

/-- The state after a command that ends with an error (R303), in full. -/
def State.endsWith (s : State) (c : CmdError) : State := { s with done := true, err := true, ecode := some c, eng := .idle }

/-- The host does nothing more: its line is `halt`, or it is past the last (R125). -/
def State.HostHalted (s : State) : Prop := s.host.prog[s.host.pos]? = none ∨ s.host.prog[s.host.pos]? = some .halt

/-! ### The arithmetic of the laws -/

/-- The number of ones among the low `n` bits of `v` (the glossary's CBD, R17). -/
def onesBelow : Nat → Nat → Nat
  | 0, _ => 0
  | n + 1, v => v % 2 + onesBelow n (v / 2)

/-- The 16-bit value of coefficient `c`. -/
def coeffNat (p : Poly) (c : Nat) : Nat := (p.getD c 0).toNat

/-- The reversal of the low `n` bits of `i` (R160). -/
def bitReverse : Nat → Nat → Nat
  | 0, _ => 0
  | n + 1, i => i % 2 * 2 ^ n + bitReverse n (i / 2)

/-- Σ_j p[j]·x^j (R167). -/
def evalPoly (x : Nat) : Poly → Nat
  | [] => 0
  | c :: p => c.toNat + x * evalPoly x p

end Sys2Proof.Machine
end

