-- ==== Sys2Proof/Certificates/Slice0/Obligations.lean ====
section
/-! DEFINITION. The statements about the machine. Each docstring names the rules of spec/ it formalises, and the log entry where
it rests on a choice of the model. -/

open Sys2Proof Sys2Proof.Machine

/-! ### The whole machine -/

/-- Every step keeps the invariant: storage in canonical form inside PREG and BUF, ERR exactly with a code, DONE and ERR clear
while BUSY, CMD the word of the running command, RES below 2^16 (R35, R37, R39, R40, R51, R52, R84, R304). The canonical form
of storage is the model's own (log entry 6). -/
def Obligations.EveryStepKeepsTheInvariant : Prop :=
  ∀ s t : State, s.Inv → step s = .next t → t.Inv

/-- The state after reset meets the invariant (R56). -/
def Obligations.ResetMeetsTheInvariant : Prop := State.reset.Inv

/-- What reset leaves: the hardware-reset column of R56 in `State.reset`, and after a pulse of `rst` in any state (R340). The
host's own registers and program (log entry 1) and the draw counter (log entry 4) are the model's and are kept. -/
def Obligations.ResetLeavesTheTabledValues : Prop :=
  (State.reset.csrRead 0x00 = 0x4B594231 ∧ State.reset.ie = false ∧ State.reset.csrRead 0x08 = 0 ∧
    State.reset.csrRead 0x0C = 3 ∧ State.reset.cmd = 0 ∧ State.reset.arg = 0 ∧ State.reset.res = 0 ∧
    State.reset.keylen = 0 ∧ State.reset.ctlen = 0 ∧ State.reset.csrRead 0x24 = 0 ∧ State.reset.csrRead 0x28 = 0 ∧
    State.reset.csrRead 0x2C = 0 ∧ State.reset.eng = .idle ∧ State.reset.irq = false ∧
    (∀ x, Memory.byteAt State.reset.preg x = none) ∧ (∀ x, Memory.byteAt State.reset.buf x = none)) ∧
  ∀ s : State, s.hardReset = { State.reset with host := s.host, draws := s.draws }

/-- A step of a BUSY engine with no host step left (the model's count: log entry 3) runs the command its snapshot's word decodes
to, and a word that is no command ends with ILLEGAL_OPCODE (R52, R302); the placement `withFetchWord` makes is run by the
very next step (log entry 2). -/
def Obligations.StepRunsTheDecodedCommand : Prop :=
  (∀ (s : State) (sn : Snapshot) (i : Instr), s.eng = .busy sn 0 → decode sn.word = .ok i → step s = exec i s) ∧
  (∀ (s : State) (sn : Snapshot) (e : DecodeError), s.eng = .busy sn 0 → decode sn.word = .error e →
    step s = .next (s.endsWith .illegalOpcode)) ∧
  (∀ (s : State) (nbits w : Nat) (i : Instr), decode (tableWord nbits w) = .ok i →
    step (s.withFetchWord nbits w) = exec i (s.withFetchWord nbits w))

/-- The host's turn (R125, R96): an IDLE engine leaves the step to the host's line, a BUSY one too while host steps are left
(log entry 3). The lines li, addi, beq, bne and the four-byte write and read of a register do what R125 says and move to the
next line or to their target. The model's own choices: that andi, whose effect R125 does not write out, is the bitwise AND of 32
bits (log entry 28), that a line which accesses nothing (li, addi, andi, beq, bne, halt)
is a step of its own and uses up one host step of a running command, where R96 and R312 count accesses and commits alone (log
entry 25), that a target is the index of a line (log entry 20), byte and halfword accesses, a constant value in a write and WAIT as
one line (log entry 1), the line rst, which is none of R125 (log entry 13), and the step at halt, which leaves the state as it
is (log entry 16). -/
def Obligations.HostLinesRun : Prop :=
  (∀ s : State, s.eng = .idle → step s = s.hostStep) ∧
  (∀ (s : State) (sn : Snapshot) (n : Nat), s.eng = .busy sn (n + 1) → step s = { s with eng := .busy sn n }.hostStep) ∧
  ∀ (s : State) (l : Line), s.host.prog[s.host.pos]? = some l →
    (∀ h imm, l = .li h imm →
      s.hostStep = .next { s with host := { s.host with regs := s.host.regs.set h.val imm, pos := s.host.pos + 1 } }) ∧
    (∀ h h' imm, l = .addi h h' imm →
      s.hostStep = .next { s with host := { s.host with
        regs := s.host.regs.set h.val (s.host.regs[h'.val] + imm), pos := s.host.pos + 1 } }) ∧
    (∀ h h' imm, l = .andi h h' imm →
      s.hostStep = .next { s with host := { s.host with
        regs := s.host.regs.set h.val (s.host.regs[h'.val] &&& imm), pos := s.host.pos + 1 } }) ∧
    (∀ h imm target, l = .beq h imm target →
      s.hostStep = .next { s with host := { s.host with
        pos := if s.host.regs[h.val] = imm then target else s.host.pos + 1 } }) ∧
    (∀ h imm target, l = .bne h imm target →
      s.hostStep = .next { s with host := { s.host with
        pos := if s.host.regs[h.val] = imm then s.host.pos + 1 else target } }) ∧
    (∀ a sz v out, l = .write a sz v →
      s.hostWrite (match a with | .const x => x | .reg h => (s.host.regs[h.val]).toNat) sz
        (match v with | .reg h => s.host.regs[h.val] | .imm x => x) = out →
      s.hostStep = match out with
        | .ok t => .next { t with host := { t.host with pos := t.host.pos + 1 } }
        | .error f => .fault f) ∧
    (∀ h a sz out, l = .read h a sz →
      s.hostRead (match a with | .const x => x | .reg h' => (s.host.regs[h'.val]).toNat) sz = out →
      s.hostStep = match out with
        | .ok r => .next { r.after with host := { r.after.host with
            regs := r.after.host.regs.set h.val r.value, pos := r.after.host.pos + 1 } }
        | .error f => .fault f) ∧
    (l = .wait → s.hostStep = .next { s with host := { s.host with
      regs := s.host.regs.set 7 s.statusWord, pos := if s.isBusy then s.host.pos else s.host.pos + 1 } }) ∧
    (l = .rst → s.hostStep = .next { s.hardReset with host := { s.host with pos := s.host.pos + 1 } }) ∧
    (l = .halt → s.hostStep = .next s)

/-- While the host does nothing more, a command whose snapshot has `n` host steps left is committed by exactly the step after
them. That the commit comes is R52 ("the commit happens eventually") and R360. The rest is the model's: the count of host steps
left, whose size stays open (log entry 3), and that a halted host still takes turns, each a step to the same state that uses up
one of them (log entries 16 and 25). -/
def Obligations.CommandCommitsAfterItsLatency : Prop :=
  ∀ (n : Nat) (s : State) (sn : Snapshot), s.eng = .busy sn n → s.HostHalted →
    Host.Core.run Sys2Proof.core n s = .next { s with eng := .busy sn 0 } ∧
    Host.Core.run Sys2Proof.core (n + 1) s = { s with eng := .busy sn 0 }.commitWord sn.word

/-! ### Encoding -/

/-- No bit of an encoding is dropped: every well-formed command is read back from its word (R112 to R116, R122). -/
def Obligations.DecodeOfEncode : Prop :=
  ∀ i : Instr, i.WellFormed → decode (encode i) = .ok i ∧ decodeTableWord 32 (encode i).toNat = some i

/-- Each word has one meaning: a word that decodes is the encoding of its command, which is well formed (R116, R117,
R122). -/
def Obligations.EncodeOfDecode : Prop :=
  ∀ (w : Word) (i : Instr), decode w = .ok i → i.WellFormed ∧ encode i = w

/-- R117: a word selects an opcode exactly when its masked bits are the opcode's match value; any other word ends with
ILLEGAL_OPCODE and no effect. -/
def Obligations.DecoderMatchesTheMasks : Prop :=
  ∀ w : Word,
    (∀ i, decode w = .ok i → w &&& i.tableMask = i.tableMatch) ∧
    (∀ j : Instr, w &&& j.tableMask = j.tableMatch → ∃ i, decode w = .ok i ∧ i.opcode = j.opcode) ∧
    ((¬ ∃ j : Instr, w &&& j.tableMask = j.tableMatch) → ∀ (s : State) (sn : Snapshot), s.eng = .busy sn 0 → sn.word = w →
      step s = .next (s.endsWith .illegalOpcode))

/-- Words the spec writes out (R122, R142, R225, R243, R254, R273) decode to the commands it writes beside them. -/
def Obligations.WordsOfTheSpecDecode : Prop :=
  decode 0x00000120 = .ok (.ntt 1 0) ∧ decode 0x00040230 = .ok (.padd 2 0 1) ∧
  decode 0x03340240 = .ok (.tobytes 2 0x19A0) ∧ decode 0x03341070 = .ok (.genmatrix 16 0x19A0) ∧
  decode 0x00100863 = .ok (.vadd 8 0 4) ∧ decode 0x00000010 = .ok .montr ∧ decode 0x00000081 = .ok .cpaEnc ∧
  decode 0x00000091 = .ok .kemEncaps

/-- R119: the opcodes outside the table end with ILLEGAL_OPCODE and no other effect, and NOP is the word 0 alone. -/
def Obligations.UnlistedOpcodesAreIllegal : Prop :=
  (∀ (s : State) (sn : Snapshot), s.eng = .busy sn 0 →
    (∃ r ∈ [(0x01, 0x0F), (0x13, 0x1F), (0x22, 0x2F), (0x32, 0x3F), (0x48, 0x4F), (0x52, 0x5F), (0x68, 0x6F), (0x71, 0x7F),
        (0x83, 0x8F), (0x94, 0xFF)], r.1 ≤ sn.word.toNat % 256 ∧ sn.word.toNat % 256 ≤ r.2) →
    step s = .next (s.endsWith .illegalOpcode)) ∧
  ∀ w : Word, decode w = .ok .nop ↔ w = 0

/-! ### The control and status registers -/

/-- Acceptance (R51): a CMD write while IDLE takes the word and the snapshot, clears DONE, ERR and ECODE, and checks nothing.
BUF and PREG are not copied: they cannot change while BUSY (log entry 8). -/
def Obligations.AcceptanceTakesTheSnapshot : Prop :=
  ∀ (s : State) (w : Word), s.eng = .idle →
    ∃ n, s.hostWrite 0x0010 .word w = .ok
      { s with
        cmd := w, done := false, err := false, ecode := none, draws := s.draws + 1
        eng := .busy { word := w, set := s.set, arg := s.arg, keylen := s.keylen, ctlen := s.ctlen } n }

/-- R53: a CMD write while BUSY is dropped and sets OVR. -/
def Obligations.DroppedCommandSetsOvr : Prop :=
  ∀ (s : State) (sn : Snapshot) (n : Nat) (w : Word), s.eng = .busy sn n →
    s.hostWrite 0x0010 .word w = .ok { s with ovr := true }

/-- Rests on R54: acceptance takes the snapshot; the running command's effect does not depend on what the CSRs hold now; and
every step while it runs either keeps its snapshot, BUF and PREG, or makes the engine IDLE (a reset). The model's choices: BUF
and PREG are not copied into the snapshot, so the first and third clauses stand for it (log entry 8, which R54 allows), and
each host step takes exactly one off the count of those left (log entry 3). -/
def Obligations.CommandsUseTheirSnapshot : Prop :=
  (∀ (s : State) (w : Word), s.eng = .idle → ∃ n t, s.hostWrite 0x0010 .word w = .ok t ∧ t.buf = s.buf ∧ t.preg = s.preg ∧
    t.eng = .busy { word := w, set := s.set, arg := s.arg, keylen := s.keylen, ctlen := s.ctlen } n) ∧
  (∀ (i : Instr) (s : State) (sn : Snapshot) (n : Nat) (ie ovr : Bool) (set : ParamSet) (cmd arg : Word)
      (keylen ctlen : BitVec 16), s.eng = .busy sn n →
    exec i { s with ie := ie, ovr := ovr, set := set, cmd := cmd, arg := arg, keylen := keylen, ctlen := ctlen } =
      match exec i s with
      | .next t =>
        .next { t with ie := ie, ovr := ovr, set := set, cmd := cmd, arg := arg, keylen := keylen, ctlen := ctlen }
      | .fault f => .fault f
      | .refused r => .refused r) ∧
  ∀ (s t : State) (sn : Snapshot) (n : Nat), s.eng = .busy sn (n + 1) → step s = .next t →
    (t.eng = .busy sn n ∧ t.buf = s.buf ∧ t.preg = s.preg) ∨ t.eng = .idle

/-- STATUS (R35, R301): what a read shows, bit by bit, and what a write clears. -/
def Obligations.StatusReadsAndClears : Prop :=
  (∀ s : State, ∃ v, s.hostRead 0x0008 .word = .ok { value := v, after := s } ∧
    v.getLsbD 0 = s.isBusy ∧ v.getLsbD 1 = s.done ∧ v.getLsbD 2 = s.err ∧ v.getLsbD 3 = s.ovr ∧
    v.toNat / 2 ^ 4 % 2 ^ 4 = 0 ∧ v.toNat / 2 ^ 12 = 0 ∧
    v.toNat / 2 ^ 8 % 2 ^ 4 =
      (match s.ecode with
      | none => 0
      | some .illegalOpcode => 1
      | some .illegalParam => 2
      | some .illegalOperand => 3
      | some .invalidKeySize => 4
      | some .invalidPrivateKey => 5
      | some .invalidCiphertextSize => 6)) ∧
  ∀ (s : State) (v : Word), s.hostWrite 0x0008 .word v = .ok
    { s with
      done := s.done && !v.getLsbD 1, err := s.err && !v.getLsbD 2, ovr := s.ovr && !v.getLsbD 3
      ecode := if v.getLsbD 2 then none else s.ecode }

/-- R45, with R36 and R7: after a PARAM write, PARAM, PKSIZE, SKSIZE and CTSIZE read the set's row at once, and the size
registers ignore writes. -/
def Obligations.ParamSelectsTheSizes : Prop :=
  (∀ (s : State) (v : Word), ∃ t, s.hostWrite 0x000C .word v = .ok t ∧ t = { s with set := t.set } ∧
    ∀ row ∈ [(0, 2, 5, 736, 1632, 800), (1, 3, 4, 1088, 2400, 1152), (2, 4, 3, 1440, 3168, 1504), (3, 0, 0, 0, 0, 0)],
      v.toNat % 4 = row.1 →
      t.hostRead 0x000C .word =
        .ok { value := BitVec.ofNat 32 (row.1 + 2 ^ 4 * row.2.1 + 2 ^ 8 * row.2.2.1), after := t } ∧
      t.hostRead 0x0024 .word = .ok { value := BitVec.ofNat 32 row.2.2.2.1, after := t } ∧
      t.hostRead 0x0028 .word = .ok { value := BitVec.ofNat 32 row.2.2.2.2.1, after := t } ∧
      t.hostRead 0x002C .word = .ok { value := BitVec.ofNat 32 row.2.2.2.2.2, after := t }) ∧
  ∀ (s : State) (v : Word), s.hostWrite 0x0024 .word v = .ok s ∧ s.hostWrite 0x0028 .word v = .ok s ∧
    s.hostWrite 0x002C .word v = .ok s

/-- The other CSRs (R33, R34, R37 to R39, R43, R44, R46): what is written reads back, in the bits that exist; read-only and
reserved offsets ignore writes, and reserved ones read 0. -/
def Obligations.ControlRegistersReadBack : Prop :=
  ∀ (s : State) (v : Word),
    (s.hostRead 0x0000 .word = .ok { value := 0x4B594231, after := s } ∧ s.hostWrite 0x0000 .word v = .ok s) ∧
    (v.getLsbD 1 = false → s.hostWrite 0x0004 .word v = .ok { s with ie := v.getLsbD 0 }) ∧
    s.hostRead 0x0004 .word = .ok { value := if s.ie then 1 else 0, after := s } ∧
    s.hostRead 0x0010 .word = .ok { value := s.cmd, after := s } ∧
    (s.hostWrite 0x0014 .word v = .ok { s with arg := v } ∧
      s.hostRead 0x0014 .word = .ok { value := s.arg, after := s }) ∧
    (s.hostWrite 0x0018 .word v = .ok s ∧ s.hostRead 0x0018 .word = .ok { value := s.res, after := s }) ∧
    (∃ n, s.hostWrite 0x001C .word v = .ok { s with keylen := n } ∧ n.toNat = v.toNat % 2 ^ 16) ∧
    s.hostRead 0x001C .word = .ok { value := BitVec.ofNat 32 s.keylen.toNat, after := s } ∧
    (∃ n, s.hostWrite 0x0020 .word v = .ok { s with ctlen := n } ∧ n.toNat = v.toNat % 2 ^ 16) ∧
    s.hostRead 0x0020 .word = .ok { value := BitVec.ofNat 32 s.ctlen.toNat, after := s } ∧
    ∀ a, 0x30 ≤ a → a ≤ 0xFC → a % 4 = 0 →
      s.hostRead a .word = .ok { value := 0, after := s } ∧ s.hostWrite a .word v = .ok s

/-- The interrupt output (R48, R310): it is IE AND DONE; every commit raises it when IE is 1, with or without an error, that of
a word which is no command included;
acceptance, the W1C write of DONE and clearing IE lower it; setting IE raises it exactly when DONE is 1; a dropped command
leaves it. -/
def Obligations.InterruptIsEnabledCompletion : Prop :=
  (∀ s : State, s.irq = true ↔ s.ie = true ∧ s.done = true) ∧
  (∀ (i : Instr) (s t : State), exec i s = .next t → t.irq = s.ie) ∧
  (∀ (s t : State) (w : Word), s.commitWord w = .next t → t.irq = s.ie) ∧
  (∀ (s t : State) (w : Word), s.eng = .idle → s.hostWrite 0x0010 .word w = .ok t → t.irq = false) ∧
  (∀ (s t : State) (w : Word), s.isBusy = true → s.hostWrite 0x0010 .word w = .ok t → t.irq = s.irq) ∧
  (∀ (s t : State) (w : Word), w.getLsbD 1 = true → s.hostWrite 0x0008 .word w = .ok t → t.irq = false) ∧
  (∀ (s t : State) (w : Word), w.getLsbD 0 = false → s.hostWrite 0x0004 .word w = .ok t → t.irq = false) ∧
  ∀ (s t : State) (w : Word), w.getLsbD 0 = true → w.getLsbD 1 = false → s.hostWrite 0x0004 .word w = .ok t →
    t.irq = s.done

/-- R342: a CTRL write with SRST aborts the command in progress and puts the registers at their reset values in that one
step; SRST reads 0 after it. PREG and BUF are those of the abort (R343). -/
def Obligations.SoftResetClearsTheRegisters : Prop :=
  ∀ (s : State) (v : Word), v.getLsbD 1 = true →
    ∃ t, s.hostWrite 0x0004 .word v = .ok t ∧
      t = { s with
        ie := false, done := false, err := false, ovr := false, ecode := none, set := .unconfigured, cmd := 0, arg := 0
        res := 0, keylen := 0, ctlen := 0, eng := .idle, preg := s.abort.preg, buf := s.abort.buf } ∧
      (s.eng = .idle → t.preg = s.preg ∧ t.buf = s.buf) ∧ t.hostRead 0x0004 .word = .ok { value := 0, after := t }

/-- R343: an abort makes the destinations of the command undefined and leaves every other byte; a command that would end with
an error has none. What the command would change is among the bytes that become undefined. Where the command's own check
reads undefined bytes it counts as one that would write (log entry 11). -/
def Obligations.AbortUndefinesTheDestinations : Prop :=
  ∀ (s : State) (sn : Snapshot) (n : Nat), s.eng = .busy sn n →
    (∀ e, decode sn.word = .error e → s.abort = s) ∧
    ∀ i, decode sn.word = .ok i →
      (∀ c, s.errorOf i = some c → s.abort = s) ∧
      (s.errorOf i = none →
        s.abort = { s with preg := s.abort.preg, buf := s.abort.buf } ∧
        (∀ x, ((∃ r m, i.pregDest sn.set.k = some (r, m) ∧ 512 * r ≤ x ∧ x < 512 * (r + m)) →
            Memory.byteAt s.abort.preg x = none) ∧
          ((∀ r m, i.pregDest sn.set.k = some (r, m) → x < 512 * r ∨ 512 * (r + m) ≤ x) →
            Memory.byteAt s.abort.preg x = Memory.byteAt s.preg x)) ∧
        (∀ x, ((∃ d ∈ i.bufDest sn.set.k, d.1 ≤ x ∧ x < d.1 + d.2) → Memory.byteAt s.abort.buf x = none) ∧
          ((∀ d ∈ i.bufDest sn.set.k, x < d.1 ∨ d.1 + d.2 ≤ x) →
            Memory.byteAt s.abort.buf x = Memory.byteAt s.buf x)) ∧
        ∀ t, exec i s = .next t → ∀ x,
          (Memory.byteAt t.preg x ≠ Memory.byteAt s.preg x → Memory.byteAt s.abort.preg x = none) ∧
          (Memory.byteAt t.buf x ≠ Memory.byteAt s.buf x → Memory.byteAt s.abort.buf x = none))

/-! ### The bus -/

/-- Bus errors (R82, R83, R88, R89, R92): a misaligned access, an access to an unmapped address and a narrow access to a CSR
stop as faults, reads and writes alike (the names and their order: log entry 12; that an address of 0x10000 or more, past the
16 bits of R80, is unmapped: log entry 17); an aligned word read of a CSR always answers, and changes nothing (R90). -/
def Obligations.BusErrorsStop : Prop :=
  ∀ (s : State) (a : Nat) (sz : Size) (v : Word),
    (a % sz.bytes ≠ 0 → s.hostRead a sz = .error .misaligned ∧ s.hostWrite a sz v = .error .misaligned) ∧
    (a % sz.bytes = 0 → (0x0100 ≤ a ∧ a < 0x2000 ∨ 0x4000 ≤ a ∧ a < 0x8000 ∨ 0xC000 ≤ a) →
      s.hostRead a sz = .error .unmapped ∧ s.hostWrite a sz v = .error .unmapped) ∧
    (a % sz.bytes = 0 → a < 0x0100 → sz ≠ .word →
      s.hostRead a sz = .error .narrowCsr ∧ s.hostWrite a sz v = .error .narrowCsr) ∧
    (a % 4 = 0 → a < 0x0100 → ∃ w, s.hostRead a .word = .ok { value := w, after := s })

/-- While BUSY, a host write to BUF or PREG stops as a fault (R95), and a read gives a free value that fits the access and
changes nothing but the draw counter (R94, log entry 5). -/
def Obligations.BusyStorageAccesses : Prop :=
  ∀ (s : State) (sn : Snapshot) (n a : Nat) (sz : Size) (v : Word), s.eng = .busy sn n → a % sz.bytes = 0 →
    (0x2000 ≤ a ∧ a < 0x4000 ∨ 0x8000 ≤ a ∧ a < 0xC000) →
    s.hostWrite a sz v = .error .busyWrite ∧
    ∃ x : Word, s.hostRead a sz = .ok { value := x, after := { s with draws := s.draws + 1 } } ∧ x.toNat < 2 ^ (8 * sz.bytes)

/-- While IDLE, a host read returns what the host wrote there, and every access that does not meet the written bytes reads as
before (R92, R96). In PREG the write is of whole coefficients. -/
def Obligations.HostReadsBackWhatItWrote : Prop :=
  ∀ (s : State) (a : Nat) (sz : Size) (v : Word), s.eng = .idle → a % sz.bytes = 0 →
    (0x2000 ≤ a ∧ a < 0x4000 ∨ 0x8000 ≤ a ∧ a < 0xC000 ∧ sz ≠ .byte) →
    ∃ t, s.hostWrite a sz v = .ok t ∧
      t.hostRead a sz = .ok { value := BitVec.ofNat 32 (v.toNat % 2 ^ (8 * sz.bytes)), after := t } ∧
      ∀ (a' : Nat) (sz' : Size), a' + sz'.bytes ≤ a ∨ a + sz.bytes ≤ a' →
        t.hostRead a' sz' = (s.hostRead a' sz').map fun r => { r with after := t }

/-- The bus is little-endian (R87): a word read equals the combination of the four byte reads at its addresses. -/
def Obligations.WordReadIsFourByteReads : Prop :=
  ∀ (s : State) (a : Nat) (b0 b1 b2 b3 : Word), s.eng = .idle → a % 4 = 0 →
    (0x2000 ≤ a ∧ a < 0x4000 ∨ 0x8000 ≤ a ∧ a < 0xC000) →
    s.hostRead a .byte = .ok { value := b0, after := s } → s.hostRead (a + 1) .byte = .ok { value := b1, after := s } →
    s.hostRead (a + 2) .byte = .ok { value := b2, after := s } → s.hostRead (a + 3) .byte = .ok { value := b3, after := s } →
    s.hostRead a .word = .ok
      { value := BitVec.ofNat 32 (b0.toNat + 2 ^ 8 * b1.toNat + 2 ^ 16 * b2.toNat + 2 ^ 24 * b3.toNat), after := s }

/-- R86: where a coefficient stands in the PREG window, what a word read of two of them returns, and what a byte write does
to a coefficient. -/
def Obligations.PregWindowHoldsTheCoefficients : Prop :=
  (∀ (s : State) (r m : Nat) (p : Poly), s.eng = .idle → r < 32 → m < 128 → Memory.poly s.preg r = some p →
    s.hostRead (0x8000 + 512 * r + 4 * m) .word = .ok
      { value := BitVec.ofNat 32 (coeffNat p (2 * m) + 2 ^ 16 * coeffNat p (2 * m + 1)), after := s }) ∧
  ∀ (s : State) (r c b : Nat) (v : Word), s.eng = .idle → r < 32 → c < 256 → b < 2 →
    ∃ t, s.hostWrite (0x8000 + 512 * r + 2 * c + b) .byte v = .ok t ∧ t = { s with preg := t.preg } ∧
      Memory.byteAt t.preg (512 * r + 2 * c + b) = some (BitVec.ofNat 8 v.toNat) ∧
      (∀ x, x ≠ 512 * r + 2 * c + b → Memory.byteAt t.preg x = Memory.byteAt s.preg x) ∧
      (∀ p, Memory.poly s.preg r = some p → ∃ p', Memory.poly t.preg r = some p' ∧
        (∀ c' < 256, c' ≠ c → coeffNat p' c' = coeffNat p c') ∧
        coeffNat p' c =
          if b = 0 then coeffNat p c / 2 ^ 8 * 2 ^ 8 + v.toNat % 2 ^ 8 else coeffNat p c % 2 ^ 8 + 2 ^ 8 * (v.toNat % 2 ^ 8)) ∧
      (Memory.byteAt s.preg (512 * r + 2 * c + (1 - b)) = none →
        Memory.byteAt t.preg (512 * r + 2 * c + (1 - b)) = none ∧ Memory.poly t.preg r = none ∧
        t.hostRead (0x8000 + 512 * r + 2 * c) .half = .error .undefinedPreg)

/-! ### Errors -/

/-- R303, seen in STATUS: when the commit step of a command accepted without a code leaves one, the state is the state before it
plus DONE, ERR and ECODE, with the engine IDLE; when it leaves none, ERR is 0 and DONE is 1 (R304). -/
def Obligations.ErrorsHaveNoOtherEffect : Prop :=
  ∀ (s t : State) (sn : Snapshot), s.eng = .busy sn 0 → s.ecode = none → s.err = false → step s = .next t →
    (∀ c, t.ecode = some c → t = { s with done := true, err := true, ecode := some c, eng := .idle }) ∧
    (t.ecode = none → t.err = false ∧ t.done = true ∧ t.eng = .idle)

/-- R301 code 2: with PARAM.SET unconfigured, each command that needs k or η ends with ILLEGAL_PARAM, whatever its operands
(R118, R302). -/
def Obligations.UnconfiguredSetIsIllegalParam : Prop :=
  ∀ (s : State) (a b c o : Nat), s.snap.set = .unconfigured →
    ∀ i ∈ [Instr.cbd a o, .getnoise a o, .pacc a b c, .vntt a b, .vinvntt a b, .vadd a b c, .vtobytes a o, .vfrombytes a o,
        .vcompress11 a o, .vdecompress11 a o, .genmatrix a o, .cpaKeypair, .cpaEnc, .cpaDec, .kemKeygen, .kemEncaps,
        .kemDecaps, .kemSkcheck],
      exec i s = .next (s.endsWith .illegalParam)

/-- R301 code 3 with the ranges of R118: a register group that passes P31 or a BUF range that passes offset 8191 ends the
command with ILLEGAL_OPERAND. -/
def Obligations.OperandRangesAreChecked : Prop :=
  ∀ (s : State) (a b c o : Nat),
    (8192 < o + 416 → ∀ i ∈ [Instr.tobytes a o, .frombytes a o], exec i s = .next (s.endsWith .illegalOperand)) ∧
    (8192 < o + 96 → ∀ i ∈ [Instr.compress3 a o, .decompress3 a o], exec i s = .next (s.endsWith .illegalOperand)) ∧
    (8192 < o + 352 → ∀ i ∈ [Instr.compress11 a o, .decompress11 a o], exec i s = .next (s.endsWith .illegalOperand)) ∧
    (8192 < o + 32 → ∀ i ∈ [Instr.frommsg a o, .tomsg a o], exec i s = .next (s.endsWith .illegalOperand)) ∧
    (s.snap.set ≠ .unconfigured →
      (8192 < o + 64 * s.snap.set.eta → exec (.cbd a o) s = .next (s.endsWith .illegalOperand)) ∧
      (8192 < o + 32 → exec (.getnoise a o) s = .next (s.endsWith .illegalOperand)) ∧
      (32 < b + s.snap.set.k ∨ 32 < c + s.snap.set.k → exec (.pacc a b c) s = .next (s.endsWith .illegalOperand)) ∧
      (32 < a + s.snap.set.k ∨ 32 < b + s.snap.set.k →
        ∀ i ∈ [Instr.vntt a b, .vinvntt a b], exec i s = .next (s.endsWith .illegalOperand)) ∧
      (32 < a + s.snap.set.k ∨ 32 < b + s.snap.set.k ∨ 32 < c + s.snap.set.k →
        exec (.vadd a b c) s = .next (s.endsWith .illegalOperand)) ∧
      (32 < a + s.snap.set.k ∨ 8192 < o + 416 * s.snap.set.k →
        ∀ i ∈ [Instr.vtobytes a o, .vfrombytes a o], exec i s = .next (s.endsWith .illegalOperand)) ∧
      (32 < a + s.snap.set.k ∨ 8192 < o + 352 * s.snap.set.k →
        ∀ i ∈ [Instr.vcompress11 a o, .vdecompress11 a o], exec i s = .next (s.endsWith .illegalOperand)) ∧
      (32 < a + s.snap.set.k * s.snap.set.k ∨ 8192 < o + 32 →
        exec (.genmatrix a o) s = .next (s.endsWith .illegalOperand)))

/-- R301 codes 4, 5 and 6 in the order of R281 and R302: the declared lengths, then the hash embedded in the private key. -/
def Obligations.KeysAndCiphertextsAreChecked : Prop :=
  ∀ s : State, s.snap.set ≠ .unconfigured →
    (s.snap.keylen.toNat ≠ s.snap.set.pkSize → exec .kemEncaps s = .next (s.endsWith .invalidKeySize)) ∧
    (s.snap.keylen.toNat ≠ s.snap.set.skSize →
      exec .kemDecaps s = .next (s.endsWith .invalidKeySize) ∧ exec .kemSkcheck s = .next (s.endsWith .invalidKeySize)) ∧
    (s.snap.keylen.toNat = s.snap.set.skSize →
      (s.snap.ctlen.toNat ≠ s.snap.set.ctSize → exec .kemDecaps s = .next (s.endsWith .invalidCiphertextSize)) ∧
      ∀ sk, Memory.load s.buf 0x0600 (768 * s.snap.set.k + 96) = some sk →
        (sk.drop (768 * s.snap.set.k + 32)).take 32 ≠
          sponge.sha3_256 ((sk.drop (416 * s.snap.set.k)).take (352 * s.snap.set.k + 32)) →
        exec .kemSkcheck s = .next (s.endsWith .invalidPrivateKey) ∧
        (s.snap.ctlen.toNat = s.snap.set.ctSize → exec .kemDecaps s = .next (s.endsWith .invalidPrivateKey)))

/-- R41, R47, R91 and R305: every command that passes its checks (R302) and reads an undefined coefficient or byte stops as a
fault, for each of the thirty commands that read PREG or BUF and each of their operands. `Memory.load`, `Memory.poly` and
`Memory.polys` answer none exactly when a byte of theirs is undefined (`Memory.load_eq_none_iff` and its kin in
Laws/Memory.lean). That the checks come before this fault, and that the check of the private key reads all of it, is log
entry 21. -/
def Obligations.UndefinedOperandsFault : Prop :=
  ∀ (s : State) (a b c o : Nat),
    (Memory.poly s.preg b = none →
      ∀ i ∈ [Instr.ntt a b, .invntt a b, .padd a b c, .psub a b c], exec i s = .fault .undefinedPreg) ∧
    (Memory.poly s.preg c = none → ∀ i ∈ [Instr.padd a b c, .psub a b c], exec i s = .fault .undefinedPreg) ∧
    (o + 416 ≤ 8192 → (Memory.poly s.preg a = none → exec (.tobytes a o) s = .fault .undefinedPreg) ∧
      (Memory.load s.buf o 416 = none → exec (.frombytes a o) s = .fault .undefinedBuf)) ∧
    (o + 96 ≤ 8192 → (Memory.poly s.preg a = none → exec (.compress3 a o) s = .fault .undefinedPreg) ∧
      (Memory.load s.buf o 96 = none → exec (.decompress3 a o) s = .fault .undefinedBuf)) ∧
    (o + 352 ≤ 8192 → (Memory.poly s.preg a = none → exec (.compress11 a o) s = .fault .undefinedPreg) ∧
      (Memory.load s.buf o 352 = none → exec (.decompress11 a o) s = .fault .undefinedBuf)) ∧
    (o + 32 ≤ 8192 → (Memory.poly s.preg a = none → exec (.tomsg a o) s = .fault .undefinedPreg) ∧
      (Memory.load s.buf o 32 = none → exec (.frommsg a o) s = .fault .undefinedBuf)) ∧
    (s.snap.set ≠ .unconfigured →
      (o + 64 * s.snap.set.eta ≤ 8192 → Memory.load s.buf o (64 * s.snap.set.eta) = none →
        exec (.cbd a o) s = .fault .undefinedBuf) ∧
      (o + 32 ≤ 8192 → Memory.load s.buf o 32 = none →
        exec (.getnoise a o) s = .fault .undefinedBuf ∧
        (a + s.snap.set.k * s.snap.set.k ≤ 32 → exec (.genmatrix a o) s = .fault .undefinedBuf)) ∧
      (b + s.snap.set.k ≤ 32 → c + s.snap.set.k ≤ 32 →
        Memory.polys s.preg b s.snap.set.k = none ∨ Memory.polys s.preg c s.snap.set.k = none →
        exec (.pacc a b c) s = .fault .undefinedPreg ∧
        (a + s.snap.set.k ≤ 32 → exec (.vadd a b c) s = .fault .undefinedPreg)) ∧
      (a + s.snap.set.k ≤ 32 → b + s.snap.set.k ≤ 32 → Memory.polys s.preg b s.snap.set.k = none →
        ∀ i ∈ [Instr.vntt a b, .vinvntt a b], exec i s = .fault .undefinedPreg) ∧
      (a + s.snap.set.k ≤ 32 → o + 416 * s.snap.set.k ≤ 8192 →
        (Memory.polys s.preg a s.snap.set.k = none → exec (.vtobytes a o) s = .fault .undefinedPreg) ∧
        (Memory.load s.buf o (416 * s.snap.set.k) = none → exec (.vfrombytes a o) s = .fault .undefinedBuf)) ∧
      (a + s.snap.set.k ≤ 32 → o + 352 * s.snap.set.k ≤ 8192 →
        (Memory.polys s.preg a s.snap.set.k = none → exec (.vcompress11 a o) s = .fault .undefinedPreg) ∧
        (Memory.load s.buf o (352 * s.snap.set.k) = none → exec (.vdecompress11 a o) s = .fault .undefinedBuf)) ∧
      (Memory.load s.buf 0x1920 32 = none → exec .cpaKeypair s = .fault .undefinedBuf) ∧
      (Memory.load s.buf 0x1960 32 = none ∨ Memory.load s.buf 0x0000 (352 * s.snap.set.k + 32) = none ∨
          Memory.load s.buf 0x1980 32 = none →
        exec .cpaEnc s = .fault .undefinedBuf) ∧
      (Memory.load s.buf 0x1300 (352 * s.snap.set.k + 96) = none ∨ Memory.load s.buf 0x0600 (416 * s.snap.set.k) = none →
        exec .cpaDec s = .fault .undefinedBuf) ∧
      (Memory.load s.buf 0x1920 32 = none ∨ Memory.load s.buf 0x1940 32 = none →
        exec .kemKeygen s = .fault .undefinedBuf) ∧
      (s.snap.keylen.toNat = s.snap.set.pkSize →
        Memory.load s.buf 0x1920 32 = none ∨ Memory.load s.buf 0x0000 (352 * s.snap.set.k + 32) = none →
        exec .kemEncaps s = .fault .undefinedBuf) ∧
      (s.snap.keylen.toNat = s.snap.set.skSize →
        (Memory.load s.buf 0x0600 (768 * s.snap.set.k + 96) = none →
          exec .kemSkcheck s = .fault .undefinedBuf ∧
          (s.snap.ctlen.toNat = s.snap.set.ctSize → exec .kemDecaps s = .fault .undefinedBuf)) ∧
        ∀ sk, Memory.load s.buf 0x0600 (768 * s.snap.set.k + 96) = some sk →
          (sk.drop (768 * s.snap.set.k + 32)).take 32 =
            sponge.sha3_256 ((sk.drop (416 * s.snap.set.k)).take (352 * s.snap.set.k + 32)) →
          s.snap.ctlen.toNat = s.snap.set.ctSize → Memory.load s.buf 0x1300 (352 * s.snap.set.k + 96) = none →
          exec .kemDecaps s = .fault .undefinedBuf))

/-! ### What each command does -/

/-- The frame of every command: what it leaves unchanged when it ends, with or without an error (R52, R303, R355). DONE is set
and the engine is IDLE; IE, OVR, PARAM, CMD, ARG, KEYLEN, CTLEN, the host and the model's draw counter are unchanged; RES
changes only by MONTR, BARR and FREEZE; PREG and BUF change only inside the command's destinations. -/
def Obligations.CommandsChangeOnlyTheirDestinations : Prop :=
  ∀ (i : Instr) (s t : State), exec i s = .next t →
    t.done = true ∧ t.eng = .idle ∧ t.ie = s.ie ∧ t.ovr = s.ovr ∧ t.set = s.set ∧ t.cmd = s.cmd ∧ t.arg = s.arg ∧
    t.keylen = s.keylen ∧ t.ctlen = s.ctlen ∧ t.host = s.host ∧ t.draws = s.draws ∧
    (i ≠ .montr → i ≠ .barr → i ≠ .freeze → t.res = s.res) ∧
    (∀ x, (∀ r m, i.pregDest s.snap.set.k = some (r, m) → x < 512 * r ∨ 512 * (r + m) ≤ x) →
      Memory.byteAt t.preg x = Memory.byteAt s.preg x) ∧
    (∀ x, (∀ d ∈ i.bufDest s.snap.set.k, x < d.1 ∨ d.1 + d.2 ≤ x) → Memory.byteAt t.buf x = Memory.byteAt s.buf x)

/-- NOP, MONTR, BARR and FREEZE complete in every state (R142, R144, R146, R147): the exact value of RES, and nothing else
but DONE. -/
def Obligations.ScalarCommandsComplete : Prop :=
  ∀ s : State,
    exec .nop s = .next s.commitsNothing ∧
    exec .montr s = .next (s.commitsRes
      ((s.snap.arg.toNat + s.snap.arg.toNat * 7679 % 2 ^ 18 * 7681) % 2 ^ 32 / 2 ^ 18)) ∧
    exec .barr s = .next (s.commitsRes (s.snap.arg.toNat % 2 ^ 16 - s.snap.arg.toNat % 2 ^ 16 / 2 ^ 13 * 7681)) ∧
    exec .freeze s = .next (s.commitsRes (s.snap.arg.toNat % 2 ^ 16 % 7681))

/-- NTT and INVNTT complete for every defined source register (R164, R166), and write the transform of its old value
(R55). -/
def Obligations.TransformsComplete : Prop :=
  ∀ (s : State) (rd rs1 : Nat) (p : Poly), Memory.poly s.preg rs1 = some p →
    (∃ t, exec (.ntt rd rs1) s = .next t ∧ s.CommitsRegs t rd [nttF p]) ∧
    (∃ t, exec (.invntt rd rs1) s = .next t ∧ s.CommitsRegs t rd [invnttF p])

/-- PADD and PSUB complete for every two defined registers (R180 to R183): each coefficient is the Barrett reduction of the
wrapped sum a + b, or of a + 3q − b, and is congruent to the sum or the difference where nothing wraps (R202). -/
def Obligations.AdditionAndSubtractionComplete : Prop :=
  ∀ (s : State) (rd rs1 rs2 : Nat) (a b : Poly), Memory.poly s.preg rs1 = some a → Memory.poly s.preg rs2 = some b →
    (∃ t p, exec (.padd rd rs1 rs2) s = .next t ∧ s.CommitsRegs t rd [p] ∧ p.length = 256 ∧
      ∀ c < 256,
        coeffNat p c = (coeffNat a c + coeffNat b c) % 2 ^ 16 - (coeffNat a c + coeffNat b c) % 2 ^ 16 / 2 ^ 13 * 7681 ∧
        coeffNat p c ≤ 11768 ∧
        (coeffNat a c + coeffNat b c < 2 ^ 16 → coeffNat p c % 7681 = (coeffNat a c + coeffNat b c) % 7681)) ∧
    (∃ t p, exec (.psub rd rs1 rs2) s = .next t ∧ s.CommitsRegs t rd [p] ∧ p.length = 256 ∧
      ∀ c < 256,
        coeffNat p c = (coeffNat a c + 23043 + 2 ^ 16 - coeffNat b c) % 2 ^ 16 -
          (coeffNat a c + 23043 + 2 ^ 16 - coeffNat b c) % 2 ^ 16 / 2 ^ 13 * 7681 ∧
        coeffNat p c ≤ 11768 ∧
        (coeffNat b c ≤ coeffNat a c + 23043 → coeffNat a c + 23043 - coeffNat b c < 2 ^ 16 →
          (coeffNat p c + coeffNat b c) % 7681 = coeffNat a c % 7681))

/-- TOBYTES, COMPRESS3, COMPRESS11 and TOMSG complete for every defined register and every offset that fits (R185, R190, R192,
R197): the bytes of the function at BOFF, as many as the rule says, and nothing else. -/
def Obligations.PackCommandsComplete : Prop :=
  ∀ (s : State) (rp boff : Nat) (p : Poly), Memory.poly s.preg rp = some p →
    (boff + 416 ≤ 8192 → (tobytesF p).length = 416 ∧
      ∃ t, exec (.tobytes rp boff) s = .next t ∧ s.CommitsBytes t [(boff, tobytesF p)]) ∧
    (boff + 96 ≤ 8192 → (compressF 3 p).length = 96 ∧
      ∃ t, exec (.compress3 rp boff) s = .next t ∧ s.CommitsBytes t [(boff, compressF 3 p)]) ∧
    (boff + 352 ≤ 8192 → (compressF 11 p).length = 352 ∧
      ∃ t, exec (.compress11 rp boff) s = .next t ∧ s.CommitsBytes t [(boff, compressF 11 p)]) ∧
    (boff + 32 ≤ 8192 → (tomsgF p).length = 32 ∧
      ∃ t, exec (.tomsg rp boff) s = .next t ∧ s.CommitsBytes t [(boff, tomsgF p)])

/-- FROMBYTES, DECOMPRESS3, DECOMPRESS11 and FROMMSG complete for all defined bytes inside BUF (R187, R191, R193, R195) and
write one register. -/
def Obligations.UnpackCommandsComplete : Prop :=
  ∀ (s : State) (rp boff : Nat) (bs : Bytes),
    (boff + 416 ≤ 8192 → Memory.load s.buf boff 416 = some bs →
      ∃ t, exec (.frombytes rp boff) s = .next t ∧ s.CommitsRegs t rp [frombytesF bs]) ∧
    (boff + 96 ≤ 8192 → Memory.load s.buf boff 96 = some bs →
      ∃ t, exec (.decompress3 rp boff) s = .next t ∧ s.CommitsRegs t rp [decompressF 3 bs]) ∧
    (boff + 352 ≤ 8192 → Memory.load s.buf boff 352 = some bs →
      ∃ t, exec (.decompress11 rp boff) s = .next t ∧ s.CommitsRegs t rp [decompressF 11 bs]) ∧
    (boff + 32 ≤ 8192 → Memory.load s.buf boff 32 = some bs →
      ∃ t, exec (.frommsg rp boff) s = .next t ∧ s.CommitsRegs t rp [frommsgF bs])

/-- CBD and GETNOISE complete under every configured set (R199, R201): η of the snapshot's set, and for GETNOISE the noise
polynomial of SHAKE256 over the seed and the nonce byte ARG[7:0]. -/
def Obligations.NoiseCommandsComplete : Prop :=
  ∀ (s : State) (rp boff : Nat) (bs : Bytes), s.snap.set ≠ .unconfigured →
    (boff + 64 * s.snap.set.eta ≤ 8192 → Memory.load s.buf boff (64 * s.snap.set.eta) = some bs →
      ∃ t, exec (.cbd rp boff) s = .next t ∧ s.CommitsRegs t rp [cbdF s.snap.set.eta bs]) ∧
    (boff + 32 ≤ 8192 → Memory.load s.buf boff 32 = some bs →
      ∃ t, exec (.getnoise rp boff) s = .next t ∧
        s.CommitsRegs t rp [cbdF s.snap.set.eta
          (sponge.shake256 (bs ++ [BitVec.ofNat 8 (s.snap.arg.toNat % 2 ^ 8)]) (64 * s.snap.set.eta))])

/-- PACC, VNTT, VINVNTT and VADD complete under every configured set for vectors inside the register file (R220 to R225),
also where they overlap (R55). -/
def Obligations.VectorArithmeticCompletes : Prop :=
  ∀ (s : State) (rd rs1 rs2 : Nat) (u v : List Poly), s.snap.set ≠ .unconfigured → rs1 + s.snap.set.k ≤ 32 →
    Memory.polys s.preg rs1 s.snap.set.k = some u →
    (rs2 + s.snap.set.k ≤ 32 → Memory.polys s.preg rs2 s.snap.set.k = some v →
      ∃ t, exec (.pacc rd rs1 rs2) s = .next t ∧ s.CommitsRegs t rd [paccF u v]) ∧
    (rd + s.snap.set.k ≤ 32 →
      (∃ t, exec (.vntt rd rs1) s = .next t ∧ s.CommitsRegs t rd (u.map nttF)) ∧
      (∃ t, exec (.vinvntt rd rs1) s = .next t ∧ s.CommitsRegs t rd (u.map invnttF)) ∧
      (rs2 + s.snap.set.k ≤ 32 → Memory.polys s.preg rs2 s.snap.set.k = some v →
        ∃ t, exec (.vadd rd rs1 rs2) s = .next t ∧ s.CommitsRegs t rd (List.zipWith paddF u v)))

/-- VTOBYTES, VCOMPRESS11, VFROMBYTES and VDECOMPRESS11 complete under every configured set (R226 to R229): element i of the
vector stands at the i-th piece of 416 or 352 bytes. -/
def Obligations.VectorSerialisationCompletes : Prop :=
  ∀ (s : State) (rp boff : Nat), s.snap.set ≠ .unconfigured → rp + s.snap.set.k ≤ 32 →
    (∀ u, Memory.polys s.preg rp s.snap.set.k = some u →
      (boff + 416 * s.snap.set.k ≤ 8192 →
        ∃ t, exec (.vtobytes rp boff) s = .next t ∧ s.CommitsBytes t [(boff, u.flatMap tobytesF)]) ∧
      (boff + 352 * s.snap.set.k ≤ 8192 →
        ∃ t, exec (.vcompress11 rp boff) s = .next t ∧ s.CommitsBytes t [(boff, u.flatMap (compressF 11))])) ∧
    (∀ bs, boff + 416 * s.snap.set.k ≤ 8192 → Memory.load s.buf boff (416 * s.snap.set.k) = some bs →
      ∃ t, exec (.vfrombytes rp boff) s = .next t ∧
        s.CommitsRegs t rp ((List.range s.snap.set.k).map fun i => frombytesF ((bs.drop (416 * i)).take 416))) ∧
    (∀ bs, boff + 352 * s.snap.set.k ≤ 8192 → Memory.load s.buf boff (352 * s.snap.set.k) = some bs →
      ∃ t, exec (.vdecompress11 rp boff) s = .next t ∧
        s.CommitsRegs t rp ((List.range s.snap.set.k).map fun i => decompressF 11 ((bs.drop (352 * i)).take 352)))

/-- GENMATRIX completes under every configured set when each cell is sampled within the fuel (R241 to R243): cell (i, j) in
register RP + i·k + j. When one is not, no commit is taken (R242, log entry 10). -/
def Obligations.GenmatrixCompletes : Prop :=
  ∀ (s : State) (rp boff : Nat) (seed : Bytes), s.snap.set ≠ .unconfigured →
    rp + s.snap.set.k * s.snap.set.k ≤ 32 → boff + 32 ≤ 8192 → Memory.load s.buf boff 32 = some seed →
    (∀ a, genmatrixF sponge Config.genmatFuel seed (decide (s.snap.arg.toNat % 2 = 1)) s.snap.set.k = some a →
      ∃ t, exec (.genmatrix rp boff) s = .next t ∧ s.CommitsRegs t rp a.flatten ∧
        ∀ i < s.snap.set.k, ∀ j < s.snap.set.k,
          Memory.poly t.preg (rp + i * s.snap.set.k + j) =
            if s.snap.arg.toNat % 2 = 1 then sampleF sponge Config.genmatFuel seed i j
            else sampleF sponge Config.genmatFuel seed j i) ∧
    (exec (.genmatrix rp boff) s = .fault .samplerFuel ↔
      genmatrixF sponge Config.genmatFuel seed (decide (s.snap.arg.toNat % 2 = 1)) s.snap.set.k = none)

/-- CPA_KEYPAIR, CPA_ENC and CPA_DEC complete under every configured set for defined inputs (R252, R254, R256), reading and
writing the fixed regions of R85; a matrix that runs out of fuel takes no commit (R242). -/
def Obligations.IndCpaCommandsComplete : Prop :=
  ∀ s : State, s.snap.set ≠ .unconfigured →
    (∀ d, Memory.load s.buf 0x1920 32 = some d →
      (∀ pk sk, cpaKeypairF sponge Config.genmatFuel s.snap.set.k s.snap.set.eta d = some (pk, sk) →
        pk.length = 352 * s.snap.set.k + 32 ∧ sk.length = 416 * s.snap.set.k ∧
        ∃ t, exec .cpaKeypair s = .next t ∧ s.CommitsBytes t [(0x0000, pk), (0x0600, sk)]) ∧
      (exec .cpaKeypair s = .fault .samplerFuel ↔
        cpaKeypairF sponge Config.genmatFuel s.snap.set.k s.snap.set.eta d = none)) ∧
    (∀ m pk coins, Memory.load s.buf 0x1960 32 = some m →
      Memory.load s.buf 0x0000 (352 * s.snap.set.k + 32) = some pk → Memory.load s.buf 0x1980 32 = some coins →
      (∀ ct, cpaEncF sponge Config.genmatFuel s.snap.set.k s.snap.set.eta m pk coins = some ct →
        ct.length = 352 * s.snap.set.k + 96 ∧
        ∃ t, exec .cpaEnc s = .next t ∧ s.CommitsBytes t [(0x1300, ct)]) ∧
      (exec .cpaEnc s = .fault .samplerFuel ↔
        cpaEncF sponge Config.genmatFuel s.snap.set.k s.snap.set.eta m pk coins = none)) ∧
    (∀ ct sk, Memory.load s.buf 0x1300 (352 * s.snap.set.k + 96) = some ct →
      Memory.load s.buf 0x0600 (416 * s.snap.set.k) = some sk →
      (cpaDecF s.snap.set.k ct sk).length = 32 ∧
      ∃ t, exec .cpaDec s = .next t ∧ s.CommitsBytes t [(0x1960, cpaDecF s.snap.set.k ct sk)])

/-- KEM_KEYGEN and KEM_ENCAPS complete under every configured set for defined inputs and the public key's declared length
(R273, R275), reading and writing the fixed regions of R85. -/
def Obligations.KeyGenerationAndEncapsulationComplete : Prop :=
  ∀ s : State, s.snap.set ≠ .unconfigured →
    (∀ d z, Memory.load s.buf 0x1920 32 = some d → Memory.load s.buf 0x1940 32 = some z →
      (∀ pk skc, cpaKeypairF sponge Config.genmatFuel s.snap.set.k s.snap.set.eta d = some (pk, skc) →
        (skc ++ pk ++ sponge.sha3_256 pk ++ z).length = 768 * s.snap.set.k + 96 ∧
        ∃ t, exec .kemKeygen s = .next t ∧
          s.CommitsBytes t [(0x0000, pk), (0x0600, skc ++ pk ++ sponge.sha3_256 pk ++ z)]) ∧
      (exec .kemKeygen s = .fault .samplerFuel ↔
        cpaKeypairF sponge Config.genmatFuel s.snap.set.k s.snap.set.eta d = none)) ∧
    (∀ r pk, s.snap.keylen.toNat = s.snap.set.pkSize → Memory.load s.buf 0x1920 32 = some r →
      Memory.load s.buf 0x0000 (352 * s.snap.set.k + 32) = some pk →
      (∀ ct, cpaEncF sponge Config.genmatFuel s.snap.set.k s.snap.set.eta (sponge.sha3_256 r) pk
          (((sponge.sha3_512 (sponge.sha3_256 r ++ sponge.sha3_256 pk)).drop 32).take 32) = some ct →
        ct.length = 352 * s.snap.set.k + 96 ∧
        ∃ t, exec .kemEncaps s = .next t ∧
          s.CommitsBytes t [(0x1300, ct),
            (0x1900, sponge.sha3_256 ((sponge.sha3_512 (sponge.sha3_256 r ++ sponge.sha3_256 pk)).take 32 ++
              sponge.sha3_256 ct))]) ∧
      (exec .kemEncaps s = .fault .samplerFuel ↔
        cpaEncF sponge Config.genmatFuel s.snap.set.k s.snap.set.eta (sponge.sha3_256 r) pk
          (((sponge.sha3_512 (sponge.sha3_256 r ++ sponge.sha3_256 pk)).drop 32).take 32) = none))

/-- KEM_DECAPS and KEM_SKCHECK complete for defined inputs whose declared lengths and embedded hash are right (R277, R279):
KEM_SKCHECK writes nothing, KEM_DECAPS the shared secret at SS alone, with the same status whether or not the re-encryption
check succeeds (R283). -/
def Obligations.DecapsulationAndKeyCheckComplete : Prop :=
  ∀ (s : State) (sk : Bytes), s.snap.set ≠ .unconfigured → s.snap.keylen.toNat = s.snap.set.skSize →
    Memory.load s.buf 0x0600 (768 * s.snap.set.k + 96) = some sk →
    (sk.drop (768 * s.snap.set.k + 32)).take 32 =
      sponge.sha3_256 ((sk.drop (416 * s.snap.set.k)).take (352 * s.snap.set.k + 32)) →
    exec .kemSkcheck s = .next s.commitsNothing ∧
    ∀ ct, s.snap.ctlen.toNat = s.snap.set.ctSize → Memory.load s.buf 0x1300 (352 * s.snap.set.k + 96) = some ct →
      (∀ ss, kemDecapsF sponge Config.genmatFuel s.snap.set.k s.snap.set.eta ct sk = some ss →
        ss.length = 32 ∧ ∃ t, exec .kemDecaps s = .next t ∧ s.CommitsBytes t [(0x1900, ss)]) ∧
      (exec .kemDecaps s = .fault .samplerFuel ↔
        kemDecapsF sponge Config.genmatFuel s.snap.set.k s.snap.set.eta ct sk = none)

/-! ### The functions -/

/-- R148: the reduction laws, with the domain of the Montgomery law. -/
def Obligations.ReductionLaws : Prop :=
  225 * 990 % 7681 = 1 ∧ 2 ^ 18 % 7681 = 990 ∧
  (∀ a : Word, a.toNat ≤ 2013265920 →
    (montF a).toNat % 7681 = a.toNat * 225 % 7681 ∧ (montF a).toNat ≤ 15360 ∧
    a.toNat + a.toNat * 7679 % 2 ^ 18 * 7681 < 2 ^ 32) ∧
  (∀ a : Coeff, (barrettF a).toNat % 7681 = a.toNat % 7681 ∧ (barrettF a).toNat ≤ 11768) ∧
  (∀ x : Coeff, (freezeF x).toNat < 7681 ∧ (freezeF x).toNat % 7681 = x.toNat % 7681) ∧
  (montF 0xFFFFFFFF).toNat % 7681 ≠ (0xFFFFFFFF : Word).toNat * 225 % 7681

/-- R13: the bit layout of PackBits, the integer it encodes, and its inverse with its values. -/
def Obligations.PackBitsIsTheBitLayout : Prop :=
  (∀ (w m i : Nat) (bs : Bytes), i < m → (unpackBits w m bs).length = m ∧
    (unpackBits w m bs).getD i 0 = ((List.range bs.length).map fun j => (bs.getD j 0).toNat * 2 ^ (8 * j)).sum / 2 ^ (w * i) %
      2 ^ w) ∧
  ∀ (w : Nat) (vs : List Nat), (∀ v ∈ vs, v < 2 ^ w) → w * vs.length % 8 = 0 →
    (packBits w vs).length = w * vs.length / 8 ∧
    (∀ j b, j < w * vs.length / 8 → b < 8 →
      ((packBits w vs).getD j 0).getLsbD b = (vs.getD ((8 * j + b) / w) 0).testBit (8 * j + b - w * ((8 * j + b) / w))) ∧
    loadLE (packBits w vs) = ((List.range vs.length).map fun i => vs.getD i 0 * 2 ^ (w * i)).sum ∧
    unpackBits w vs.length (packBits w vs) = vs

/-- The round trips of R202 laws 3 to 5: serialisation gives the frozen polynomial, compression inverts decompression, and a
message survives its polynomial. -/
def Obligations.SerialisationRoundTrips : Prop :=
  (∀ p : Poly, p.length = 256 → frombytesF (tobytesF p) = p.map freezeF) ∧
  (∀ bs : Bytes, bs.length = 416 → (tobytesF (frombytesF bs) = bs ↔ ∀ v ∈ unpackBits 13 256 bs, v < 7681)) ∧
  (∀ bs : Bytes, bs.length = 96 → compressF 3 (decompressF 3 bs) = bs) ∧
  (∀ bs : Bytes, bs.length = 352 → compressF 11 (decompressF 11 bs) = bs) ∧
  ∀ m : Bytes, m.length = 32 → tomsgF (frommsgF m) = m

/-- cbd_f is the glossary's centered binomial distribution (R17, R198): q plus the ones of the first η bits of a coefficient's
2η bits, less the ones of the next η; so it lies within η of q (R202 law 6). -/
def Obligations.CbdCountsOnes : Prop :=
  ∀ (eta : Nat) (bs : Bytes), eta = 3 ∨ eta = 4 ∨ eta = 5 → bs.length = 64 * eta → ∀ i < 64, ∀ m < 4,
    coeffNat (cbdF eta bs) (4 * i + m) =
      7681 + onesBelow eta (loadLE ((bs.drop (eta * i)).take eta) / 2 ^ (2 * eta * m)) -
        onesBelow eta (loadLE ((bs.drop (eta * i)).take eta) / 2 ^ (2 * eta * m + eta)) ∧
    7681 ≤ coeffNat (cbdF eta bs) (4 * i + m) + eta ∧ coeffNat (cbdF eta bs) (4 * i + m) ≤ 7681 + eta

/-- pacc_f is the pointwise inner product mod q, for every 16-bit input, and at most 11257 (R221, R230). -/
def Obligations.PaccIsTheInnerProduct : Prop :=
  ∀ (k : Nat) (a b : List Poly), 1 ≤ k → k ≤ 4 → a.length = k → b.length = k → (∀ p ∈ a, p.length = 256) →
    (∀ p ∈ b, p.length = 256) → ∀ c < 256,
      coeffNat (paccF a b) c % 7681 =
        ((List.range k).map fun i => coeffNat (a.getD i []) c * coeffNat (b.getD i []) c).sum % 7681 ∧
      coeffNat (paccF a b) c ≤ 11257

/-- R244 laws 1 to 3, for every sponge and fuel: the transposed matrix is the transpose, every coefficient is canonical, and a
cell depends on the seed and its own two index bytes alone. -/
def Obligations.MatrixLaws : Prop :=
  ∀ (h : Sponge) (fuel : Nat) (seed : Bytes) (k : Nat) (aT : List (List Poly)), genmatrixF h fuel seed true k = some aT →
    ∃ a, genmatrixF h fuel seed false k = some a ∧ ∀ i < k, ∀ j < k,
      (aT.getD i []).getD j [] = (a.getD j []).getD i [] ∧
      sampleF h fuel seed i j = some ((aT.getD i []).getD j []) ∧
      ((aT.getD i []).getD j []).length = 256 ∧ ∀ c < 256, coeffNat ((aT.getD i []).getD j []) c < 7681

/-- R15 and R242: the sponge's outputs have their lengths and are prefixes of one stream, so a cell that is sampled within some
fuel is the same cell with more. That the sponge is FIPS 202's is log entry 9. -/
def Obligations.SpongeStreamsAreConsistent : Prop :=
  (∀ x, (sponge.sha3_256 x).length = 32 ∧ (sponge.sha3_512 x).length = 64) ∧
  (∀ x n m, n ≤ m → (sponge.shake128 x n).length = n ∧ sponge.shake128 x n = (sponge.shake128 x m).take n) ∧
  (∀ x n m, n ≤ m → (sponge.shake256 x n).length = n ∧ sponge.shake256 x n = (sponge.shake256 x m).take n) ∧
  ∀ (seed : Bytes) (x y f g : Nat) (p : Poly), sampleF sponge f seed x y = some p → f ≤ g → sampleF sponge g seed x y = some p

/-- The three twiddle tables are the powers R160 to R162 give. -/
def Obligations.TwiddleTablesAreTheirPowers : Prop :=
  (∀ i < 256, (zetas.getD i 0).toNat = 62 ^ bitReverse 8 i * 2 ^ 18 % 7681) ∧
  (∀ i < 128, (omegasInv.getD i 0).toNat < 7681 ∧
    (omegasInv.getD i 0).toNat * 3844 ^ bitReverse 7 i % 7681 = 2 ^ 18 % 7681) ∧
  (∀ i < 256, (psisInv.getD i 0).toNat < 7681 ∧ (psisInv.getD i 0).toNat * 62 ^ i % 7681 = 7651 * 2 ^ 18 % 7681) ∧
  256 * 7651 % 7681 = 1 ∧ 62 ^ 256 % 7681 = 7680

/-- `nttF` gives exactly the values of the loop R163 writes, representatives included (R168). -/
def Obligations.NttFollowsThePseudocode : Prop :=
  ∀ p : Poly, p.length = 256 → nttF p = nttLoop p ∧ (nttLoop p).length = 256

/-- `invnttF` gives exactly the values of the loop R165 writes, representatives included (R168). -/
def Obligations.InvnttFollowsThePseudocode : Prop :=
  ∀ a : Poly, a.length = 256 → invnttF a = invnttLoop a ∧ (invnttLoop a).length = 256

/-- R167 law 1: for coefficients up to 26358 the forward transform evaluates the polynomial at the 256 roots of X^256 + 1, in
bit-reversed order, with outputs at most 10746. -/
def Obligations.NttEvaluatesThePolynomial : Prop :=
  ∀ p : Poly, p.length = 256 → (∀ c < 256, coeffNat p c ≤ 26358) → ∀ i < 256,
    coeffNat (nttF p) i ≤ 10746 ∧
    coeffNat (nttF p) i % 7681 = evalPoly (62 ^ (2 * bitReverse 8 i + 1)) p % 7681

/-- R167 law 3: for coefficients up to 26358 the inverse transform of the forward transform freezes back to the polynomial
mod q. -/
def Obligations.TransformRoundTrip : Prop :=
  ∀ p : Poly, p.length = 256 → (∀ c < 256, coeffNat p c ≤ 26358) →
    (invnttF (nttF p)).length = 256 ∧ ∀ c < 256, coeffNat ((invnttF (nttF p)).map freezeF) c = coeffNat p c % 7681

/-- R257 laws 3 and 4: the output lengths of the IND-CPA functions, and the public seed at the end of pk. -/
def Obligations.IndCpaOutputsHaveTheirLengths : Prop :=
  (∀ (fuel k eta : Nat) (d pk sk : Bytes), 1 ≤ k → cpaKeypairF sponge fuel k eta d = some (pk, sk) →
    pk.length = 352 * k + 32 ∧ sk.length = 416 * k ∧ pk.drop (352 * k) = (sponge.sha3_512 d).take 32) ∧
  (∀ (fuel k eta : Nat) (m pk coins ct : Bytes), 1 ≤ k → m.length = 32 →
    cpaEncF sponge fuel k eta m pk coins = some ct → ct.length = 352 * k + 96) ∧
  ∀ (k : Nat) (ct sk : Bytes), 1 ≤ k → (cpaDecF k ct sk).length = 32

/-- R278 and R282 law 2: the masks of R280 compute the selection they stand for. With ct' the re-encryption, the shared secret
is H(kr'_hi ‖ H(ct)) when ct = ct' and H(z ‖ H(ct)) when it differs, in one equation for both cases. -/
def Obligations.DecapsulationRejectsImplicitly : Prop :=
  ∀ (fuel k eta : Nat) (ct sk ct' : Bytes), sk.length = 768 * k + 96 →
    cpaEncF sponge fuel k eta (cpaDecF k ct (sk.take (416 * k))) ((sk.drop (416 * k)).take (352 * k + 32))
      (((sponge.sha3_512 (cpaDecF k ct (sk.take (416 * k)) ++ (sk.drop (768 * k + 32)).take 32)).drop 32).take 32) =
        some ct' →
    kemDecapsF sponge fuel k eta ct sk = some (sponge.sha3_256
      ((if ct = ct' then
          (sponge.sha3_512 (cpaDecF k ct (sk.take (416 * k)) ++ (sk.drop (768 * k + 32)).take 32)).take 32
        else sk.drop (768 * k + 64)) ++ sponge.sha3_256 ct))

/-- A private key that KEM_KEYGEN has written passes KEM_SKCHECK under the same set with its true length declared, in any later
state whose BUF still holds it (R272, R276, R277). -/
def Obligations.GeneratedKeyPassesTheCheck : Prop :=
  ∀ s t u : State, s.snap.set ≠ .unconfigured → exec .kemKeygen s = .next t → u.buf = t.buf →
    u.snap.set = s.snap.set → u.snap.keylen.toNat = s.snap.set.skSize → exec .kemSkcheck u = .next u.commitsNothing

/-- R361: the latency of an accepted command is the same for two words of the same opcode, accepted by two states that agree on
PARAM.SET, where the commands end with the same error code or both with none, and then sample from the same public seed. The
operands, PREG, ARG, KEYLEN, CTLEN and the rest of BUF enter only through the error code, and that code is fixed by the word and
the CSRs for the commands that check no key hash. That LAT is a function of these values and of the draw alone is built into the
model (log entry 3), and which seed counts is log entry 22. -/
def Obligations.LatencyDependsOnPublicValues : Prop :=
  (∀ (s s' : State) (w w' : Word), s.eng = .idle → s'.eng = .idle → s.draws = s'.draws → s.set = s'.set →
    w.toNat % 256 = w'.toNat % 256 →
    (match decode w with
      | .ok i => s.errorOf i
      | .error _ => some .illegalOpcode) =
      (match decode w' with
      | .ok i => s'.errorOf i
      | .error _ => some .illegalOpcode) →
    (∀ i i', decode w = .ok i → decode w' = .ok i' → s.errorOf i = none → s'.errorOf i' = none →
      s.matrixSeed i = s'.matrixSeed i') →
    ∃ n sn sn', (s.accept w).eng = .busy sn n ∧ (s'.accept w').eng = .busy sn' n) ∧
  ∀ (s s' : State) (i : Instr), s.eng = .idle → s'.eng = .idle → s.set = s'.set → s.keylen = s'.keylen →
    s.ctlen = s'.ctlen → i ≠ .kemDecaps → i ≠ .kemSkcheck → s.errorOf i = s'.errorOf i
end

