-- ==== Sys2Proof/Laws/Memory.lean ====
section
/-! SUPPORT. The laws of byte storage: a read after a write, what a write leaves alone, and that every operation keeps the
canonical form and the bound. -/

namespace Sys2Proof.Machine

open Sys2Proof

/-! ### One byte -/

theorem Memory.byteAt_store (m : Memory) (a : Nat) (b : Byte) (x : Nat) :
    Memory.byteAt (Memory.store m a b) x = if x = a then some b else Memory.byteAt m x := by
  induction m with
  | nil => by_cases h : x = a <;> simp [Memory.store, Memory.byteAt, h]
  | cons c m ih =>
    obtain ⟨k, v⟩ := c
    simp only [Memory.store]
    split
    · by_cases h : x = a <;> simp [Memory.byteAt, h]
    · split
      · subst_vars
        by_cases h : x = k <;> simp [Memory.byteAt, h]
      · simp only [Memory.byteAt, ih]
        by_cases h : x = k
        · subst h
          have : ¬ x = a := by omega
          simp [this]
        · simp [h]

@[simp] theorem Memory.byteAt_store_same (m : Memory) (a : Nat) (b : Byte) :
    Memory.byteAt (Memory.store m a b) a = some b := by simp [Memory.byteAt_store]

theorem Memory.byteAt_store_other (m : Memory) (b : Byte) {a x : Nat} (h : x ≠ a) :
    Memory.byteAt (Memory.store m a b) x = Memory.byteAt m x := by simp [Memory.byteAt_store, h]

/-! ### Byte strings -/

theorem Memory.byteAt_storeBytes (m : Memory) (a : Nat) (bs : Bytes) (x : Nat) :
    Memory.byteAt (Memory.storeBytes m a bs) x =
      if a ≤ x ∧ x < a + bs.length then bs[x - a]? else Memory.byteAt m x := by
  induction bs generalizing m a with
  | nil =>
    rw [if_neg (by simp only [List.length_nil]; omega)]
    rfl
  | cons b bs ih =>
    rw [Memory.storeBytes, ih, Memory.byteAt_store, List.length_cons]
    by_cases h1 : x = a
    · subst h1
      simp
    · by_cases h2 : a + 1 ≤ x ∧ x < a + 1 + bs.length
      · have h3 : a ≤ x ∧ x < a + (bs.length + 1) := by omega
        have h4 : x - a = (x - (a + 1)) + 1 := by omega
        rw [if_pos h2, if_pos h3, h4, List.getElem?_cons_succ]
      · have h3 : ¬ (a ≤ x ∧ x < a + (bs.length + 1)) := by omega
        rw [if_neg h2, if_neg h1, if_neg h3]

/-- A byte outside the stored range reads as before. -/
theorem Memory.byteAt_storeBytes_outside (m : Memory) (a : Nat) (bs : Bytes) {x : Nat}
    (h : x < a ∨ a + bs.length ≤ x) : Memory.byteAt (Memory.storeBytes m a bs) x = Memory.byteAt m x := by
  rw [Memory.byteAt_storeBytes, if_neg (by omega)]

/-- A load looks only at the bytes of its range. -/
theorem Memory.load_congr {m m' : Memory} {a n : Nat}
    (h : ∀ x, a ≤ x → x < a + n → Memory.byteAt m x = Memory.byteAt m' x) :
    Memory.load m a n = Memory.load m' a n := by
  induction n generalizing a with
  | zero => rfl
  | succ n ih =>
    rw [Memory.load, Memory.load, h a (by omega) (by omega), ih fun x hx hy => h x (by omega) (by omega)]

/-- A load succeeds exactly when it lists the bytes that stand there. -/
theorem Memory.load_eq_some_iff (m : Memory) (a n : Nat) (bs : Bytes) :
    Memory.load m a n = some bs ↔ bs.length = n ∧ ∀ i, i < n → Memory.byteAt m (a + i) = bs[i]? := by
  induction n generalizing a bs with
  | zero =>
    simp only [Memory.load, Option.some.injEq, List.length_eq_zero_iff]
    constructor
    · rintro rfl
      exact ⟨rfl, fun i hi => by omega⟩
    · rintro ⟨rfl, -⟩
      rfl
  | succ n ih =>
    rw [Memory.load]
    constructor
    · intro h
      split at h
      · rename_i b bs' hb hl
        obtain rfl := Option.some.inj h
        obtain ⟨hlen, hget⟩ := (ih (a + 1) bs').1 hl
        refine ⟨by simp [hlen], fun i hi => ?_⟩
        cases i with
        | zero => simpa using hb
        | succ i =>
          have := hget i (by omega)
          rw [List.getElem?_cons_succ, ← this]
          congr 1
          omega
      · cases h
    · rintro ⟨hlen, hget⟩
      cases bs with
      | nil => simp at hlen
      | cons b bs' =>
        have h0 : Memory.byteAt m a = some b := by simpa using hget 0 (by omega)
        have h1 : Memory.load m (a + 1) n = some bs' := by
          refine (ih (a + 1) bs').2 ⟨by simpa using hlen, fun i hi => ?_⟩
          have := hget (i + 1) (by omega)
          rw [List.getElem?_cons_succ] at this
          rw [← this]
          congr 1
          omega
        rw [h0, h1]

theorem Memory.load_length {m : Memory} {a n : Nat} {bs : Bytes} (h : Memory.load m a n = some bs) : bs.length = n :=
  ((Memory.load_eq_some_iff m a n bs).1 h).1

/-- A load answers none exactly when one of its bytes is undefined. -/
theorem Memory.load_eq_none_iff (m : Memory) (a n : Nat) :
    Memory.load m a n = none ↔ ∃ x, a ≤ x ∧ x < a + n ∧ Memory.byteAt m x = none := by
  induction n generalizing a with
  | zero => simp only [Memory.load, reduceCtorEq, false_iff]; rintro ⟨x, h1, h2, -⟩; omega
  | succ n ih =>
    rw [Memory.load]
    have hn := ih (a + 1)
    constructor
    · intro h
      split at h
      · cases h
      · rename_i hs
        cases hb : Memory.byteAt m a with
        | none => exact ⟨a, Nat.le_refl a, by omega, hb⟩
        | some b =>
          cases hl : Memory.load m (a + 1) n with
          | none =>
            obtain ⟨x, hx, hy, hz⟩ := hn.1 hl
            exact ⟨x, by omega, by omega, hz⟩
          | some bs => exact absurd hl (hs b bs hb)
    · rintro ⟨x, hx, hy, hz⟩
      rcases Nat.eq_or_lt_of_le hx with rfl | hx
      · rw [hz]
      · rw [hn.2 ⟨x, hx, by omega, hz⟩]
        cases Memory.byteAt m a <;> rfl

/-- A byte string reads back as it was stored. -/
theorem Memory.load_storeBytes_same (m : Memory) (a : Nat) (bs : Bytes) :
    Memory.load (Memory.storeBytes m a bs) a bs.length = some bs := by
  refine (Memory.load_eq_some_iff _ _ _ _).2 ⟨rfl, fun i hi => ?_⟩
  rw [Memory.byteAt_storeBytes, if_pos (by omega)]
  congr 1
  omega

/-- A load that does not meet the stored range reads as before. -/
theorem Memory.load_storeBytes_disjoint (m : Memory) (a : Nat) (bs : Bytes) {o n : Nat}
    (h : o + n ≤ a ∨ a + bs.length ≤ o) : Memory.load (Memory.storeBytes m a bs) o n = Memory.load m o n :=
  Memory.load_congr fun x hx hy => Memory.byteAt_storeBytes_outside m a bs (by omega)

/-! ### Bytes made undefined -/

theorem Memory.byteAt_forget (m : Memory) (a n x : Nat) :
    Memory.byteAt (Memory.forget m a n) x = if a ≤ x ∧ x < a + n then none else Memory.byteAt m x := by
  induction m with
  | nil => simp [Memory.forget, Memory.byteAt]
  | cons c m ih =>
    obtain ⟨k, v⟩ := c
    rw [Memory.forget] at ih ⊢
    rw [List.filter_cons]
    by_cases hk : a ≤ k ∧ k < a + n
    · rw [if_neg (by simp [hk]), ih]
      by_cases hx : a ≤ x ∧ x < a + n
      · simp [hx]
      · have : ¬ x = k := by omega
        simp [hx, Memory.byteAt, this]
    · rw [if_pos (by simp only [Bool.not_eq_true', Bool.and_eq_false_iff, decide_eq_false_iff_not]; omega)]
      rw [Memory.byteAt, Memory.byteAt, ih]
      by_cases hxk : x = k
      · subst hxk
        rw [if_pos rfl, if_pos rfl, if_neg hk]
      · rw [if_neg hxk, if_neg hxk]

/-! ### Polynomials -/

@[simp] theorem polyOfBytes_bytesOfPoly (p : Poly) : polyOfBytes (bytesOfPoly p) = p := by
  induction p with
  | nil => rfl
  | cons c p ih =>
    rw [bytesOfPoly, polyOfBytes, ih]
    congr 1
    apply BitVec.eq_of_toNat_eq
    simp only [coeffOfBytes, BitVec.toNat_ofNat]
    have := c.isLt
    omega

@[simp] theorem bytesOfPoly_length (p : Poly) : (bytesOfPoly p).length = 2 * p.length := by
  induction p with
  | nil => rfl
  | cons c p ih => simp only [bytesOfPoly, List.length_cons, ih]; omega

theorem polyOfBytes_length (bs : Bytes) : (polyOfBytes bs).length = bs.length / 2 := by
  induction bs using polyOfBytes.induct with
  | case1 lo hi bs ih => simp only [polyOfBytes, List.length_cons, ih]; omega
  | case2 bs h =>
    match bs, h with
    | [], _ => rfl
    | [_], _ => simp [polyOfBytes]
    | a :: b :: bs, h => exact absurd rfl (h a b bs)

/-- A register that is read has 256 coefficients. -/
theorem Memory.poly_length {m : Memory} {r : Nat} {p : Poly} (h : Memory.poly m r = some p) : p.length = 256 := by
  rw [Memory.poly, Option.map_eq_some_iff] at h
  obtain ⟨bs, hb, rfl⟩ := h
  rw [polyOfBytes_length, Memory.load_length hb]
  rfl

theorem Memory.byteAt_storePoly_outside (m : Memory) (r : Nat) (p : Poly) {x : Nat} (hp : p.length = 256)
    (h : x < 512 * r ∨ 512 * (r + 1) ≤ x) : Memory.byteAt (Memory.storePoly m r p) x = Memory.byteAt m x := by
  refine Memory.byteAt_storeBytes_outside _ _ _ ?_
  simp only [pregBytes, bytesOfPoly_length, hp]
  omega

/-- A register reads back as it was written. -/
theorem Memory.poly_storePoly_same (m : Memory) (r : Nat) (p : Poly) (hp : p.length = 256) :
    Memory.poly (Memory.storePoly m r p) r = some p := by
  have h := Memory.load_storeBytes_same m (pregBytes * r) (bytesOfPoly p)
  rw [bytesOfPoly_length, hp] at h
  simp only [Memory.poly, Memory.storePoly]
  rw [show pregBytes = 2 * 256 from rfl] at h ⊢
  simp [h]

theorem Memory.poly_congr {m m' : Memory} {r : Nat}
    (h : ∀ x, 512 * r ≤ x → x < 512 * (r + 1) → Memory.byteAt m x = Memory.byteAt m' x) :
    Memory.poly m r = Memory.poly m' r := by
  rw [Memory.poly, Memory.poly, Memory.load_congr fun x hx hy => h x ?_ ?_] <;> simp only [pregBytes] at * <;> omega

theorem Memory.byteAt_storePolys_outside (m : Memory) (r : Nat) (ps : List Poly) {x : Nat}
    (hp : ∀ p ∈ ps, p.length = 256) (h : x < 512 * r ∨ 512 * (r + ps.length) ≤ x) :
    Memory.byteAt (Memory.storePolys m r ps) x = Memory.byteAt m x := by
  induction ps generalizing m r with
  | nil => rfl
  | cons p ps ih =>
    rw [List.length_cons] at h
    rw [Memory.storePolys, ih _ _ (fun p' hp' => hp p' (List.mem_cons_of_mem _ hp')) (by omega),
      Memory.byteAt_storePoly_outside _ _ _ (hp p List.mem_cons_self) (by omega)]

/-- Consecutive registers read back as they were written. -/
theorem Memory.polys_storePolys_same (m : Memory) (r : Nat) (ps : List Poly) (hp : ∀ p ∈ ps, p.length = 256) :
    Memory.polys (Memory.storePolys m r ps) r ps.length = some ps := by
  induction ps generalizing m r with
  | nil => rfl
  | cons p ps ih =>
    have hps := fun p' hp' => hp p' (List.mem_cons_of_mem _ hp')
    have h0 : Memory.poly (Memory.storePolys (Memory.storePoly m r p) (r + 1) ps) r = some p := by
      rw [Memory.poly_congr fun x hx hy => Memory.byteAt_storePolys_outside _ _ _ hps (by omega)]
      exact Memory.poly_storePoly_same m r p (hp p List.mem_cons_self)
    rw [Memory.storePolys, List.length_cons, Memory.polys, h0, ih _ _ hps]

/-- A vector that is read has as many elements as were asked for, each of 256 coefficients. -/
theorem Memory.polys_length {m : Memory} {r k : Nat} {ps : List Poly} (h : Memory.polys m r k = some ps) :
    ps.length = k ∧ ∀ p ∈ ps, p.length = 256 := by
  induction k generalizing r ps with
  | zero =>
    obtain rfl := Option.some.inj h
    simp
  | succ k ih =>
    rw [Memory.polys] at h
    split at h
    · rename_i p ps' hp hps
      obtain rfl := Option.some.inj h
      obtain ⟨h1, h2⟩ := ih hps
      refine ⟨by simp [h1], fun p' hp' => ?_⟩
      rcases List.mem_cons.1 hp' with rfl | hp'
      · exact Memory.poly_length hp
      · exact h2 p' hp'
    · cases h

/-- A register answers none exactly when one of its bytes is undefined. -/
theorem Memory.poly_eq_none_iff (m : Memory) (r : Nat) :
    Memory.poly m r = none ↔ ∃ x, 512 * r ≤ x ∧ x < 512 * (r + 1) ∧ Memory.byteAt m x = none := by
  rw [Memory.poly, Option.map_eq_none_iff, Memory.load_eq_none_iff]
  exact Iff.rfl

/-- Consecutive registers answer none exactly when one of their bytes is undefined. -/
theorem Memory.polys_eq_none_iff (m : Memory) (r k : Nat) :
    Memory.polys m r k = none ↔ ∃ x, 512 * r ≤ x ∧ x < 512 * (r + k) ∧ Memory.byteAt m x = none := by
  induction k generalizing r with
  | zero => simp only [Memory.polys, reduceCtorEq, false_iff]; rintro ⟨x, h1, h2, -⟩; omega
  | succ k ih =>
    have hr := Memory.poly_eq_none_iff m r
    have hk := ih (r + 1)
    rw [Memory.polys]
    constructor
    · intro h
      split at h
      · cases h
      · rename_i hs
        cases hp : Memory.poly m r with
        | none =>
          obtain ⟨x, hx, hy, hz⟩ := hr.1 hp
          exact ⟨x, hx, by omega, hz⟩
        | some p =>
          cases hl : Memory.polys m (r + 1) k with
          | none =>
            obtain ⟨x, hx, hy, hz⟩ := hk.1 hl
            exact ⟨x, by omega, by omega, hz⟩
          | some ps => exact absurd hl (hs p ps hp)
    · rintro ⟨x, hx, hy, hz⟩
      by_cases h : x < 512 * (r + 1)
      · rw [hr.2 ⟨x, hx, h, hz⟩]
      · rw [hk.2 ⟨x, by omega, by omega, hz⟩]
        cases Memory.poly m r <;> rfl

/-! ### The canonical form and the bound -/

/-- `wf` says that the indexes are strictly rising. -/
theorem Memory.wf_iff (m : Memory) : Memory.wf m = true ↔ m.Pairwise (fun c d => c.1 < d.1) := by
  induction m with
  | nil => simp [Memory.wf]
  | cons c m ih =>
    cases m with
    | nil => simp [Memory.wf]
    | cons d m =>
      rw [Memory.wf, Bool.and_eq_true, decide_eq_true_eq, ih, List.pairwise_cons (a := c)]
      constructor
      · rintro ⟨h, hp⟩
        refine ⟨fun e he => ?_, hp⟩
        rcases List.mem_cons.1 he with rfl | he
        · exact h
        · exact Nat.lt_trans h ((List.pairwise_cons.1 hp).1 e he)
      · rintro ⟨h, hp⟩
        exact ⟨h d List.mem_cons_self, hp⟩

theorem Memory.mem_store {m : Memory} {a : Nat} {b : Byte} {c : Host.Cell} (h : c ∈ Memory.store m a b) :
    c = (a, b) ∨ c ∈ m := by
  induction m with
  | nil => simpa [Memory.store] using h
  | cons d m ih =>
    obtain ⟨k, v⟩ := d
    simp only [Memory.store] at h
    split at h
    · simpa using h
    · split at h
      · rcases List.mem_cons.1 h with h | h
        · exact .inl h
        · exact .inr (List.mem_cons_of_mem _ h)
      · rcases List.mem_cons.1 h with h | h
        · exact .inr (by simp [h])
        · exact (ih h).imp_right (List.mem_cons_of_mem _)

theorem Memory.wf_store {m : Memory} (a : Nat) (b : Byte) (h : Memory.wf m = true) :
    Memory.wf (Memory.store m a b) = true := by
  rw [Memory.wf_iff] at h ⊢
  induction m with
  | nil => simp [Memory.store]
  | cons c m ih =>
    obtain ⟨k, v⟩ := c
    obtain ⟨hk, hp⟩ := List.pairwise_cons.1 h
    simp only [Memory.store]
    split
    · rename_i hak
      refine List.pairwise_cons.2 ⟨fun d hd => ?_, h⟩
      rcases List.mem_cons.1 hd with rfl | hd
      · exact hak
      · exact Nat.lt_trans hak (hk d hd)
    · split
      · rename_i hak
        subst hak
        exact List.pairwise_cons.2 ⟨hk, hp⟩
      · refine List.pairwise_cons.2 ⟨fun d hd => ?_, ih hp⟩
        rcases Memory.mem_store hd with rfl | hd
        · show k < a
          omega
        · exact hk d hd

theorem Memory.wf_storeBytes {m : Memory} (a : Nat) (bs : Bytes) (h : Memory.wf m = true) :
    Memory.wf (Memory.storeBytes m a bs) = true := by
  induction bs generalizing m a with
  | nil => exact h
  | cons b bs ih => exact ih (a + 1) (Memory.wf_store a b h)

theorem Memory.wf_storePolys {m : Memory} (r : Nat) (ps : List Poly) (h : Memory.wf m = true) :
    Memory.wf (Memory.storePolys m r ps) = true := by
  induction ps generalizing m r with
  | nil => exact h
  | cons p ps ih => exact ih (r + 1) (Memory.wf_storeBytes _ _ h)

theorem Memory.wf_forget {m : Memory} (a n : Nat) (h : Memory.wf m = true) :
    Memory.wf (Memory.forget m a n) = true := by
  rw [Memory.wf_iff] at h ⊢
  exact h.sublist List.filter_sublist

theorem Memory.below_iff (m : Memory) (n : Nat) : Memory.below m n = true ↔ ∀ c ∈ m, c.1 < n := by
  simp [Memory.below]

theorem Memory.below_store {m : Memory} {n a : Nat} (b : Byte) (ha : a < n) (h : Memory.below m n = true) :
    Memory.below (Memory.store m a b) n = true := by
  rw [Memory.below_iff] at h ⊢
  intro c hc
  rcases Memory.mem_store hc with rfl | hc
  · exact ha
  · exact h c hc

theorem Memory.below_storeBytes {m : Memory} {n a : Nat} (bs : Bytes) (ha : a + bs.length ≤ n)
    (h : Memory.below m n = true) : Memory.below (Memory.storeBytes m a bs) n = true := by
  induction bs generalizing m a with
  | nil => exact h
  | cons b bs ih =>
    rw [List.length_cons] at ha
    exact ih (by omega) (Memory.below_store b (by omega) h)

theorem Memory.below_storePolys {m : Memory} {n r : Nat} (ps : List Poly) (hp : ∀ p ∈ ps, p.length = 256)
    (hr : 512 * (r + ps.length) ≤ n) (h : Memory.below m n = true) :
    Memory.below (Memory.storePolys m r ps) n = true := by
  induction ps generalizing m r with
  | nil => exact h
  | cons p ps ih =>
    rw [List.length_cons] at hr
    refine ih (fun p' hp' => hp p' (List.mem_cons_of_mem _ hp')) (by omega) (Memory.below_storeBytes _ ?_ h)
    simp only [bytesOfPoly_length, hp p List.mem_cons_self, pregBytes]
    omega

theorem Memory.below_forget {m : Memory} {n : Nat} (a k : Nat) (h : Memory.below m n = true) :
    Memory.below (Memory.forget m a k) n = true := by
  rw [Memory.below_iff] at h ⊢
  exact fun c hc => h c (List.mem_of_mem_filter hc)

/-- An index that is not below the bound of a memory is undefined. -/
theorem Memory.byteAt_of_below {m : Memory} {n x : Nat} (h : Memory.below m n = true) (hx : n ≤ x) :
    Memory.byteAt m x = none := by
  rw [Memory.below_iff] at h
  induction m with
  | nil => rfl
  | cons c m ih =>
    have hc := h c List.mem_cons_self
    rw [Memory.byteAt, if_neg (by omega)]
    exact ih fun d hd => h d (List.mem_cons_of_mem _ hd)

end Sys2Proof.Machine
end

