-- ==== Sys2Proof/Laws/Lengths.lean ====
section
/-! SUPPORT. How long the values of the functions are: 256 coefficients a polynomial, and the byte counts of spec/00_scope.md
R7 and spec/45_indcpa.md R250. -/

namespace Sys2Proof.Machine

open Sys2Proof

/-- A polynomial of 256 coefficients (R17). -/
abbrev IsPoly (p : Poly) : Prop := p.length = 256

/-! ### Packing -/

@[simp] theorem digits_length (w m v : Nat) : (digits w m v).length = m := by
  induction m generalizing v with
  | zero => rfl
  | succ m ih => simp [digits, ih]

@[simp] theorem storeLE_length (n v : Nat) : (storeLE n v).length = n := by simp [storeLE]

@[simp] theorem packBits_length (w : Nat) (vs : List Nat) : (packBits w vs).length = w * vs.length / 8 := by
  simp [packBits]

@[simp] theorem unpackBits_length (w m : Nat) (bs : Bytes) : (unpackBits w m bs).length = m := by simp [unpackBits]

@[simp] theorem nats_length (p : Poly) : (nats p).length = p.length := by simp [nats]

@[simp] theorem coeffs_length (vs : List Nat) : (coeffs vs).length = vs.length := by simp [coeffs]

/-! ### Transforms -/

theorem zetas_length : zetas.length = 256 := by decide +kernel

theorem omegasInv_length : omegasInv.length = 128 := by decide +kernel

theorem psisInv_length : psisInv.length = 256 := by decide +kernel

theorem butterflyLevel_length (bf : Coeff → Coeff → Coeff → Coeff × Coeff) (L : Nat) (ws : List Coeff) (p : Poly)
    (h : p.length = ws.length * (2 * L)) : (butterflyLevel bf L ws p).length = p.length := by
  induction ws generalizing p with
  | nil => rfl
  | cons w ws ih =>
    have hp : p.length = ws.length * (2 * L) + 2 * L := by rw [h, List.length_cons, Nat.succ_mul]
    have := ih (p.drop (2 * L)) (by rw [List.length_drop]; omega)
    simp only [butterflyLevel, List.length_append, List.length_zipWith, List.length_take, List.length_drop, this]
    omega

theorem nttLevel_length {p : Poly} (h : IsPoly p) {level : Nat} (hl : level ≤ 7) : IsPoly (nttLevel p level) := by
  have hb : ((zetas.drop (2 ^ (7 - level))).take (2 ^ (7 - level))).length * (2 * 2 ^ level) = 256 := by
    rw [List.length_take, List.length_drop, zetas_length]; interval_cases level <;> rfl
  rw [IsPoly, nttLevel, butterflyLevel_length _ _ _ _ (by rw [hb]; exact h)]
  exact h

theorem invnttLevel_length {p : Poly} (h : IsPoly p) {level : Nat} (hl : level ≤ 7) : IsPoly (invnttLevel p level) := by
  have hb : (omegasInv.take (2 ^ (7 - level))).length * (2 * 2 ^ level) = 256 := by
    rw [List.length_take, omegasInv_length]; interval_cases level <;> rfl
  rw [IsPoly, invnttLevel, butterflyLevel_length _ _ _ _ (by rw [hb]; exact h)]
  exact h

theorem foldl_levels_length {f : Poly → Nat → Poly} (hf : ∀ {p : Poly}, IsPoly p → ∀ {l : Nat}, l ≤ 7 → IsPoly (f p l))
    (ls : List Nat) (hls : ∀ l ∈ ls, l ≤ 7) {p : Poly} (h : IsPoly p) : IsPoly (ls.foldl f p) := by
  induction ls generalizing p with
  | nil => exact h
  | cons l ls ih =>
    exact ih (fun l' hl' => hls l' (List.mem_cons_of_mem _ hl')) (hf h (hls l List.mem_cons_self))

theorem nttF_length {p : Poly} (h : IsPoly p) : IsPoly (nttF p) :=
  foldl_levels_length nttLevel_length _ (by decide) h

theorem invnttF_length {p : Poly} (h : IsPoly p) : IsPoly (invnttF p) := by
  have := foldl_levels_length invnttLevel_length [0, 1, 2, 3, 4, 5, 6, 7] (by decide) h
  rw [IsPoly] at this
  rw [IsPoly, invnttF, List.length_zipWith, this, psisInv_length]
  rfl

/-! ### Polynomials -/

theorem paddF_length {a b : Poly} (ha : IsPoly a) (hb : IsPoly b) : IsPoly (paddF a b) := by
  rw [IsPoly] at *; simp [paddF, ha, hb]

theorem psubF_length {a b : Poly} (ha : IsPoly a) (hb : IsPoly b) : IsPoly (psubF a b) := by
  rw [IsPoly] at *; simp [psubF, ha, hb]

theorem tobytesF_length {p : Poly} (h : IsPoly p) : (tobytesF p).length = 416 := by
  rw [IsPoly] at h; simp [tobytesF, h]

theorem frombytesF_length (bs : Bytes) : IsPoly (frombytesF bs) := by simp [IsPoly, frombytesF]

theorem compressF_length (d : Nat) {p : Poly} (h : IsPoly p) : (compressF d p).length = 32 * d := by
  rw [IsPoly] at h; simp [compressF, h]; omega

theorem decompressF_length (d : Nat) (bs : Bytes) : IsPoly (decompressF d bs) := by simp [IsPoly, decompressF]

theorem frommsgF_length (m : Bytes) : (frommsgF m).length = 8 * m.length := by
  induction m with
  | nil => rfl
  | cons b m ih =>
    have : (frommsgByte b).length = 8 := by simp [frommsgByte]
    rw [frommsgF] at ih ⊢
    rw [List.flatMap_cons, List.length_append, ih, this, List.length_cons]
    omega

theorem tomsgF_length {p : Poly} (h : IsPoly p) : (tomsgF p).length = 32 := by
  rw [IsPoly] at h; simp [tomsgF, h]

theorem cbdGroups_length (eta n : Nat) (bs : Bytes) : (cbdGroups eta n bs).length = 4 * n := by
  induction n generalizing bs with
  | zero => rfl
  | succ n ih => simp [cbdGroups, ih, cbdGroup]; omega

theorem cbdF_length (eta : Nat) (bs : Bytes) : IsPoly (cbdF eta bs) := cbdGroups_length eta 64 bs

theorem getnoiseF_length (h : Sponge) (seed : Bytes) (nonce : Byte) (eta : Nat) : IsPoly (getnoiseF h seed nonce eta) :=
  cbdF_length _ _

/-! ### Vectors -/

/-- A vector of `k` polynomials (R42). -/
def IsVec (k : Nat) (u : List Poly) : Prop := u.length = k ∧ ∀ p ∈ u, IsPoly p

theorem isVec_map {k : Nat} {u : List Poly} {f : Poly → Poly} (hf : ∀ {p : Poly}, IsPoly p → IsPoly (f p)) (h : IsVec k u) :
    IsVec k (u.map f) := by
  refine ⟨by rw [List.length_map]; exact h.1, fun p hp => ?_⟩
  obtain ⟨p', hp', rfl⟩ := List.mem_map.1 hp
  exact hf (h.2 p' hp')

theorem vnttF_isVec {k : Nat} {u : List Poly} (h : IsVec k u) : IsVec k (vnttF u) := isVec_map nttF_length h

theorem vinvnttF_isVec {k : Nat} {u : List Poly} (h : IsVec k u) : IsVec k (vinvnttF u) := isVec_map invnttF_length h

theorem vaddF_isVec {k : Nat} {u v : List Poly} (hu : IsVec k u) (hv : IsVec k v) : IsVec k (vaddF u v) := by
  refine ⟨by simp [vaddF, hu.1, hv.1], fun p hp => ?_⟩
  rw [vaddF, List.zipWith_eq_zipWith_take_min] at hp
  rw [← List.map_uncurry_zip_eq_zipWith] at hp
  obtain ⟨⟨a, b⟩, hab, rfl⟩ := List.mem_map.1 hp
  have h1 := List.of_mem_zip hab
  exact paddF_length (hu.2 a (List.mem_of_mem_take h1.1)) (hv.2 b (List.mem_of_mem_take h1.2))

theorem flatMap_length {α β : Type} {f : α → List β} {n : Nat} {u : List α} (h : ∀ p ∈ u, (f p).length = n) :
    (u.flatMap f).length = n * u.length := by
  induction u with
  | nil => rfl
  | cons p u ih =>
    rw [List.flatMap_cons, List.length_append, h p List.mem_cons_self, ih fun p' hp' => h p' (List.mem_cons_of_mem _ hp'),
      List.length_cons, Nat.mul_succ]
    omega

theorem vtobytesF_length {k : Nat} {u : List Poly} (h : IsVec k u) : (vtobytesF u).length = 416 * k := by
  rw [vtobytesF, flatMap_length fun p hp => tobytesF_length (h.2 p hp), h.1]

theorem vcompressF_length {k : Nat} {u : List Poly} (h : IsVec k u) : (vcompressF u).length = 352 * k := by
  rw [vcompressF, flatMap_length fun p hp => compressF_length 11 (h.2 p hp), h.1]

@[simp] theorem pieces_length (n k : Nat) (bs : Bytes) : (pieces n k bs).length = k := by
  induction k generalizing bs with
  | zero => rfl
  | succ k ih => simp [pieces, ih]

theorem vfrombytesF_isVec (k : Nat) (bs : Bytes) : IsVec k (vfrombytesF k bs) := by
  refine ⟨by simp [vfrombytesF], fun p hp => ?_⟩
  obtain ⟨b, -, rfl⟩ := List.mem_map.1 hp
  exact frombytesF_length b

theorem vdecompressF_isVec (k : Nat) (bs : Bytes) : IsVec k (vdecompressF k bs) := by
  refine ⟨by simp [vdecompressF], fun p hp => ?_⟩
  obtain ⟨b, -, rfl⟩ := List.mem_map.1 hp
  exact decompressF_length 11 b

theorem mulPoly_length {a b : Poly} (ha : IsPoly a) (hb : IsPoly b) : IsPoly (mulPoly a b) := by
  rw [IsPoly] at *; simp [mulPoly, ha, hb]

theorem foldl_add_length (u : List Poly) (hu : ∀ p ∈ u, IsPoly p) {p : Poly} (hp : IsPoly p) :
    IsPoly (u.foldl (List.zipWith addCoeff) p) := by
  induction u generalizing p with
  | nil => exact hp
  | cons a u ih =>
    refine ih (fun b hb => hu b (List.mem_cons_of_mem _ hb)) ?_
    have ha := hu a List.mem_cons_self
    rw [IsPoly] at *
    simp [hp, ha]

theorem paccF_length {k : Nat} {a b : List Poly} (hk : 0 < k) (ha : IsVec k a) (hb : IsVec k b) : IsPoly (paccF a b) := by
  rw [IsPoly, paccF, List.length_map]
  match a, b, ha, hb with
  | [], _, ha, _ => exact absurd ha.1 (by simp; omega)
  | _ :: _, [], _, hb => exact absurd hb.1 (by simp; omega)
  | x :: as, y :: bs, ha, hb =>
    refine foldl_add_length _ (fun p hp => ?_) (mulPoly_length (ha.2 x List.mem_cons_self) (hb.2 y List.mem_cons_self))
    rw [← List.map_uncurry_zip_eq_zipWith] at hp
    obtain ⟨⟨c, d⟩, hcd, rfl⟩ := List.mem_map.1 hp
    have h1 := List.of_mem_zip hcd
    exact mulPoly_length (ha.2 c (List.mem_cons_of_mem _ h1.1)) (hb.2 d (List.mem_cons_of_mem _ h1.2))

/-! ### The sampler -/

theorem sampleFrom_length (n : Nat) (bs : Bytes) (p : Poly) (h : sampleFrom n bs = some p) : p.length = n := by
  induction n, bs using sampleFrom.induct generalizing p with
  | case1 => simp only [sampleFrom, Option.some.injEq] at h; simp [← h]
  | case2 need b0 b1 bs val hv ih =>
    rw [sampleFrom, if_pos hv, Option.map_eq_some_iff] at h
    obtain ⟨p', hp', rfl⟩ := h
    simp [ih p' hp']
  | case3 need b0 b1 bs val hv ih =>
    rw [sampleFrom, if_neg hv] at h
    exact ih p h
  | case4 => simp_all [sampleFrom]

/-- What a successful `mapM` of Option gives, element by element. -/
theorem mapM_eq_some {α β : Type} {f : α → Option β} {l : List α} {r : List β} (h : l.mapM f = some r) :
    r.length = l.length ∧ ∀ y ∈ r, ∃ x ∈ l, f x = some y := by
  induction l generalizing r with
  | nil =>
    simp only [List.mapM_nil, Option.pure_def, Option.some.injEq] at h
    subst h
    simp
  | cons a l ih =>
    simp only [List.mapM_cons, Option.pure_def, Option.bind_eq_bind, Option.bind_eq_some_iff, Option.some.injEq] at h
    obtain ⟨y, hy, ys, hys, rfl⟩ := h
    obtain ⟨h1, h2⟩ := ih hys
    refine ⟨by simp [h1], fun z hz => ?_⟩
    rcases List.mem_cons.1 hz with rfl | hz
    · exact ⟨a, List.mem_cons_self, hy⟩
    · obtain ⟨x, hx, hfx⟩ := h2 z hz
      exact ⟨x, List.mem_cons_of_mem _ hx, hfx⟩

theorem genmatrixF_shape {h : Sponge} {fuel k : Nat} {seed : Bytes} {tr : Bool} {a : List (List Poly)}
    (e : genmatrixF h fuel seed tr k = some a) : a.length = k ∧ ∀ row ∈ a, IsVec k row := by
  obtain ⟨h1, h2⟩ := mapM_eq_some e
  refine ⟨by simpa using h1, fun row hrow => ?_⟩
  obtain ⟨i, -, hi⟩ := h2 row hrow
  obtain ⟨h3, h4⟩ := mapM_eq_some hi
  refine ⟨by simpa using h3, fun p hp => ?_⟩
  obtain ⟨j, -, hj⟩ := h4 p hp
  exact sampleFrom_length _ _ _ hj

theorem genmatrixF_flatten {h : Sponge} {fuel k : Nat} {seed : Bytes} {tr : Bool} {a : List (List Poly)}
    (e : genmatrixF h fuel seed tr k = some a) : IsVec (k * k) a.flatten := by
  obtain ⟨h1, h2⟩ := genmatrixF_shape e
  refine ⟨?_, fun p hp => ?_⟩
  · have := flatMap_length (f := fun row : List Poly => row) (n := k) fun row hrow => (h2 row hrow).1
    rw [← h1, ← List.flatMap_id]
    simpa [h1] using this
  · obtain ⟨row, hrow, hp⟩ := List.mem_flatten.1 hp
    exact (h2 row hrow).2 p hp

/-! ### The sponge -/

@[simp] theorem squeezeFrom_length (rate n : Nat) (block : Bytes) (a : List Lane) :
    (squeezeFrom rate n block a).length = n := by
  induction n, block, a using squeezeFrom.induct (rate := rate) with
  | case1 => simp [squeezeFrom]
  | case2 n a v block ih => simp [squeezeFrom, ih]
  | case3 n a a' v block hv ih =>
    rw [squeezeFrom]
    show (match (bytesOfLanes (keccakF a)).take rate with
      | v :: block => v :: squeezeFrom rate n block (keccakF a)
      | [] => 0 :: squeezeFrom rate n [] (keccakF a)).length = n + 1
    rw [show (bytesOfLanes (keccakF a)).take rate = _ from hv]
    simpa using ih
  | case4 n a a' hv ih =>
    rw [squeezeFrom]
    show (match (bytesOfLanes (keccakF a)).take rate with
      | v :: block => v :: squeezeFrom rate n block (keccakF a)
      | [] => 0 :: squeezeFrom rate n [] (keccakF a)).length = n + 1
    rw [show (bytesOfLanes (keccakF a)).take rate = _ from hv]
    simpa using ih

/-- The output lengths of R15. -/
structure Sized (h : Sponge) : Prop where
  sha3_256 : ∀ x, (h.sha3_256 x).length = 32
  sha3_512 : ∀ x, (h.sha3_512 x).length = 64
  shake128 : ∀ x n, (h.shake128 x n).length = n
  shake256 : ∀ x n, (h.shake256 x n).length = n

theorem sponge_sized : Sized sponge := by
  constructor <;> intros <;> simp [sponge, fips202, spongeBytes]

/-! ### The IND-CPA scheme and the KEM -/

theorem noiseVec_isVec (h : Sponge) (seed : Bytes) (eta first k : Nat) : IsVec k (noiseVec h seed eta first k) := by
  refine ⟨by simp [noiseVec], fun p hp => ?_⟩
  obtain ⟨i, -, rfl⟩ := List.mem_map.1 hp
  exact getnoiseF_length _ _ _ _

theorem matVec_isVec {k : Nat} (hk : 0 < k) {a : List (List Poly)} (h1 : a.length = k) (h2 : ∀ row ∈ a, IsVec k row)
    {v : List Poly} (hv : IsVec k v) : IsVec k (a.map fun row => paccF v row) := by
  refine ⟨by simpa using h1, fun p hp => ?_⟩
  obtain ⟨row, hrow, rfl⟩ := List.mem_map.1 hp
  exact paccF_length hk hv (h2 row hrow)

theorem cpaKeypairF_lengths {h : Sponge} (hh : Sized h) {fuel k eta : Nat} (hk : 0 < k) {d : Bytes} {ks : Bytes × Bytes}
    (e : cpaKeypairF h fuel k eta d = some ks) : ks.1.length = pkLen k ∧ ks.2.length = skcLen k := by
  rw [cpaKeypairF] at e
  simp only at e
  split at e
  · cases e
  · rename_i a ha
    obtain rfl := Option.some.inj e
    obtain ⟨h1, h2⟩ := genmatrixF_shape ha
    have hs := vnttF_isVec (noiseVec_isVec h (((h.sha3_512 d).drop 32).take 32) eta 0 k)
    have ht := vaddF_isVec (vinvnttF_isVec (matVec_isVec hk h1 h2 hs))
      (noiseVec_isVec h (((h.sha3_512 d).drop 32).take 32) eta k k)
    exact ⟨by simp [vcompressF_length ht, hh.sha3_512, pkLen], by simp [vtobytesF_length hs, skcLen]⟩

theorem cpaEncF_length {h : Sponge} {fuel k eta : Nat} (hk : 0 < k) {m pk coins ct : Bytes} (hm : m.length = 32)
    (e : cpaEncF h fuel k eta m pk coins = some ct) : ct.length = ctLen k := by
  rw [cpaEncF] at e
  simp only at e
  split at e
  · cases e
  · rename_i a ha
    obtain rfl := Option.some.inj e
    obtain ⟨h1, h2⟩ := genmatrixF_shape ha
    have hr := vnttF_isVec (noiseVec_isVec h coins eta 0 k)
    have hb := vaddF_isVec (vinvnttF_isVec (matVec_isVec hk h1 h2 hr)) (noiseVec_isVec h coins eta k k)
    have ht := vnttF_isVec (vdecompressF_isVec k (pk.take (352 * k)))
    have hkp : IsPoly (frommsgF m) := by rw [IsPoly, frommsgF_length, hm]
    have hv := paddF_length (paddF_length (invnttF_length (paccF_length hk ht hr))
      (getnoiseF_length h coins (BitVec.ofNat 8 (2 * k)) eta)) hkp
    rw [List.length_append, vcompressF_length hb, compressF_length 3 hv, ctLen]

theorem cpaDecF_length {k : Nat} (hk : 0 < k) (ct sk : Bytes) : (cpaDecF k ct sk).length = 32 :=
  tomsgF_length (psubF_length (invnttF_length (paccF_length hk (vfrombytesF_isVec k _)
    (vnttF_isVec (vdecompressF_isVec k _)))) (decompressF_length 3 _))

theorem kemKeygenF_lengths {h : Sponge} (hh : Sized h) {fuel k eta : Nat} (hk : 0 < k) {d z : Bytes} (hz : z.length = 32)
    {ks : Bytes × Bytes} (e : kemKeygenF h fuel k eta d z = some ks) :
    ks.1.length = pkLen k ∧ ks.2.length = skLen k := by
  rw [kemKeygenF] at e
  split at e
  · cases e
  · rename_i pk skc hks
    obtain rfl := Option.some.inj e
    obtain ⟨h1, h2⟩ := cpaKeypairF_lengths hh hk hks
    refine ⟨h1, ?_⟩
    simp only [List.length_append, hh.sha3_256, hz] at h1 h2 ⊢
    simp only [h1, h2, pkLen, skcLen, skLen]
    omega

theorem kemEncapsF_lengths {h : Sponge} (hh : Sized h) {fuel k eta : Nat} (hk : 0 < k) {r pk : Bytes} {cs : Bytes × Bytes}
    (e : kemEncapsF h fuel k eta r pk = some cs) : cs.1.length = ctLen k ∧ cs.2.length = 32 := by
  rw [kemEncapsF] at e
  split at e
  · cases e
  · rename_i ct hct
    obtain rfl := Option.some.inj e
    exact ⟨cpaEncF_length hk (hh.sha3_256 r) hct, hh.sha3_256 _⟩

theorem kemDecapsF_length {h : Sponge} (hh : Sized h) {fuel k eta : Nat} {ct sk ss : Bytes}
    (e : kemDecapsF h fuel k eta ct sk = some ss) : ss.length = 32 := by
  rw [kemDecapsF] at e
  simp only at e
  split at e
  · cases e
  · obtain rfl := Option.some.inj e
    exact hh.sha3_256 _

end Sys2Proof.Machine
end

