-- ==== Sys2Proof/Laws/State.lean ====
section
/-! SUPPORT. One lemma per field per update of State, so that no proof unfolds a record update. -/

namespace Sys2Proof.Machine

open Sys2Proof

variable (s : State)

@[simp] theorem State.complete_ie : s.complete.ie = s.ie := rfl
@[simp] theorem State.complete_done : s.complete.done = true := rfl
@[simp] theorem State.complete_err : s.complete.err = s.err := rfl
@[simp] theorem State.complete_ovr : s.complete.ovr = s.ovr := rfl
@[simp] theorem State.complete_ecode : s.complete.ecode = s.ecode := rfl
@[simp] theorem State.complete_set : s.complete.set = s.set := rfl
@[simp] theorem State.complete_cmd : s.complete.cmd = s.cmd := rfl
@[simp] theorem State.complete_arg : s.complete.arg = s.arg := rfl
@[simp] theorem State.complete_res : s.complete.res = s.res := rfl
@[simp] theorem State.complete_keylen : s.complete.keylen = s.keylen := rfl
@[simp] theorem State.complete_ctlen : s.complete.ctlen = s.ctlen := rfl
@[simp] theorem State.complete_preg : s.complete.preg = s.preg := rfl
@[simp] theorem State.complete_buf : s.complete.buf = s.buf := rfl
@[simp] theorem State.complete_eng : s.complete.eng = .idle := rfl
@[simp] theorem State.complete_host : s.complete.host = s.host := rfl
@[simp] theorem State.complete_draws : s.complete.draws = s.draws := rfl

@[simp] theorem State.completeError_ie (c : CmdError) : (s.completeError c).ie = s.ie := rfl
@[simp] theorem State.completeError_done (c : CmdError) : (s.completeError c).done = true := rfl
@[simp] theorem State.completeError_err (c : CmdError) : (s.completeError c).err = true := rfl
@[simp] theorem State.completeError_ovr (c : CmdError) : (s.completeError c).ovr = s.ovr := rfl
@[simp] theorem State.completeError_ecode (c : CmdError) : (s.completeError c).ecode = some c := rfl
@[simp] theorem State.completeError_set (c : CmdError) : (s.completeError c).set = s.set := rfl
@[simp] theorem State.completeError_cmd (c : CmdError) : (s.completeError c).cmd = s.cmd := rfl
@[simp] theorem State.completeError_arg (c : CmdError) : (s.completeError c).arg = s.arg := rfl
@[simp] theorem State.completeError_res (c : CmdError) : (s.completeError c).res = s.res := rfl
@[simp] theorem State.completeError_keylen (c : CmdError) : (s.completeError c).keylen = s.keylen := rfl
@[simp] theorem State.completeError_ctlen (c : CmdError) : (s.completeError c).ctlen = s.ctlen := rfl
@[simp] theorem State.completeError_preg (c : CmdError) : (s.completeError c).preg = s.preg := rfl
@[simp] theorem State.completeError_buf (c : CmdError) : (s.completeError c).buf = s.buf := rfl
@[simp] theorem State.completeError_eng (c : CmdError) : (s.completeError c).eng = .idle := rfl
@[simp] theorem State.completeError_host (c : CmdError) : (s.completeError c).host = s.host := rfl
@[simp] theorem State.completeError_draws (c : CmdError) : (s.completeError c).draws = s.draws := rfl

@[simp] theorem State.acknowledge_ie (a b c : Bool) : (s.acknowledge a b c).ie = s.ie := rfl
@[simp] theorem State.acknowledge_done (a b c : Bool) : (s.acknowledge a b c).done = (s.done && !a) := rfl
@[simp] theorem State.acknowledge_err (a b c : Bool) : (s.acknowledge a b c).err = (s.err && !b) := rfl
@[simp] theorem State.acknowledge_ovr (a b c : Bool) : (s.acknowledge a b c).ovr = (s.ovr && !c) := rfl
@[simp] theorem State.acknowledge_ecode (a b c : Bool) : (s.acknowledge a b c).ecode = (if b then none else s.ecode) := rfl
@[simp] theorem State.acknowledge_set (a b c : Bool) : (s.acknowledge a b c).set = s.set := rfl
@[simp] theorem State.acknowledge_cmd (a b c : Bool) : (s.acknowledge a b c).cmd = s.cmd := rfl
@[simp] theorem State.acknowledge_arg (a b c : Bool) : (s.acknowledge a b c).arg = s.arg := rfl
@[simp] theorem State.acknowledge_res (a b c : Bool) : (s.acknowledge a b c).res = s.res := rfl
@[simp] theorem State.acknowledge_keylen (a b c : Bool) : (s.acknowledge a b c).keylen = s.keylen := rfl
@[simp] theorem State.acknowledge_ctlen (a b c : Bool) : (s.acknowledge a b c).ctlen = s.ctlen := rfl
@[simp] theorem State.acknowledge_preg (a b c : Bool) : (s.acknowledge a b c).preg = s.preg := rfl
@[simp] theorem State.acknowledge_buf (a b c : Bool) : (s.acknowledge a b c).buf = s.buf := rfl
@[simp] theorem State.acknowledge_eng (a b c : Bool) : (s.acknowledge a b c).eng = s.eng := rfl
@[simp] theorem State.acknowledge_host (a b c : Bool) : (s.acknowledge a b c).host = s.host := rfl
@[simp] theorem State.acknowledge_draws (a b c : Bool) : (s.acknowledge a b c).draws = s.draws := rfl

@[simp] theorem State.applyWrites_ie (w : Writes) : (s.applyWrites w).ie = s.ie := rfl
@[simp] theorem State.applyWrites_done (w : Writes) : (s.applyWrites w).done = s.done := rfl
@[simp] theorem State.applyWrites_err (w : Writes) : (s.applyWrites w).err = s.err := rfl
@[simp] theorem State.applyWrites_ovr (w : Writes) : (s.applyWrites w).ovr = s.ovr := rfl
@[simp] theorem State.applyWrites_ecode (w : Writes) : (s.applyWrites w).ecode = s.ecode := rfl
@[simp] theorem State.applyWrites_set (w : Writes) : (s.applyWrites w).set = s.set := rfl
@[simp] theorem State.applyWrites_cmd (w : Writes) : (s.applyWrites w).cmd = s.cmd := rfl
@[simp] theorem State.applyWrites_arg (w : Writes) : (s.applyWrites w).arg = s.arg := rfl
@[simp] theorem State.applyWrites_res (w : Writes) : (s.applyWrites w).res = w.res.getD s.res := rfl
@[simp] theorem State.applyWrites_keylen (w : Writes) : (s.applyWrites w).keylen = s.keylen := rfl
@[simp] theorem State.applyWrites_ctlen (w : Writes) : (s.applyWrites w).ctlen = s.ctlen := rfl
@[simp] theorem State.applyWrites_preg (w : Writes) : (s.applyWrites w).preg = w.preg.foldl (fun m x => Memory.storePolys m x.1 x.2) s.preg := rfl
@[simp] theorem State.applyWrites_buf (w : Writes) : (s.applyWrites w).buf = w.buf.foldl (fun m x => Memory.storeBytes m x.1 x.2) s.buf := rfl
@[simp] theorem State.applyWrites_eng (w : Writes) : (s.applyWrites w).eng = s.eng := rfl
@[simp] theorem State.applyWrites_host (w : Writes) : (s.applyWrites w).host = s.host := rfl
@[simp] theorem State.applyWrites_draws (w : Writes) : (s.applyWrites w).draws = s.draws := rfl

@[simp] theorem State.acceptWith_ie (w : Word) (n : Nat) : (s.acceptWith w n).ie = s.ie := rfl
@[simp] theorem State.acceptWith_done (w : Word) (n : Nat) : (s.acceptWith w n).done = false := rfl
@[simp] theorem State.acceptWith_err (w : Word) (n : Nat) : (s.acceptWith w n).err = false := rfl
@[simp] theorem State.acceptWith_ovr (w : Word) (n : Nat) : (s.acceptWith w n).ovr = s.ovr := rfl
@[simp] theorem State.acceptWith_ecode (w : Word) (n : Nat) : (s.acceptWith w n).ecode = none := rfl
@[simp] theorem State.acceptWith_set (w : Word) (n : Nat) : (s.acceptWith w n).set = s.set := rfl
@[simp] theorem State.acceptWith_cmd (w : Word) (n : Nat) : (s.acceptWith w n).cmd = w := rfl
@[simp] theorem State.acceptWith_arg (w : Word) (n : Nat) : (s.acceptWith w n).arg = s.arg := rfl
@[simp] theorem State.acceptWith_res (w : Word) (n : Nat) : (s.acceptWith w n).res = s.res := rfl
@[simp] theorem State.acceptWith_keylen (w : Word) (n : Nat) : (s.acceptWith w n).keylen = s.keylen := rfl
@[simp] theorem State.acceptWith_ctlen (w : Word) (n : Nat) : (s.acceptWith w n).ctlen = s.ctlen := rfl
@[simp] theorem State.acceptWith_preg (w : Word) (n : Nat) : (s.acceptWith w n).preg = s.preg := rfl
@[simp] theorem State.acceptWith_buf (w : Word) (n : Nat) : (s.acceptWith w n).buf = s.buf := rfl
@[simp] theorem State.acceptWith_eng (w : Word) (n : Nat) : (s.acceptWith w n).eng = .busy (s.snapshotFor w) n := rfl
@[simp] theorem State.acceptWith_host (w : Word) (n : Nat) : (s.acceptWith w n).host = s.host := rfl
@[simp] theorem State.acceptWith_draws (w : Word) (n : Nat) : (s.acceptWith w n).draws = s.draws := rfl

@[simp] theorem State.accept_ie (w : Word) : (s.accept w).ie = s.ie := rfl
@[simp] theorem State.accept_done (w : Word) : (s.accept w).done = false := rfl
@[simp] theorem State.accept_err (w : Word) : (s.accept w).err = false := rfl
@[simp] theorem State.accept_ovr (w : Word) : (s.accept w).ovr = s.ovr := rfl
@[simp] theorem State.accept_ecode (w : Word) : (s.accept w).ecode = none := rfl
@[simp] theorem State.accept_set (w : Word) : (s.accept w).set = s.set := rfl
@[simp] theorem State.accept_cmd (w : Word) : (s.accept w).cmd = w := rfl
@[simp] theorem State.accept_arg (w : Word) : (s.accept w).arg = s.arg := rfl
@[simp] theorem State.accept_res (w : Word) : (s.accept w).res = s.res := rfl
@[simp] theorem State.accept_keylen (w : Word) : (s.accept w).keylen = s.keylen := rfl
@[simp] theorem State.accept_ctlen (w : Word) : (s.accept w).ctlen = s.ctlen := rfl
@[simp] theorem State.accept_preg (w : Word) : (s.accept w).preg = s.preg := rfl
@[simp] theorem State.accept_buf (w : Word) : (s.accept w).buf = s.buf := rfl
@[simp] theorem State.accept_eng (w : Word) : (s.accept w).eng = .busy (s.snapshotFor w) (Config.latBefore s.draws (s.latKey w)) := rfl
@[simp] theorem State.accept_host (w : Word) : (s.accept w).host = s.host := rfl
@[simp] theorem State.accept_draws (w : Word) : (s.accept w).draws = s.draws + 1 := rfl

@[simp] theorem State.clearRegisters_ie : s.clearRegisters.ie = false := rfl
@[simp] theorem State.clearRegisters_done : s.clearRegisters.done = false := rfl
@[simp] theorem State.clearRegisters_err : s.clearRegisters.err = false := rfl
@[simp] theorem State.clearRegisters_ovr : s.clearRegisters.ovr = false := rfl
@[simp] theorem State.clearRegisters_ecode : s.clearRegisters.ecode = none := rfl
@[simp] theorem State.clearRegisters_set : s.clearRegisters.set = .unconfigured := rfl
@[simp] theorem State.clearRegisters_cmd : s.clearRegisters.cmd = 0 := rfl
@[simp] theorem State.clearRegisters_arg : s.clearRegisters.arg = 0 := rfl
@[simp] theorem State.clearRegisters_res : s.clearRegisters.res = 0 := rfl
@[simp] theorem State.clearRegisters_keylen : s.clearRegisters.keylen = 0 := rfl
@[simp] theorem State.clearRegisters_ctlen : s.clearRegisters.ctlen = 0 := rfl
@[simp] theorem State.clearRegisters_preg : s.clearRegisters.preg = s.preg := rfl
@[simp] theorem State.clearRegisters_buf : s.clearRegisters.buf = s.buf := rfl
@[simp] theorem State.clearRegisters_eng : s.clearRegisters.eng = .idle := rfl
@[simp] theorem State.clearRegisters_host : s.clearRegisters.host = s.host := rfl
@[simp] theorem State.clearRegisters_draws : s.clearRegisters.draws = s.draws := rfl

@[simp] theorem State.hardReset_ie : s.hardReset.ie = false := rfl
@[simp] theorem State.hardReset_done : s.hardReset.done = false := rfl
@[simp] theorem State.hardReset_err : s.hardReset.err = false := rfl
@[simp] theorem State.hardReset_ovr : s.hardReset.ovr = false := rfl
@[simp] theorem State.hardReset_ecode : s.hardReset.ecode = none := rfl
@[simp] theorem State.hardReset_set : s.hardReset.set = .unconfigured := rfl
@[simp] theorem State.hardReset_cmd : s.hardReset.cmd = 0 := rfl
@[simp] theorem State.hardReset_arg : s.hardReset.arg = 0 := rfl
@[simp] theorem State.hardReset_res : s.hardReset.res = 0 := rfl
@[simp] theorem State.hardReset_keylen : s.hardReset.keylen = 0 := rfl
@[simp] theorem State.hardReset_ctlen : s.hardReset.ctlen = 0 := rfl
@[simp] theorem State.hardReset_preg : s.hardReset.preg = [] := rfl
@[simp] theorem State.hardReset_buf : s.hardReset.buf = [] := rfl
@[simp] theorem State.hardReset_eng : s.hardReset.eng = .idle := rfl
@[simp] theorem State.hardReset_host : s.hardReset.host = s.host := rfl
@[simp] theorem State.hardReset_draws : s.hardReset.draws = s.draws := rfl

@[simp] theorem State.setHreg_ie (h : Fin 8) (v : Word) : (s.setHreg h v).ie = s.ie := rfl
@[simp] theorem State.setHreg_done (h : Fin 8) (v : Word) : (s.setHreg h v).done = s.done := rfl
@[simp] theorem State.setHreg_err (h : Fin 8) (v : Word) : (s.setHreg h v).err = s.err := rfl
@[simp] theorem State.setHreg_ovr (h : Fin 8) (v : Word) : (s.setHreg h v).ovr = s.ovr := rfl
@[simp] theorem State.setHreg_ecode (h : Fin 8) (v : Word) : (s.setHreg h v).ecode = s.ecode := rfl
@[simp] theorem State.setHreg_set (h : Fin 8) (v : Word) : (s.setHreg h v).set = s.set := rfl
@[simp] theorem State.setHreg_cmd (h : Fin 8) (v : Word) : (s.setHreg h v).cmd = s.cmd := rfl
@[simp] theorem State.setHreg_arg (h : Fin 8) (v : Word) : (s.setHreg h v).arg = s.arg := rfl
@[simp] theorem State.setHreg_res (h : Fin 8) (v : Word) : (s.setHreg h v).res = s.res := rfl
@[simp] theorem State.setHreg_keylen (h : Fin 8) (v : Word) : (s.setHreg h v).keylen = s.keylen := rfl
@[simp] theorem State.setHreg_ctlen (h : Fin 8) (v : Word) : (s.setHreg h v).ctlen = s.ctlen := rfl
@[simp] theorem State.setHreg_preg (h : Fin 8) (v : Word) : (s.setHreg h v).preg = s.preg := rfl
@[simp] theorem State.setHreg_buf (h : Fin 8) (v : Word) : (s.setHreg h v).buf = s.buf := rfl
@[simp] theorem State.setHreg_eng (h : Fin 8) (v : Word) : (s.setHreg h v).eng = s.eng := rfl
@[simp] theorem State.setHreg_host (h : Fin 8) (v : Word) : (s.setHreg h v).host = { s.host with regs := s.host.regs.set h.val v } := rfl
@[simp] theorem State.setHreg_draws (h : Fin 8) (v : Word) : (s.setHreg h v).draws = s.draws := rfl

@[simp] theorem State.goto_ie (n : Nat) : (s.goto n).ie = s.ie := rfl
@[simp] theorem State.goto_done (n : Nat) : (s.goto n).done = s.done := rfl
@[simp] theorem State.goto_err (n : Nat) : (s.goto n).err = s.err := rfl
@[simp] theorem State.goto_ovr (n : Nat) : (s.goto n).ovr = s.ovr := rfl
@[simp] theorem State.goto_ecode (n : Nat) : (s.goto n).ecode = s.ecode := rfl
@[simp] theorem State.goto_set (n : Nat) : (s.goto n).set = s.set := rfl
@[simp] theorem State.goto_cmd (n : Nat) : (s.goto n).cmd = s.cmd := rfl
@[simp] theorem State.goto_arg (n : Nat) : (s.goto n).arg = s.arg := rfl
@[simp] theorem State.goto_res (n : Nat) : (s.goto n).res = s.res := rfl
@[simp] theorem State.goto_keylen (n : Nat) : (s.goto n).keylen = s.keylen := rfl
@[simp] theorem State.goto_ctlen (n : Nat) : (s.goto n).ctlen = s.ctlen := rfl
@[simp] theorem State.goto_preg (n : Nat) : (s.goto n).preg = s.preg := rfl
@[simp] theorem State.goto_buf (n : Nat) : (s.goto n).buf = s.buf := rfl
@[simp] theorem State.goto_eng (n : Nat) : (s.goto n).eng = s.eng := rfl
@[simp] theorem State.goto_host (n : Nat) : (s.goto n).host = { s.host with pos := n } := rfl
@[simp] theorem State.goto_draws (n : Nat) : (s.goto n).draws = s.draws := rfl

@[simp] theorem State.nextLine_ie : s.nextLine.ie = s.ie := rfl
@[simp] theorem State.nextLine_done : s.nextLine.done = s.done := rfl
@[simp] theorem State.nextLine_err : s.nextLine.err = s.err := rfl
@[simp] theorem State.nextLine_ovr : s.nextLine.ovr = s.ovr := rfl
@[simp] theorem State.nextLine_ecode : s.nextLine.ecode = s.ecode := rfl
@[simp] theorem State.nextLine_set : s.nextLine.set = s.set := rfl
@[simp] theorem State.nextLine_cmd : s.nextLine.cmd = s.cmd := rfl
@[simp] theorem State.nextLine_arg : s.nextLine.arg = s.arg := rfl
@[simp] theorem State.nextLine_res : s.nextLine.res = s.res := rfl
@[simp] theorem State.nextLine_keylen : s.nextLine.keylen = s.keylen := rfl
@[simp] theorem State.nextLine_ctlen : s.nextLine.ctlen = s.ctlen := rfl
@[simp] theorem State.nextLine_preg : s.nextLine.preg = s.preg := rfl
@[simp] theorem State.nextLine_buf : s.nextLine.buf = s.buf := rfl
@[simp] theorem State.nextLine_eng : s.nextLine.eng = s.eng := rfl
@[simp] theorem State.nextLine_host : s.nextLine.host = { s.host with pos := s.host.pos + 1 } := rfl
@[simp] theorem State.nextLine_draws : s.nextLine.draws = s.draws := rfl

@[simp] theorem State.snap_complete_set : s.complete.snap.set = s.set := rfl

/-- While BUSY the snapshot is the engine's, whatever the registers hold (R54). -/
theorem State.snap_of_busy {sn : Snapshot} {n : Nat} (h : s.eng = .busy sn n) : s.snap = sn := by
  simp [State.snap, h]

/-- The snapshot an accepted command reads is that of its acceptance (R51, R54). -/
@[simp] theorem State.snap_acceptWith (w : Word) (n : Nat) : (s.acceptWith w n).snap = s.snapshotFor w := rfl

@[simp] theorem State.snap_accept (w : Word) : (s.accept w).snap = s.snapshotFor w := rfl

end Sys2Proof.Machine
end

