-- ==== Sys2Proof/Laws/Exec.lean ====
section
/-! SUPPORT. What a command can do, said once: the commit (spec/10_state.md R52), the checks (spec/60_exceptions.md R302), and
for every command that its writes stay inside its destinations. Proofs about a command cite these and do not unfold it. -/

namespace Sys2Proof.Machine

open Sys2Proof

/-! ### The computation of a command -/

theorem bind_eq_ok {α β : Type} {x : Except Stop α} {f : α → Except Stop β} {b : β} :
    (x >>= f) = .ok b ↔ ∃ a, x = .ok a ∧ f a = .ok b := by
  cases x with
  | error e => simp [bind, Except.bind]
  | ok a => simp [bind, Except.bind]

theorem bind_eq_error {α β : Type} {x : Except Stop α} {f : α → Except Stop β} {e : Stop} :
    (x >>= f) = .error e ↔ x = .error e ∨ ∃ a, x = .ok a ∧ f a = .error e := by
  cases x with
  | error e => simp [bind, Except.bind]
  | ok a => simp [bind, Except.bind]

@[simp] theorem error_bind {α β : Type} (e : Stop) (f : α → Except Stop β) : ((.error e : Except Stop α) >>= f) = .error e := rfl

@[simp] theorem ok_bind {α β : Type} (a : α) (f : α → Except Stop β) : ((.ok a : Except Stop α) >>= f) = f a := rfl

@[simp] theorem orFault_some {α : Type} (f : Fault) (a : α) : orFault f (some a) = .ok a := rfl

@[simp] theorem orFault_none {α : Type} (f : Fault) : orFault f (none : Option α) = .error (.fault f) := rfl

theorem orFault_eq_ok {α : Type} {f : Fault} {x : Option α} {a : α} : orFault f x = .ok a ↔ x = some a := by
  cases x <;> simp

@[simp] theorem require_true (c : CmdError) : require true c = .ok () := rfl

@[simp] theorem require_false (c : CmdError) : require false c = .error (.err c) := rfl

theorem require_eq_ok {b : Bool} {c : CmdError} {u : Unit} : require b c = .ok u ↔ b = true := by cases b <;> simp

/-- A computation that never answers an error code: it gives a value or a fault of the model. -/
def NoCode {α : Type} (x : Except Stop α) : Prop := ∀ c, x ≠ .error (.err c)

theorem noCode_pure {α : Type} (a : α) : NoCode (pure a : Except Stop α) := fun c h => by cases h

theorem noCode_orFault {α : Type} (f : Fault) (x : Option α) : NoCode (orFault f x) := by
  intro c h
  cases x with
  | none => simp at h
  | some a => simp at h

theorem noCode_bind {α β : Type} {x : Except Stop α} {f : α → Except Stop β} (hx : NoCode x) (hf : ∀ a, NoCode (f a)) :
    NoCode (x >>= f) := by
  intro c h
  rcases bind_eq_error.1 h with h | ⟨a, -, h⟩
  · exact hx c h
  · exact hf a c h

/-! ### The commit -/

@[simp] theorem State.commit_ok (s : State) (w : Writes) : s.commit (.ok w) = .next (s.applyWrites w).complete := rfl

@[simp] theorem State.commit_err (s : State) (c : CmdError) : s.commit (.error (.err c)) = .next (s.completeError c) := rfl

@[simp] theorem State.commit_fault (s : State) (f : Fault) : s.commit (.error (.fault f)) = .fault f := rfl

/-- All that a commit can answer with (R52). -/
theorem State.commit_cases (s : State) (r : Except Stop Writes) :
    (∃ w, r = .ok w ∧ s.commit r = .next (s.applyWrites w).complete) ∨
    (∃ c, r = .error (.err c) ∧ s.commit r = .next (s.completeError c)) ∨
    (∃ f, r = .error (.fault f) ∧ s.commit r = .fault f) := by
  match r with
  | .ok w => exact .inl ⟨w, rfl, rfl⟩
  | .error (.err c) => exact .inr (.inl ⟨c, rfl, rfl⟩)
  | .error (.fault f) => exact .inr (.inr ⟨f, rfl, rfl⟩)

/-! ### The checks -/

theorem ParamSet.k_pos {set : ParamSet} (h : set ≠ .unconfigured) : 0 < set.k := by
  cases set <;> simp_all [ParamSet.k]

theorem ParamSet.k_le (set : ParamSet) : set.k ≤ 4 := by cases set <;> decide

/-- The private-key check is passed (R276), where the command makes one. -/
def State.KeyHashOk (s : State) (i : Instr) : Prop :=
  i.checksKeyHash = true →
    ∃ sk, Memory.load s.buf regionSK (skLen s.snap.set.k) = some sk ∧ skCheck sponge s.snap.set.k sk = true

theorem State.checkKeyHash_eq_ok (s : State) (i : Instr) : s.checkKeyHash i = .ok () ↔ s.KeyHashOk i := by
  rw [State.checkKeyHash, State.KeyHashOk]
  cases i.checksKeyHash
  · simp
  · simp only [if_true, true_implies, bind_eq_ok, State.memRead, orFault_eq_ok, require_eq_ok]

/-- The checks pass exactly when each of R302 does. -/
theorem State.check_eq_ok (s : State) (i : Instr) :
    s.check i = .ok () ↔
      (i.needsParam = true → s.snap.set ≠ .unconfigured) ∧
      (∀ g ∈ i.groups s.snap.set.k, g.1 + g.2 ≤ 32) ∧
      (∀ r, i.bufRange s.snap.set.k s.snap.set.eta = some r → r.1 + r.2 ≤ 8192) ∧
      (∀ n, i.keySize s.snap.set = some n → s.snap.keylen.toNat = n) ∧
      (∀ n, i.ctSize s.snap.set = some n → s.snap.ctlen.toNat = n) ∧
      s.KeyHashOk i := by
  rw [State.check]
  simp only [bind_eq_ok, require_eq_ok, State.checkKeyHash_eq_ok]
  have h1 : (!(i.needsParam && decide (s.snap.set = .unconfigured))) = true ↔
      (i.needsParam = true → s.snap.set ≠ .unconfigured) := by
    cases i.needsParam <;> simp
  have h2 : (i.groups s.snap.set.k).all groupOk = true ↔ ∀ g ∈ i.groups s.snap.set.k, g.1 + g.2 ≤ 32 := by
    simp [groupOk]
  have h3 : (i.bufRange s.snap.set.k s.snap.set.eta).all rangeOk = true ↔
      ∀ r, i.bufRange s.snap.set.k s.snap.set.eta = some r → r.1 + r.2 ≤ 8192 := by
    cases i.bufRange s.snap.set.k s.snap.set.eta with
    | none => simp
    | some r =>
      simp only [Option.all_some, Option.some.injEq, forall_eq']
      exact decide_eq_true_iff
  have h4 (v : BitVec 16) (o : Option Nat) : lengthOk v o = true ↔ ∀ n, o = some n → v.toNat = n := by
    cases o <;> simp [lengthOk]
  rw [h1, h2, h3, h4, h4]
  constructor
  · rintro ⟨_, ha, _, hb, _, hc, _, hd, _, he, hf⟩
    exact ⟨ha, hb, hc, hd, he, hf⟩
  · rintro ⟨ha, hb, hc, hd, he, hf⟩
    exact ⟨(), ha, (), hb, (), hc, (), hd, (), he, hf⟩

/-! ### Every command -/

/-- The writes of a command that completes stay inside its destinations, and are as long as they. -/
structure Fits (i : Instr) (k : Nat) (w : Writes) : Prop where
  preg : ∀ x ∈ w.preg, i.pregDest k = some (x.1, x.2.length) ∧ ∀ p ∈ x.2, IsPoly p
  buf : ∀ x ∈ w.buf, (x.1, x.2.length) ∈ i.bufDest k
  res : ∀ v, w.res = some v → i.writesRes = true ∧ v.toNat < 2 ^ 16

/-- What `exec` does with a command: it commits the answer `r` of its computation, whose codes are those of the checks and
whose writes fit. -/
structure Executes (i : Instr) (s : State) (r : Except Stop Writes) : Prop where
  commits : exec i s = s.commit r
  ok : ∀ w, r = .ok w → s.check i = .ok () ∧ Fits i s.snap.set.k w
  stops : ∀ e, s.check i = .error e → r = .error e
  code : ∀ c, r = .error (.err c) → s.check i = .error (.err c)

theorem executes_of {i : Instr} {s : State} {f : Except Stop Writes}
    (hc : exec i s = s.commit (s.check i >>= fun _ => f)) (hf : NoCode f)
    (hfit : ∀ w, f = .ok w → s.check i = .ok () → Fits i s.snap.set.k w) :
    Executes i s (s.check i >>= fun _ => f) where
  commits := hc
  ok w h := by
    obtain ⟨u, h1, h2⟩ := bind_eq_ok.1 h
    exact ⟨h1, hfit w h2 h1⟩
  stops e h := by rw [h]; rfl
  code c h := by
    rcases bind_eq_error.1 h with h | ⟨_, -, h⟩
    · exact h
    · exact absurd h (hf c)

theorem fits_res {i : Instr} {k : Nat} {v : Coeff} (h : i.writesRes = true) :
    Fits i k { res := some (BitVec.ofNat 32 v.toNat) } where
  preg x hx := by simp at hx
  buf x hx := by simp at hx
  res u hu := by
    obtain rfl := Option.some.inj hu
    refine ⟨h, ?_⟩
    have := v.isLt
    rw [BitVec.toNat_ofNat]
    omega

theorem fits_none {i : Instr} {k : Nat} : Fits i k { } where
  preg x hx := by simp at hx
  buf x hx := by simp at hx
  res u hu := by simp at hu

theorem fits_regs {i : Instr} {k r : Nat} {ps : List Poly} (h : i.pregDest k = some (r, ps.length))
    (hp : ∀ p ∈ ps, IsPoly p) : Fits i k { preg := [(r, ps)] } where
  preg x hx := by
    obtain rfl := List.mem_singleton.1 hx
    exact ⟨h, hp⟩
  buf x hx := by simp at hx
  res u hu := by simp at hu

theorem fits_poly {i : Instr} {k r : Nat} {p : Poly} (h : i.pregDest k = some (r, 1)) (hp : IsPoly p) :
    Fits i k { preg := [(r, [p])] } :=
  fits_regs h fun p' hp' => by
    obtain rfl := List.mem_singleton.1 hp'
    exact hp

theorem fits_bytes {i : Instr} {k : Nat} {ws : List (Nat × Bytes)} (h : ∀ x ∈ ws, (x.1, x.2.length) ∈ i.bufDest k) :
    Fits i k { buf := ws } where
  preg x hx := by simp at hx
  buf := h
  res u hu := by simp at hu

theorem State.readPoly_eq_ok {s : State} {r : Nat} {p : Poly} : s.readPoly r = .ok p ↔ Memory.poly s.preg r = some p :=
  orFault_eq_ok

theorem State.readVec_eq_ok {s : State} {r k : Nat} {u : List Poly} :
    s.readVec r k = .ok u ↔ Memory.polys s.preg r k = some u := orFault_eq_ok

theorem State.memRead_eq_ok {s : State} {o n : Nat} {bs : Bytes} : s.memRead o n = .ok bs ↔ Memory.load s.buf o n = some bs :=
  orFault_eq_ok

theorem isVec_of_polys {m : Memory} {r k : Nat} {u : List Poly} (h : Memory.polys m r k = some u) : IsVec k u :=
  Memory.polys_length h

end Sys2Proof.Machine
end

