-- ==== Sys2Proof/Laws/Commands.lean ====
section
/-! SUPPORT. One lemma per command: it commits the answer of its computation, and its writes fit its destinations. -/

namespace Sys2Proof.Machine

open Sys2Proof

variable (s : State)

/-- The module rank is positive once the checks of a command that needs it have passed. -/
theorem k_pos_of_check {s : State} {i : Instr} (hi : i.needsParam = true) (h : s.check i = .ok ()) : 0 < s.snap.set.k :=
  ParamSet.k_pos (((s.check_eq_ok i).1 h).1 hi)

theorem execNop_executes : ∃ r, Executes .nop s r :=
  ⟨_, executes_of rfl (noCode_pure _) fun w h _ => by cases h; exact fits_none⟩

theorem execMontr_executes : ∃ r, Executes .montr s r :=
  ⟨_, executes_of rfl (noCode_pure _) fun w h _ => by cases h; exact fits_res rfl⟩

theorem execBarr_executes : ∃ r, Executes .barr s r :=
  ⟨_, executes_of rfl (noCode_pure _) fun w h _ => by cases h; exact fits_res rfl⟩

theorem execFreeze_executes : ∃ r, Executes .freeze s r :=
  ⟨_, executes_of rfl (noCode_pure _) fun w h _ => by cases h; exact fits_res rfl⟩

/-- A command that reads one register and writes one. -/
theorem executes_poly {i : Instr} {rs rd : Nat} {f : Poly → Poly}
    (hc : exec i s = s.commit (s.check i >>= fun _ => s.readPoly rs >>= fun p => pure { preg := [(rd, [f p])] }))
    (hd : i.pregDest s.snap.set.k = some (rd, 1)) (hf : ∀ {p : Poly}, IsPoly p → IsPoly (f p)) : ∃ r, Executes i s r :=
  ⟨_, executes_of hc (noCode_bind (noCode_orFault _ _) fun _ => noCode_pure _) fun w h _ => by
    obtain ⟨p, hp, h⟩ := bind_eq_ok.1 h
    cases h
    exact fits_poly hd (hf (Memory.poly_length (State.readPoly_eq_ok.1 hp)))⟩

/-- A command that reads two registers and writes one. -/
theorem executes_poly2 {i : Instr} {rs1 rs2 rd : Nat} {f : Poly → Poly → Poly}
    (hc : exec i s = s.commit (s.check i >>= fun _ => s.readPoly rs1 >>= fun a => s.readPoly rs2 >>= fun b =>
      pure { preg := [(rd, [f a b])] }))
    (hd : i.pregDest s.snap.set.k = some (rd, 1)) (hf : ∀ {a b : Poly}, IsPoly a → IsPoly b → IsPoly (f a b)) :
    ∃ r, Executes i s r :=
  ⟨_, executes_of hc (noCode_bind (noCode_orFault _ _) fun _ => noCode_bind (noCode_orFault _ _) fun _ => noCode_pure _)
    fun w h _ => by
      obtain ⟨a, ha, h⟩ := bind_eq_ok.1 h
      obtain ⟨b, hb, h⟩ := bind_eq_ok.1 h
      cases h
      exact fits_poly hd (hf (Memory.poly_length (State.readPoly_eq_ok.1 ha)) (Memory.poly_length (State.readPoly_eq_ok.1 hb)))⟩

/-- A command that packs one register into BUF. -/
theorem executes_pack {i : Instr} {rp boff n : Nat} {f : Poly → Bytes}
    (hc : exec i s = s.commit (s.check i >>= fun _ => s.readPoly rp >>= fun p => pure { buf := [(boff, f p)] }))
    (hd : (boff, n) ∈ i.bufDest s.snap.set.k) (hf : ∀ {p : Poly}, IsPoly p → (f p).length = n) : ∃ r, Executes i s r :=
  ⟨_, executes_of hc (noCode_bind (noCode_orFault _ _) fun _ => noCode_pure _) fun w h _ => by
    obtain ⟨p, hp, h⟩ := bind_eq_ok.1 h
    cases h
    refine fits_bytes fun x hx => ?_
    obtain rfl := List.mem_singleton.1 hx
    simpa only [hf (Memory.poly_length (State.readPoly_eq_ok.1 hp))] using hd⟩

/-- A command that unpacks bytes of BUF into one register. -/
theorem executes_unpack {i : Instr} {rp boff n : Nat} {f : Bytes → Poly}
    (hc : exec i s = s.commit (s.check i >>= fun _ => s.memRead boff n >>= fun bs => pure { preg := [(rp, [f bs])] }))
    (hd : i.pregDest s.snap.set.k = some (rp, 1)) (hf : ∀ {bs : Bytes}, bs.length = n → IsPoly (f bs)) :
    ∃ r, Executes i s r :=
  ⟨_, executes_of hc (noCode_bind (noCode_orFault _ _) fun _ => noCode_pure _) fun w h _ => by
    obtain ⟨bs, hb, h⟩ := bind_eq_ok.1 h
    cases h
    exact fits_poly hd (hf (Memory.load_length (State.memRead_eq_ok.1 hb)))⟩

theorem execNtt_executes (rd rs1 : Nat) : ∃ r, Executes (.ntt rd rs1) s r := executes_poly s rfl rfl nttF_length

theorem execInvntt_executes (rd rs1 : Nat) : ∃ r, Executes (.invntt rd rs1) s r := executes_poly s rfl rfl invnttF_length

theorem execPadd_executes (rd rs1 rs2 : Nat) : ∃ r, Executes (.padd rd rs1 rs2) s r := executes_poly2 s rfl rfl paddF_length

theorem execPsub_executes (rd rs1 rs2 : Nat) : ∃ r, Executes (.psub rd rs1 rs2) s r := executes_poly2 s rfl rfl psubF_length

theorem execTobytes_executes (rp boff : Nat) : ∃ r, Executes (.tobytes rp boff) s r :=
  executes_pack s rfl (List.mem_singleton.2 rfl) tobytesF_length

theorem execFrombytes_executes (rp boff : Nat) : ∃ r, Executes (.frombytes rp boff) s r :=
  executes_unpack s rfl rfl fun _ => frombytesF_length _

theorem execCompress3_executes (rp boff : Nat) : ∃ r, Executes (.compress3 rp boff) s r :=
  executes_pack s rfl (List.mem_singleton.2 rfl) (compressF_length 3)

theorem execDecompress3_executes (rp boff : Nat) : ∃ r, Executes (.decompress3 rp boff) s r :=
  executes_unpack s rfl rfl fun _ => decompressF_length 3 _

theorem execCompress11_executes (rp boff : Nat) : ∃ r, Executes (.compress11 rp boff) s r :=
  executes_pack s rfl (List.mem_singleton.2 rfl) (compressF_length 11)

theorem execDecompress11_executes (rp boff : Nat) : ∃ r, Executes (.decompress11 rp boff) s r :=
  executes_unpack s rfl rfl fun _ => decompressF_length 11 _

theorem execFrommsg_executes (rp boff : Nat) : ∃ r, Executes (.frommsg rp boff) s r :=
  executes_unpack s rfl rfl fun h => by rw [IsPoly, frommsgF_length, h]

theorem execTomsg_executes (rp boff : Nat) : ∃ r, Executes (.tomsg rp boff) s r :=
  executes_pack s rfl (List.mem_singleton.2 rfl) tomsgF_length

theorem execCbd_executes (rp boff : Nat) : ∃ r, Executes (.cbd rp boff) s r :=
  executes_unpack s rfl rfl fun _ => cbdF_length _ _

theorem execGetnoise_executes (rp boff : Nat) : ∃ r, Executes (.getnoise rp boff) s r :=
  executes_unpack s rfl rfl fun _ => getnoiseF_length _ _ _ _

theorem execPacc_executes (rd rs1 rs2 : Nat) : ∃ r, Executes (.pacc rd rs1 rs2) s r :=
  ⟨_, executes_of rfl (noCode_bind (noCode_orFault _ _) fun _ => noCode_bind (noCode_orFault _ _) fun _ => noCode_pure _)
    fun w h hk => by
      obtain ⟨a, ha, h⟩ := bind_eq_ok.1 h
      obtain ⟨b, hb, h⟩ := bind_eq_ok.1 h
      cases h
      exact fits_poly rfl (paccF_length (k_pos_of_check rfl hk) (isVec_of_polys (State.readVec_eq_ok.1 ha))
        (isVec_of_polys (State.readVec_eq_ok.1 hb)))⟩

/-- A command that maps a vector to a vector. -/
theorem executes_vec {i : Instr} {rs1 rd : Nat} {f : List Poly → List Poly}
    (hc : exec i s = s.commit (s.check i >>= fun _ => s.readVec rs1 s.snap.set.k >>= fun u => pure { preg := [(rd, f u)] }))
    (hd : i.pregDest s.snap.set.k = some (rd, s.snap.set.k))
    (hf : ∀ {k : Nat} {u : List Poly}, IsVec k u → IsVec k (f u)) : ∃ r, Executes i s r :=
  ⟨_, executes_of hc (noCode_bind (noCode_orFault _ _) fun _ => noCode_pure _) fun w h _ => by
    obtain ⟨u, hu, h⟩ := bind_eq_ok.1 h
    cases h
    have := hf (isVec_of_polys (State.readVec_eq_ok.1 hu))
    exact fits_regs (by rw [this.1, hd]) this.2⟩

theorem execVntt_executes (rd rs1 : Nat) : ∃ r, Executes (.vntt rd rs1) s r := executes_vec s rfl rfl vnttF_isVec

theorem execVinvntt_executes (rd rs1 : Nat) : ∃ r, Executes (.vinvntt rd rs1) s r := executes_vec s rfl rfl vinvnttF_isVec

theorem execVadd_executes (rd rs1 rs2 : Nat) : ∃ r, Executes (.vadd rd rs1 rs2) s r :=
  ⟨_, executes_of rfl (noCode_bind (noCode_orFault _ _) fun _ => noCode_bind (noCode_orFault _ _) fun _ => noCode_pure _)
    fun w h _ => by
      obtain ⟨u, hu, h⟩ := bind_eq_ok.1 h
      obtain ⟨v, hv, h⟩ := bind_eq_ok.1 h
      cases h
      have := vaddF_isVec (isVec_of_polys (State.readVec_eq_ok.1 hu)) (isVec_of_polys (State.readVec_eq_ok.1 hv))
      exact fits_regs (by rw [this.1]; rfl) this.2⟩

/-- A command that packs a vector into BUF, `n` bytes an element. -/
theorem executes_vpack {i : Instr} {rp boff n : Nat} {f : List Poly → Bytes}
    (hc : exec i s = s.commit (s.check i >>= fun _ => s.readVec rp s.snap.set.k >>= fun u => pure { buf := [(boff, f u)] }))
    (hd : (boff, n * s.snap.set.k) ∈ i.bufDest s.snap.set.k)
    (hf : ∀ {k : Nat} {u : List Poly}, IsVec k u → (f u).length = n * k) : ∃ r, Executes i s r :=
  ⟨_, executes_of hc (noCode_bind (noCode_orFault _ _) fun _ => noCode_pure _) fun w h _ => by
    obtain ⟨u, hu, h⟩ := bind_eq_ok.1 h
    cases h
    refine fits_bytes fun x hx => ?_
    obtain rfl := List.mem_singleton.1 hx
    simpa only [hf (isVec_of_polys (State.readVec_eq_ok.1 hu))] using hd⟩

/-- A command that unpacks bytes of BUF into a vector. -/
theorem executes_vunpack {i : Instr} {rp boff n : Nat} {f : Bytes → List Poly}
    (hc : exec i s = s.commit (s.check i >>= fun _ => s.memRead boff n >>= fun bs => pure { preg := [(rp, f bs)] }))
    (hd : i.pregDest s.snap.set.k = some (rp, s.snap.set.k)) (hf : ∀ bs : Bytes, IsVec s.snap.set.k (f bs)) :
    ∃ r, Executes i s r :=
  ⟨_, executes_of hc (noCode_bind (noCode_orFault _ _) fun _ => noCode_pure _) fun w h _ => by
    obtain ⟨bs, -, h⟩ := bind_eq_ok.1 h
    cases h
    exact fits_regs (by rw [(hf bs).1, hd]) (hf bs).2⟩

theorem execVtobytes_executes (rp boff : Nat) : ∃ r, Executes (.vtobytes rp boff) s r :=
  executes_vpack s rfl (List.mem_singleton.2 rfl) vtobytesF_length

theorem execVfrombytes_executes (rp boff : Nat) : ∃ r, Executes (.vfrombytes rp boff) s r :=
  executes_vunpack s rfl rfl (vfrombytesF_isVec _)

theorem execVcompress11_executes (rp boff : Nat) : ∃ r, Executes (.vcompress11 rp boff) s r :=
  executes_vpack s rfl (List.mem_singleton.2 rfl) vcompressF_length

theorem execVdecompress11_executes (rp boff : Nat) : ∃ r, Executes (.vdecompress11 rp boff) s r :=
  executes_vunpack s rfl rfl (vdecompressF_isVec _)

theorem execGenmatrix_executes (rp boff : Nat) : ∃ r, Executes (.genmatrix rp boff) s r :=
  ⟨_, executes_of rfl (noCode_bind (noCode_orFault _ _) fun _ => noCode_bind (noCode_orFault _ _) fun _ => noCode_pure _)
    fun w h _ => by
      obtain ⟨seed, -, h⟩ := bind_eq_ok.1 h
      obtain ⟨a, ha, h⟩ := bind_eq_ok.1 h
      cases h
      have := genmatrixF_flatten (orFault_eq_ok.1 ha)
      exact fits_regs (by rw [this.1]; rfl) this.2⟩

theorem execCpaKeypair_executes : ∃ r, Executes .cpaKeypair s r :=
  ⟨_, executes_of rfl (noCode_bind (noCode_orFault _ _) fun _ => noCode_bind (noCode_orFault _ _) fun _ => noCode_pure _)
    fun w h hk => by
      obtain ⟨d, -, h⟩ := bind_eq_ok.1 h
      obtain ⟨ks, hks, h⟩ := bind_eq_ok.1 h
      cases h
      obtain ⟨h1, h2⟩ := cpaKeypairF_lengths sponge_sized (k_pos_of_check rfl hk) (orFault_eq_ok.1 hks)
      refine fits_bytes fun x hx => ?_
      simp only [List.mem_cons, List.not_mem_nil, or_false] at hx
      rcases hx with rfl | rfl <;> simp [Instr.bufDest, h1, h2]⟩

theorem execCpaEnc_executes : ∃ r, Executes .cpaEnc s r :=
  ⟨_, executes_of rfl
    (noCode_bind (noCode_orFault _ _) fun _ => noCode_bind (noCode_orFault _ _) fun _ =>
      noCode_bind (noCode_orFault _ _) fun _ => noCode_bind (noCode_orFault _ _) fun _ => noCode_pure _)
    fun w h hk => by
      obtain ⟨m, hm, h⟩ := bind_eq_ok.1 h
      obtain ⟨pk, -, h⟩ := bind_eq_ok.1 h
      obtain ⟨coins, -, h⟩ := bind_eq_ok.1 h
      obtain ⟨ct, hct, h⟩ := bind_eq_ok.1 h
      cases h
      have h1 := cpaEncF_length (k_pos_of_check rfl hk) (Memory.load_length (State.memRead_eq_ok.1 hm)) (orFault_eq_ok.1 hct)
      refine fits_bytes fun x hx => ?_
      obtain rfl := List.mem_singleton.1 hx
      simp [Instr.bufDest, h1]⟩

theorem execCpaDec_executes : ∃ r, Executes .cpaDec s r :=
  ⟨_, executes_of rfl (noCode_bind (noCode_orFault _ _) fun _ => noCode_bind (noCode_orFault _ _) fun _ => noCode_pure _)
    fun w h hk => by
      obtain ⟨ct, -, h⟩ := bind_eq_ok.1 h
      obtain ⟨sk, -, h⟩ := bind_eq_ok.1 h
      cases h
      refine fits_bytes fun x hx => ?_
      obtain rfl := List.mem_singleton.1 hx
      simp [Instr.bufDest, cpaDecF_length (k_pos_of_check rfl hk)]⟩

theorem execKemKeygen_executes : ∃ r, Executes .kemKeygen s r :=
  ⟨_, executes_of rfl
    (noCode_bind (noCode_orFault _ _) fun _ => noCode_bind (noCode_orFault _ _) fun _ =>
      noCode_bind (noCode_orFault _ _) fun _ => noCode_pure _)
    fun w h hk => by
      obtain ⟨d, -, h⟩ := bind_eq_ok.1 h
      obtain ⟨z, hz, h⟩ := bind_eq_ok.1 h
      obtain ⟨ks, hks, h⟩ := bind_eq_ok.1 h
      cases h
      obtain ⟨h1, h2⟩ := kemKeygenF_lengths sponge_sized (k_pos_of_check rfl hk)
        (Memory.load_length (State.memRead_eq_ok.1 hz)) (orFault_eq_ok.1 hks)
      refine fits_bytes fun x hx => ?_
      simp only [List.mem_cons, List.not_mem_nil, or_false] at hx
      rcases hx with rfl | rfl <;> simp [Instr.bufDest, h1, h2]⟩

theorem execKemEncaps_executes : ∃ r, Executes .kemEncaps s r :=
  ⟨_, executes_of rfl
    (noCode_bind (noCode_orFault _ _) fun _ => noCode_bind (noCode_orFault _ _) fun _ =>
      noCode_bind (noCode_orFault _ _) fun _ => noCode_pure _)
    fun w h hk => by
      obtain ⟨r, -, h⟩ := bind_eq_ok.1 h
      obtain ⟨pk, -, h⟩ := bind_eq_ok.1 h
      obtain ⟨cs, hcs, h⟩ := bind_eq_ok.1 h
      cases h
      obtain ⟨h1, h2⟩ := kemEncapsF_lengths sponge_sized (k_pos_of_check rfl hk) (orFault_eq_ok.1 hcs)
      refine fits_bytes fun x hx => ?_
      simp only [List.mem_cons, List.not_mem_nil, or_false] at hx
      rcases hx with rfl | rfl <;> simp [Instr.bufDest, h1, h2]⟩

theorem execKemDecaps_executes : ∃ r, Executes .kemDecaps s r :=
  ⟨_, executes_of rfl
    (noCode_bind (noCode_orFault _ _) fun _ => noCode_bind (noCode_orFault _ _) fun _ =>
      noCode_bind (noCode_orFault _ _) fun _ => noCode_pure _)
    fun w h hk => by
      obtain ⟨sk, -, h⟩ := bind_eq_ok.1 h
      obtain ⟨ct, -, h⟩ := bind_eq_ok.1 h
      obtain ⟨ss, hss, h⟩ := bind_eq_ok.1 h
      cases h
      have h1 := kemDecapsF_length sponge_sized (orFault_eq_ok.1 hss)
      refine fits_bytes fun x hx => ?_
      obtain rfl := List.mem_singleton.1 hx
      simp [Instr.bufDest, h1]⟩

theorem execKemSkcheck_executes : ∃ r, Executes .kemSkcheck s r :=
  ⟨_, executes_of rfl (noCode_pure _) fun w h _ => by cases h; exact fits_none⟩

/-- Every command commits the answer of a computation whose codes are those of its checks and whose writes fit its
destinations. -/
theorem exec_executes (i : Instr) (s : State) : ∃ r, Executes i s r := by
  cases i with
  | nop => exact execNop_executes s
  | montr => exact execMontr_executes s
  | barr => exact execBarr_executes s
  | freeze => exact execFreeze_executes s
  | ntt rd rs1 => exact execNtt_executes s rd rs1
  | invntt rd rs1 => exact execInvntt_executes s rd rs1
  | padd rd rs1 rs2 => exact execPadd_executes s rd rs1 rs2
  | psub rd rs1 rs2 => exact execPsub_executes s rd rs1 rs2
  | tobytes rp boff => exact execTobytes_executes s rp boff
  | frombytes rp boff => exact execFrombytes_executes s rp boff
  | compress3 rp boff => exact execCompress3_executes s rp boff
  | decompress3 rp boff => exact execDecompress3_executes s rp boff
  | compress11 rp boff => exact execCompress11_executes s rp boff
  | decompress11 rp boff => exact execDecompress11_executes s rp boff
  | frommsg rp boff => exact execFrommsg_executes s rp boff
  | tomsg rp boff => exact execTomsg_executes s rp boff
  | cbd rp boff => exact execCbd_executes s rp boff
  | getnoise rp boff => exact execGetnoise_executes s rp boff
  | pacc rd rs1 rs2 => exact execPacc_executes s rd rs1 rs2
  | vntt rd rs1 => exact execVntt_executes s rd rs1
  | vinvntt rd rs1 => exact execVinvntt_executes s rd rs1
  | vadd rd rs1 rs2 => exact execVadd_executes s rd rs1 rs2
  | vtobytes rp boff => exact execVtobytes_executes s rp boff
  | vfrombytes rp boff => exact execVfrombytes_executes s rp boff
  | vcompress11 rp boff => exact execVcompress11_executes s rp boff
  | vdecompress11 rp boff => exact execVdecompress11_executes s rp boff
  | genmatrix rp boff => exact execGenmatrix_executes s rp boff
  | cpaKeypair => exact execCpaKeypair_executes s
  | cpaEnc => exact execCpaEnc_executes s
  | cpaDec => exact execCpaDec_executes s
  | kemKeygen => exact execKemKeygen_executes s
  | kemEncaps => exact execKemEncaps_executes s
  | kemDecaps => exact execKemDecaps_executes s
  | kemSkcheck => exact execKemSkcheck_executes s

end Sys2Proof.Machine
end

