-- ==== Sys2Proof/Laws/Decode.lean ====
section
/-! SUPPORT. The fields of the encoded words (spec/30_encoding.md R111 to R115, R122): each field reads back, and the bits a
format leaves out are zero. -/

namespace Sys2Proof

theorem bits_lt (w : Word) (hi lo : Nat) : bits w hi lo < 2 ^ (hi + 1 - lo) := Nat.mod_lt _ (Nat.two_pow_pos _)

theorem Instr.opcode_lt (i : Instr) : i.opcode < 256 := by cases i <;> simp [Instr.opcode]

theorem encodeN_toNat {opc : Nat} (h : opc < 256) : (encodeN opc).toNat = opc := by
  rw [encodeN, BitVec.toNat_ofNat]
  omega

theorem encodeB_toNat {opc rp boff : Nat} (h : opc < 256) (h1 : rp < 32) (h2 : boff < 8192) :
    (encodeB opc rp boff).toNat = opc + rp * 256 + boff * 8192 := by
  rw [encodeB, BitVec.toNat_ofNat]
  omega

theorem encodeR_toNat {opc rd rs1 rs2 : Nat} (h : opc < 256) (h1 : rd < 32) (h2 : rs1 < 32) (h3 : rs2 < 32) :
    (encodeR opc rd rs1 rs2).toNat = opc + rd * 256 + rs1 * 8192 + rs2 * 262144 := by
  rw [encodeR, BitVec.toNat_ofNat]
  omega

theorem bits_encodeN_opcode {opc : Nat} (h : opc < 256) : bits (encodeN opc) 7 0 = opc := by
  rw [bits, encodeN_toNat h]
  omega

theorem bits_encodeB_opcode {opc rp boff : Nat} (h : opc < 256) (h1 : rp < 32) (h2 : boff < 8192) :
    bits (encodeB opc rp boff) 7 0 = opc := by
  rw [bits, encodeB_toNat h h1 h2]
  omega

theorem bits_encodeR_opcode {opc rd rs1 rs2 : Nat} (h : opc < 256) (h1 : rd < 32) (h2 : rs1 < 32) (h3 : rs2 < 32) :
    bits (encodeR opc rd rs1 rs2) 7 0 = opc := by
  rw [bits, encodeR_toNat h h1 h2 h3]
  omega

theorem regs3_of_wellFormed {a b c : Nat} (h : (regOk a && regOk b && regOk c) = true) : a < 32 ∧ b < 32 ∧ c < 32 := by
  simp only [regOk, Bool.and_eq_true, decide_eq_true_eq] at h
  omega

theorem regs2_of_wellFormed {a b : Nat} (h : (regOk a && regOk b) = true) : a < 32 ∧ b < 32 := by
  simp only [regOk, Bool.and_eq_true, decide_eq_true_eq] at h
  omega

theorem regOffset_of_wellFormed {a o : Nat} (h : (regOk a && boffOk o) = true) : a < 32 ∧ o < 8192 := by
  simp only [regOk, boffOk, Bool.and_eq_true, decide_eq_true_eq] at h
  omega

/-! What each format gives when it accepts (R112 to R114). -/

theorem formatN_ok {w : Word} {i j : Instr} (h : formatN w i = .ok j) : bits w 31 8 = 0 ∧ i = j := by
  rw [formatN] at h
  split at h
  · exact ⟨‹_›, Except.ok.inj h⟩
  · cases h

theorem formatB_ok {w : Word} {i : Nat → Nat → Instr} {j : Instr} (h : formatB w i = .ok j) :
    bits w 31 26 = 0 ∧ i (bits w 12 8) (bits w 25 13) = j := by
  rw [formatB] at h
  split at h
  · exact ⟨‹_›, Except.ok.inj h⟩
  · cases h

theorem formatR_ok {w : Word} {i : Nat → Nat → Nat → Instr} {j : Instr} (h : formatR w i = .ok j) :
    bits w 31 23 = 0 ∧ i (bits w 12 8) (bits w 17 13) (bits w 22 18) = j := by
  rw [formatR] at h
  split at h
  · exact ⟨‹_›, Except.ok.inj h⟩
  · cases h

theorem formatR1_ok {w : Word} {i : Nat → Nat → Instr} {j : Instr} (h : formatR1 w i = .ok j) :
    bits w 31 23 = 0 ∧ bits w 22 18 = 0 ∧ i (bits w 12 8) (bits w 17 13) = j := by
  rw [formatR1] at h
  split at h
  · rename_i h1
    exact ⟨h1.1, h1.2, Except.ok.inj h⟩
  · cases h

end Sys2Proof
end

