-- ==== Sys2Proof/Laws/PerInstr.lean ====
section
/-! SUPPORT. Statements for all commands, one lemma a constructor. Opcode: the low byte of a command's word is its opcode
(spec/30_encoding.md R111, R122). -/

namespace Sys2Proof.Laws.Opcode

open Sys2Proof

/-- The low byte of the word is the opcode. -/
def Statement (i : Instr) : Prop := i.WellFormed → bits (encode i) 7 0 = i.opcode

theorem nop : Statement .nop := fun _ => bits_encodeN_opcode (Instr.opcode_lt _)

theorem montr : Statement .montr := fun _ => bits_encodeN_opcode (Instr.opcode_lt _)

theorem barr : Statement .barr := fun _ => bits_encodeN_opcode (Instr.opcode_lt _)

theorem freeze : Statement .freeze := fun _ => bits_encodeN_opcode (Instr.opcode_lt _)

theorem ntt (rd rs1 : Nat) : Statement (.ntt rd rs1) := fun h => by
  obtain ⟨h1, h2⟩ := regs2_of_wellFormed h
  exact bits_encodeR_opcode (Instr.opcode_lt _) h1 h2 (by decide)

theorem invntt (rd rs1 : Nat) : Statement (.invntt rd rs1) := fun h => by
  obtain ⟨h1, h2⟩ := regs2_of_wellFormed h
  exact bits_encodeR_opcode (Instr.opcode_lt _) h1 h2 (by decide)

theorem padd (rd rs1 rs2 : Nat) : Statement (.padd rd rs1 rs2) := fun h => by
  obtain ⟨h1, h2, h3⟩ := regs3_of_wellFormed h
  exact bits_encodeR_opcode (Instr.opcode_lt _) h1 h2 h3

theorem psub (rd rs1 rs2 : Nat) : Statement (.psub rd rs1 rs2) := fun h => by
  obtain ⟨h1, h2, h3⟩ := regs3_of_wellFormed h
  exact bits_encodeR_opcode (Instr.opcode_lt _) h1 h2 h3

theorem tobytes (rp boff : Nat) : Statement (.tobytes rp boff) := fun h => by
  obtain ⟨h1, h2⟩ := regOffset_of_wellFormed h
  exact bits_encodeB_opcode (Instr.opcode_lt _) h1 h2

theorem frombytes (rp boff : Nat) : Statement (.frombytes rp boff) := fun h => by
  obtain ⟨h1, h2⟩ := regOffset_of_wellFormed h
  exact bits_encodeB_opcode (Instr.opcode_lt _) h1 h2

theorem compress3 (rp boff : Nat) : Statement (.compress3 rp boff) := fun h => by
  obtain ⟨h1, h2⟩ := regOffset_of_wellFormed h
  exact bits_encodeB_opcode (Instr.opcode_lt _) h1 h2

theorem decompress3 (rp boff : Nat) : Statement (.decompress3 rp boff) := fun h => by
  obtain ⟨h1, h2⟩ := regOffset_of_wellFormed h
  exact bits_encodeB_opcode (Instr.opcode_lt _) h1 h2

theorem compress11 (rp boff : Nat) : Statement (.compress11 rp boff) := fun h => by
  obtain ⟨h1, h2⟩ := regOffset_of_wellFormed h
  exact bits_encodeB_opcode (Instr.opcode_lt _) h1 h2

theorem decompress11 (rp boff : Nat) : Statement (.decompress11 rp boff) := fun h => by
  obtain ⟨h1, h2⟩ := regOffset_of_wellFormed h
  exact bits_encodeB_opcode (Instr.opcode_lt _) h1 h2

theorem frommsg (rp boff : Nat) : Statement (.frommsg rp boff) := fun h => by
  obtain ⟨h1, h2⟩ := regOffset_of_wellFormed h
  exact bits_encodeB_opcode (Instr.opcode_lt _) h1 h2

theorem tomsg (rp boff : Nat) : Statement (.tomsg rp boff) := fun h => by
  obtain ⟨h1, h2⟩ := regOffset_of_wellFormed h
  exact bits_encodeB_opcode (Instr.opcode_lt _) h1 h2

theorem cbd (rp boff : Nat) : Statement (.cbd rp boff) := fun h => by
  obtain ⟨h1, h2⟩ := regOffset_of_wellFormed h
  exact bits_encodeB_opcode (Instr.opcode_lt _) h1 h2

theorem getnoise (rp boff : Nat) : Statement (.getnoise rp boff) := fun h => by
  obtain ⟨h1, h2⟩ := regOffset_of_wellFormed h
  exact bits_encodeB_opcode (Instr.opcode_lt _) h1 h2

theorem pacc (rd rs1 rs2 : Nat) : Statement (.pacc rd rs1 rs2) := fun h => by
  obtain ⟨h1, h2, h3⟩ := regs3_of_wellFormed h
  exact bits_encodeR_opcode (Instr.opcode_lt _) h1 h2 h3

theorem vntt (rd rs1 : Nat) : Statement (.vntt rd rs1) := fun h => by
  obtain ⟨h1, h2⟩ := regs2_of_wellFormed h
  exact bits_encodeR_opcode (Instr.opcode_lt _) h1 h2 (by decide)

theorem vinvntt (rd rs1 : Nat) : Statement (.vinvntt rd rs1) := fun h => by
  obtain ⟨h1, h2⟩ := regs2_of_wellFormed h
  exact bits_encodeR_opcode (Instr.opcode_lt _) h1 h2 (by decide)

theorem vadd (rd rs1 rs2 : Nat) : Statement (.vadd rd rs1 rs2) := fun h => by
  obtain ⟨h1, h2, h3⟩ := regs3_of_wellFormed h
  exact bits_encodeR_opcode (Instr.opcode_lt _) h1 h2 h3

theorem vtobytes (rp boff : Nat) : Statement (.vtobytes rp boff) := fun h => by
  obtain ⟨h1, h2⟩ := regOffset_of_wellFormed h
  exact bits_encodeB_opcode (Instr.opcode_lt _) h1 h2

theorem vfrombytes (rp boff : Nat) : Statement (.vfrombytes rp boff) := fun h => by
  obtain ⟨h1, h2⟩ := regOffset_of_wellFormed h
  exact bits_encodeB_opcode (Instr.opcode_lt _) h1 h2

theorem vcompress11 (rp boff : Nat) : Statement (.vcompress11 rp boff) := fun h => by
  obtain ⟨h1, h2⟩ := regOffset_of_wellFormed h
  exact bits_encodeB_opcode (Instr.opcode_lt _) h1 h2

theorem vdecompress11 (rp boff : Nat) : Statement (.vdecompress11 rp boff) := fun h => by
  obtain ⟨h1, h2⟩ := regOffset_of_wellFormed h
  exact bits_encodeB_opcode (Instr.opcode_lt _) h1 h2

theorem genmatrix (rp boff : Nat) : Statement (.genmatrix rp boff) := fun h => by
  obtain ⟨h1, h2⟩ := regOffset_of_wellFormed h
  exact bits_encodeB_opcode (Instr.opcode_lt _) h1 h2

theorem cpaKeypair : Statement .cpaKeypair := fun _ => bits_encodeN_opcode (Instr.opcode_lt _)

theorem cpaEnc : Statement .cpaEnc := fun _ => bits_encodeN_opcode (Instr.opcode_lt _)

theorem cpaDec : Statement .cpaDec := fun _ => bits_encodeN_opcode (Instr.opcode_lt _)

theorem kemKeygen : Statement .kemKeygen := fun _ => bits_encodeN_opcode (Instr.opcode_lt _)

theorem kemEncaps : Statement .kemEncaps := fun _ => bits_encodeN_opcode (Instr.opcode_lt _)

theorem kemDecaps : Statement .kemDecaps := fun _ => bits_encodeN_opcode (Instr.opcode_lt _)

theorem kemSkcheck : Statement .kemSkcheck := fun _ => bits_encodeN_opcode (Instr.opcode_lt _)

end Sys2Proof.Laws.Opcode
end

