-- ==== Sys2Proof/Laws/Step.lean ====
section
/-! SUPPORT. What one step can do, said once: the core's turn or the host's, and what each host line leaves behind. -/

namespace Sys2Proof.Machine

open Sys2Proof

/-! ### Commits -/

theorem State.endsWith_eq (s : State) (c : CmdError) : s.endsWith c = s.completeError c := rfl

/-- A commit that writes consecutive registers writes those alone. -/
theorem State.commitsRegs_of_writes (s : State) (r : Nat) {ps : List Poly} (hp : ∀ p ∈ ps, IsPoly p) :
    s.CommitsRegs (s.applyWrites { preg := [(r, ps)] }).complete r ps where
  rest := rfl
  written := Memory.polys_storePolys_same s.preg r ps hp
  others _ hx := Memory.byteAt_storePolys_outside s.preg r ps hp hx

/-- A commit that stores one byte string stores that alone. -/
theorem State.commitsBytes_of_writes (s : State) (o : Nat) (bs : Bytes) :
    s.CommitsBytes (s.applyWrites { buf := [(o, bs)] }).complete [(o, bs)] where
  rest := rfl
  written w hw := by
    obtain rfl := List.mem_singleton.1 hw
    exact Memory.load_storeBytes_same s.buf o bs
  others _ hx := Memory.byteAt_storeBytes_outside s.buf o bs (hx (o, bs) List.mem_cons_self)

/-- A commit that stores two byte strings that do not meet stores those alone. -/
theorem State.commitsBytes_of_two_writes (s : State) {o o' : Nat} {bs bs' : Bytes}
    (h : o + bs.length ≤ o' ∨ o' + bs'.length ≤ o) :
    s.CommitsBytes (s.applyWrites { buf := [(o, bs), (o', bs')] }).complete [(o, bs), (o', bs')] where
  rest := rfl
  written w hw := by
    show Memory.load (Memory.storeBytes (Memory.storeBytes s.buf o bs) o' bs') w.1 w.2.length = some w.2
    simp only [List.mem_cons, List.not_mem_nil, or_false] at hw
    rcases hw with rfl | rfl
    · rw [Memory.load_storeBytes_disjoint _ _ _ h]
      exact Memory.load_storeBytes_same s.buf o bs
    · exact Memory.load_storeBytes_same _ o' bs'
  others x hx := by
    show Memory.byteAt (Memory.storeBytes (Memory.storeBytes s.buf o bs) o' bs') x = Memory.byteAt s.buf x
    rw [Memory.byteAt_storeBytes_outside _ _ _ (hx (o', bs') (by simp)),
      Memory.byteAt_storeBytes_outside _ _ _ (hx (o, bs) (by simp))]

/-! ### The core's turn and the host's -/

/-- The three ways a step can give a next state. -/
theorem step_cases {s t : State} (h : step s = .next t) :
    (s.eng = .idle ∧ s.hostStep = .next t) ∨
    (∃ sn n, s.eng = .busy sn (n + 1) ∧ { s with eng := .busy sn n }.hostStep = .next t) ∨
    (∃ sn, s.eng = .busy sn 0 ∧ ((∃ i, decode sn.word = .ok i ∧ exec i s = .next t) ∨
      (∃ e, decode sn.word = .error e ∧ t = s.completeError .illegalOpcode))) := by
  rw [step] at h
  split at h
  · exact .inl ⟨‹_›, h⟩
  · exact .inr (.inl ⟨_, _, ‹_›, h⟩)
  · rename_i sn he
    refine .inr (.inr ⟨sn, he, ?_⟩)
    rw [State.commitWord] at h
    split at h
    · exact .inl ⟨_, ‹_›, h⟩
    · exact .inr ⟨_, ‹_›, (Host.Outcome.next.inj h).symm⟩

/-- What a host line does to everything but the host itself. -/
inductive HostEffect (s : State) : State → Prop where
  | nothing : HostEffect s s
  | draw : s.isBusy = true → HostEffect s { s with draws := s.draws + 1 }
  | csr (a : Nat) (v : Word) : HostEffect s (s.csrWrite a v)
  | buf (o : Nat) (bs : Bytes) : s.isBusy = false → o + bs.length ≤ bufSize →
      HostEffect s { s with buf := Memory.storeBytes s.buf o bs }
  | preg (o : Nat) (bs : Bytes) : s.isBusy = false → o + bs.length ≤ pregSize →
      HostEffect s { s with preg := Memory.storeBytes s.preg o bs }
  | reset : HostEffect s s.hardReset

/-- An access that is no bus error lies in its region and is aligned (R82, R88). -/
theorem busCheck_ok {a : Nat} {sz : Size} {r : Region} (h : busCheck a sz = .ok r) :
    a % sz.bytes = 0 ∧ regionOf a = some r := by
  rw [busCheck] at h
  split at h
  · cases h
  · rename_i ha
    refine ⟨by omega, ?_⟩
    split at h
    · cases h
    · rename_i hr
      split at h
      · rw [← Except.ok.inj h]
        exact hr
      · cases h
    · rw [← Except.ok.inj h]
      assumption

theorem regionOf_buf {a : Nat} (h : regionOf a = some .buf) : 0x2000 ≤ a ∧ a < 0x4000 := by
  rw [regionOf] at h
  split at h
  · cases h
  · split at h
    · assumption
    · split at h <;> cases h

theorem regionOf_preg {a : Nat} (h : regionOf a = some .preg) : 0x8000 ≤ a ∧ a < 0xC000 := by
  rw [regionOf] at h
  split at h
  · cases h
  · split at h
    · cases h
    · split at h
      · assumption
      · cases h

/-- An aligned access inside a window that ends at a multiple of 4 does not pass its end. -/
theorem aligned_fits {a e : Nat} (sz : Size) (h : a % sz.bytes = 0) (he : e % 4 = 0) (ha : a < e) : a + sz.bytes ≤ e := by
  cases sz <;> simp only [Size.bytes] at h ⊢ <;> omega

theorem hostWrite_effect {s t : State} {a : Nat} {sz : Size} {v : Word} (h : s.hostWrite a sz v = .ok t) :
    HostEffect s t := by
  rw [State.hostWrite] at h
  split at h
  · cases h
  · rw [← Except.ok.inj h]
    exact .csr a v
  · rename_i hc
    obtain ⟨h1, h2⟩ := busCheck_ok hc
    have h3 := regionOf_buf h2
    have h4 := aligned_fits sz h1 (e := 0x4000) (by decide) h3.2
    split at h
    · cases h
    · rename_i hb
      rw [← Except.ok.inj h]
      refine .buf _ _ (by simpa using hb) ?_
      simp only [storeLE_length, bufSize]
      omega
  · rename_i hc
    obtain ⟨h1, h2⟩ := busCheck_ok hc
    have h3 := regionOf_preg h2
    have h4 := aligned_fits sz h1 (e := 0xC000) (by decide) h3.2
    split at h
    · cases h
    · rename_i hb
      rw [← Except.ok.inj h]
      refine .preg _ _ (by simpa using hb) ?_
      simp only [storeLE_length, pregSize]
      omega

/-- A host read changes nothing, but for the draw counter while BUSY (R90, R94). -/
theorem hostRead_effect {s : State} {a : Nat} {sz : Size} {r : ReadResult} (h : s.hostRead a sz = .ok r) :
    r.after = s ∨ s.isBusy = true ∧ r.after = { s with draws := s.draws + 1 } := by
  have map_after {x : Except Fault Word} (hx : (x.map fun v => ({ value := v, after := s } : ReadResult)) = .ok r) :
      r.after = s := by
    cases x with
    | error e => cases hx
    | ok v =>
      obtain rfl := Except.ok.inj hx
      rfl
  rw [State.hostRead] at h
  split at h
  · cases h
  · rw [← Except.ok.inj h]
    exact .inl rfl
  · split at h
    · rename_i hb
      rw [← Except.ok.inj h]
      exact .inr ⟨hb, rfl⟩
    · exact .inl (map_after h)
  · split at h
    · rename_i hb
      rw [← Except.ok.inj h]
      exact .inr ⟨hb, rfl⟩
    · exact .inl (map_after h)

/-- A host line that gives a next state has one of the effects above, and changes the host. -/
theorem runLine_effect {s t : State} {l : Line} (h : s.runLine l = .next t) :
    ∃ u, HostEffect s u ∧ t = { u with host := t.host } := by
  have read_effect {a : Nat} {sz : Size} {r : ReadResult} (hr : s.hostRead a sz = .ok r) : HostEffect s r.after := by
    rcases hostRead_effect hr with h1 | ⟨hb, h1⟩ <;> rw [h1]
    · exact .nothing
    · exact .draw hb
  cases l with
  | li a b => exact ⟨s, .nothing, by rw [← Host.Outcome.next.inj h]; rfl⟩
  | addi a b c => exact ⟨s, .nothing, by rw [← Host.Outcome.next.inj h]; rfl⟩
  | andi a b c => exact ⟨s, .nothing, by rw [← Host.Outcome.next.inj h]; rfl⟩
  | write a sz v =>
    rw [State.runLine] at h
    split at h
    · rename_i u hu
      exact ⟨u, hostWrite_effect hu, by rw [← Host.Outcome.next.inj h]; rfl⟩
    · cases h
  | read a b sz =>
    rw [State.runLine] at h
    split at h
    · rename_i r hr
      exact ⟨r.after, read_effect hr, by rw [← Host.Outcome.next.inj h]; rfl⟩
    · cases h
  | beq a b c => exact ⟨s, .nothing, by rw [← Host.Outcome.next.inj h]; split <;> rfl⟩
  | bne a b c => exact ⟨s, .nothing, by rw [← Host.Outcome.next.inj h]; split <;> rfl⟩
  | wait =>
    rw [State.runLine] at h
    split at h
    · rename_i r hr
      exact ⟨r.after, read_effect hr, by rw [← Host.Outcome.next.inj h]; split <;> rfl⟩
    · cases h
  | halt => exact ⟨s, .nothing, by rw [← Host.Outcome.next.inj h]⟩
  | rst => exact ⟨_, .reset, by rw [← Host.Outcome.next.inj h]; rfl⟩

/-- The host's turn has one of the effects above. -/
theorem hostStep_effect {s t : State} (h : s.hostStep = .next t) : ∃ u, HostEffect s u ∧ t = { u with host := t.host } := by
  rw [State.hostStep] at h
  split at h
  · exact runLine_effect h
  · exact ⟨s, .nothing, by rw [← Host.Outcome.next.inj h]⟩

end Sys2Proof.Machine
end

