-- ==== Sys2Proof/Machine/Asm.lean ====
section
/-! DEFINITION. The assembler syntax of a command line (spec/30_encoding.md R121) and its encoding (R122). It is notation, no
part of the hardware: no step uses it. A line is its characters. What the model accepts beyond the words of R121 is DESIGN CHOICE
(log entry 26). -/

namespace Sys2Proof.Machine

open Sys2Proof

/-- A letter in upper case: mnemonics and register names are case-insensitive (R121); for the rest of a line see `asmChars`. -/
def upper (c : Char) : Char := if 'a' ≤ c ∧ c ≤ 'z' then Char.ofNat (c.toNat - 32) else c

/-- Leading spaces dropped. -/
def dropSpaces : List Char → List Char
  | ' ' :: cs => dropSpaces cs
  | cs => cs

/-- Spaces dropped at both ends. -/
def trim (cs : List Char) : List Char := (dropSpaces (dropSpaces cs).reverse).reverse

/-- The text up to the first space, and the rest. -/
def splitWord : List Char → List Char × List Char
  | [] => ([], [])
  | ' ' :: cs => ([], cs)
  | c :: cs => ((c :: (splitWord cs).1), (splitWord cs).2)

/-- Pieces separated by commas; no piece for an empty text. -/
def splitCommas : List Char → List (List Char)
  | [] => []
  | ',' :: cs => [] :: (if cs = [] then [[]] else splitCommas cs)
  | c :: cs =>
    match splitCommas cs with
    | [] => [[c]]
    | p :: ps => (c :: p) :: ps

/-- A digit of a base, upper case. -/
def digitOf (base : Nat) (c : Char) : Option Nat :=
  let v := if '0' ≤ c ∧ c ≤ '9' then c.toNat - '0'.toNat else if 'A' ≤ c ∧ c ≤ 'F' then c.toNat - 'A'.toNat + 10 else base
  if v < base then some v else none

/-- The number the digits give after `acc`. -/
def numberFrom (base : Nat) : Nat → List Char → Option Nat
  | acc, [] => some acc
  | acc, c :: cs =>
    match digitOf base c with
    | some v => numberFrom base (acc * base + v) cs
    | none => none

/-- A number: decimal, or hexadecimal with 0x (R121). The line is in upper case here, so 0X and digits a to f in either case are
accepted, and leading zeros too (DESIGN CHOICE, log entry 26). -/
def asmNumber : List Char → Option Nat
  | [] => none
  | '0' :: 'X' :: [] => none
  | '0' :: 'X' :: cs => numberFrom 16 0 cs
  | cs => numberFrom 10 0 cs

/-- A register name P0 to P31 (R121); its number may carry leading zeros, as in P07 (DESIGN CHOICE, log entry 26). -/
def asmReg : List Char → Option Nat
  | 'P' :: c :: cs =>
    match numberFrom 10 0 (c :: cs) with
    | some r => if regOk r then some r else none
    | none => none
  | _ => none

/-- A region name of spec/20_memory.md R85, standing for its offset. -/
def asmRegion (cs : List Char) : Option Nat :=
  if cs = ['P', 'K'] then some regionPK
  else if cs = ['S', 'K'] then some regionSK
  else if cs = ['C', 'T'] then some regionCT
  else if cs = ['S', 'S'] then some regionSS
  else if cs = ['R', 'N', 'D', '0'] then some regionRND0
  else if cs = ['R', 'N', 'D', '1'] then some regionRND1
  else if cs = ['M', 'S', 'G'] then some regionMSG
  else if cs = ['C', 'O', 'I', 'N', 'S'] then some regionCOINS
  else if cs = ['F', 'R', 'E', 'E'] then some regionFREE
  else none

/-- A BUF offset: a number from 0 to 8191, or a region name (R121). -/
def asmOffset (cs : List Char) : Option Nat :=
  match asmRegion cs with
  | some o => some o
  | none =>
    match asmNumber cs with
    | some o => if boffOk o then some o else none
    | none => none

/-- Format N: no operands. -/
def asmN (ops : List (List Char)) (i : Instr) : Option Instr := if ops = [] then some i else none

/-- Format R with two sources: Pd, Ps1, Ps2. -/
def asmR (ops : List (List Char)) (i : Nat → Nat → Nat → Instr) : Option Instr :=
  match ops.map asmReg with
  | [some d, some s1, some s2] => some (i d s1 s2)
  | _ => none

/-- Format R with one source: Pd, Ps1. -/
def asmR1 (ops : List (List Char)) (i : Nat → Nat → Instr) : Option Instr :=
  match ops.map asmReg with
  | [some d, some s1] => some (i d s1)
  | _ => none

/-- Format B: Pr, boff. -/
def asmB (ops : List (List Char)) (i : Nat → Nat → Instr) : Option Instr :=
  match ops with
  | [r, o] =>
    match asmReg r, asmOffset o with
    | some r, some o => some (i r o)
    | _, _ => none
  | _ => none

/-- A mnemonic with its operands (R121). -/
def asmCommand (mnemonic : String) (ops : List (List Char)) : Option Instr :=
  if mnemonic = "NOP" then asmN ops .nop
  else if mnemonic = "MONTR" then asmN ops .montr
  else if mnemonic = "BARR" then asmN ops .barr
  else if mnemonic = "FREEZE" then asmN ops .freeze
  else if mnemonic = "NTT" then asmR1 ops .ntt
  else if mnemonic = "INVNTT" then asmR1 ops .invntt
  else if mnemonic = "PADD" then asmR ops .padd
  else if mnemonic = "PSUB" then asmR ops .psub
  else if mnemonic = "TOBYTES" then asmB ops .tobytes
  else if mnemonic = "FROMBYTES" then asmB ops .frombytes
  else if mnemonic = "COMPRESS3" then asmB ops .compress3
  else if mnemonic = "DECOMPRESS3" then asmB ops .decompress3
  else if mnemonic = "COMPRESS11" then asmB ops .compress11
  else if mnemonic = "DECOMPRESS11" then asmB ops .decompress11
  else if mnemonic = "FROMMSG" then asmB ops .frommsg
  else if mnemonic = "TOMSG" then asmB ops .tomsg
  else if mnemonic = "CBD" then asmB ops .cbd
  else if mnemonic = "GETNOISE" then asmB ops .getnoise
  else if mnemonic = "PACC" then asmR ops .pacc
  else if mnemonic = "VNTT" then asmR1 ops .vntt
  else if mnemonic = "VINVNTT" then asmR1 ops .vinvntt
  else if mnemonic = "VADD" then asmR ops .vadd
  else if mnemonic = "VTOBYTES" then asmB ops .vtobytes
  else if mnemonic = "VFROMBYTES" then asmB ops .vfrombytes
  else if mnemonic = "VCOMPRESS11" then asmB ops .vcompress11
  else if mnemonic = "VDECOMPRESS11" then asmB ops .vdecompress11
  else if mnemonic = "GENMATRIX" then asmB ops .genmatrix
  else if mnemonic = "CPA_KEYPAIR" then asmN ops .cpaKeypair
  else if mnemonic = "CPA_ENC" then asmN ops .cpaEnc
  else if mnemonic = "CPA_DEC" then asmN ops .cpaDec
  else if mnemonic = "KEM_KEYGEN" then asmN ops .kemKeygen
  else if mnemonic = "KEM_ENCAPS" then asmN ops .kemEncaps
  else if mnemonic = "KEM_DECAPS" then asmN ops .kemDecaps
  else if mnemonic = "KEM_SKCHECK" then asmN ops .kemSkcheck
  else none

/-- The command of a line (R121), none where it is not one. The whole line is put in upper case: R121 says so of mnemonics and
register names, and that region names and the prefix 0x may be in either case too is the model's (DESIGN CHOICE, log entry 26). -/
def asmChars (line : List Char) : Option Instr :=
  let w := splitWord ((trim line).map upper)
  asmCommand (String.ofList w.1) ((splitCommas w.2).map trim)

/-- The command of a line of text (R121). -/
def assemble (line : String) : Option Instr := asmChars line.toList

/-- The word of a line of text (R122). -/
def assembleWord (line : String) : Option Word := (assemble line).map encode

end Sys2Proof.Machine
end

