-- ==== Sys2Proof/Tests/Slice0.lean ====
section
/-! SUPPORT. The model's own tests: ill-formed terms are refused, a word written from the spec for every command, worked values
of the spec (the rule stands beside each), and for every statement with hypotheses a witness that meets them. -/

namespace Sys2Proof.Tests

open Sys2Proof Sys2Proof.Machine

/-! ### Well-formedness: each check refuses a term (R113 to R115) -/

theorem test_illFormed_dest : (Instr.ntt 32 0).wellFormed = false ∧ (Instr.invntt 32 0).wellFormed = false ∧
    (Instr.padd 32 0 0).wellFormed = false ∧ (Instr.psub 32 0 0).wellFormed = false ∧
    (Instr.pacc 32 0 0).wellFormed = false ∧ (Instr.vntt 32 0).wellFormed = false ∧
    (Instr.vinvntt 32 0).wellFormed = false ∧ (Instr.vadd 32 0 0).wellFormed = false := by decide

theorem test_illFormed_source1 : (Instr.ntt 0 32).wellFormed = false ∧ (Instr.invntt 0 32).wellFormed = false ∧
    (Instr.padd 0 32 0).wellFormed = false ∧ (Instr.psub 0 32 0).wellFormed = false ∧
    (Instr.pacc 0 32 0).wellFormed = false ∧ (Instr.vntt 0 32).wellFormed = false ∧
    (Instr.vinvntt 0 32).wellFormed = false ∧ (Instr.vadd 0 32 0).wellFormed = false := by decide

theorem test_illFormed_source2 : (Instr.padd 0 0 32).wellFormed = false ∧ (Instr.psub 0 0 32).wellFormed = false ∧
    (Instr.pacc 0 0 32).wellFormed = false ∧ (Instr.vadd 0 0 32).wellFormed = false := by decide

theorem test_illFormed_formatB_reg : ∀ i ∈ [Instr.tobytes 32 0, .frombytes 32 0, .compress3 32 0, .decompress3 32 0,
    .compress11 32 0, .decompress11 32 0, .frommsg 32 0, .tomsg 32 0, .cbd 32 0, .getnoise 32 0, .vtobytes 32 0,
    .vfrombytes 32 0, .vcompress11 32 0, .vdecompress11 32 0, .genmatrix 32 0], i.wellFormed = false := by decide

theorem test_illFormed_formatB_offset : ∀ i ∈ [Instr.tobytes 0 8192, .frombytes 0 8192, .compress3 0 8192,
    .decompress3 0 8192, .compress11 0 8192, .decompress11 0 8192, .frommsg 0 8192, .tomsg 0 8192, .cbd 0 8192,
    .getnoise 0 8192, .vtobytes 0 8192, .vfrombytes 0 8192, .vcompress11 0 8192, .vdecompress11 0 8192,
    .genmatrix 0 8192], i.wellFormed = false := by decide

/-! ### Decoding: each word is put together by hand from the fields of R112 to R116 -/

theorem test_decode_formatN : decode 0x00000000 = .ok .nop ∧ decode 0x00000010 = .ok .montr ∧
    decode 0x00000011 = .ok .barr ∧ decode 0x00000012 = .ok .freeze ∧ decode 0x00000080 = .ok .cpaKeypair ∧
    decode 0x00000081 = .ok .cpaEnc ∧ decode 0x00000082 = .ok .cpaDec ∧ decode 0x00000090 = .ok .kemKeygen ∧
    decode 0x00000091 = .ok .kemEncaps ∧ decode 0x00000092 = .ok .kemDecaps ∧ decode 0x00000093 = .ok .kemSkcheck :=
  ⟨rfl, rfl, rfl, rfl, rfl, rfl, rfl, rfl, rfl, rfl, rfl⟩

/-- Bits 22:18, 17:13, 12:8 and 7:0, for example 00011 00010 00001 00110000 = 0x000C4130. -/
theorem test_decode_formatR : decode 0b00000000000011000100000100110000 = .ok (.padd 1 2 3) ∧
    decode 0b00000000000011000100000100110001 = .ok (.psub 1 2 3) ∧
    decode 0b00000000000011000100000101100000 = .ok (.pacc 1 2 3) ∧
    decode 0b00000000000011000100000101100011 = .ok (.vadd 1 2 3) ∧
    decode 0b00000000000000111110111100100000 = .ok (.ntt 15 31) ∧
    decode 0b00000000000000111110111100100001 = .ok (.invntt 15 31) ∧
    decode 0b00000000000000111110111101100001 = .ok (.vntt 15 31) ∧
    decode 0b00000000000000111110111101100010 = .ok (.vinvntt 15 31) :=
  ⟨rfl, rfl, rfl, rfl, rfl, rfl, rfl, rfl⟩

/-- Bits 25:13, 12:8 and 7:0: BOFF = 1000000000001 (4097), RP = 10001 (17). -/
theorem test_decode_formatB : decode 0b00000010000000000011000101000000 = .ok (.tobytes 17 4097) ∧
    decode 0b00000010000000000011000101000001 = .ok (.frombytes 17 4097) ∧
    decode 0b00000010000000000011000101000010 = .ok (.compress3 17 4097) ∧
    decode 0b00000010000000000011000101000011 = .ok (.decompress3 17 4097) ∧
    decode 0b00000010000000000011000101000100 = .ok (.compress11 17 4097) ∧
    decode 0b00000010000000000011000101000101 = .ok (.decompress11 17 4097) ∧
    decode 0b00000010000000000011000101000110 = .ok (.frommsg 17 4097) ∧
    decode 0b00000010000000000011000101000111 = .ok (.tomsg 17 4097) ∧
    decode 0b00000010000000000011000101010000 = .ok (.cbd 17 4097) ∧
    decode 0b00000010000000000011000101010001 = .ok (.getnoise 17 4097) :=
  ⟨rfl, rfl, rfl, rfl, rfl, rfl, rfl, rfl, rfl, rfl⟩

theorem test_decode_formatB_vector : decode 0b00000010000000000011000101100100 = .ok (.vtobytes 17 4097) ∧
    decode 0b00000010000000000011000101100101 = .ok (.vfrombytes 17 4097) ∧
    decode 0b00000010000000000011000101100110 = .ok (.vcompress11 17 4097) ∧
    decode 0b00000010000000000011000101100111 = .ok (.vdecompress11 17 4097) ∧
    decode 0b00000010000000000011000101110000 = .ok (.genmatrix 17 4097) :=
  ⟨rfl, rfl, rfl, rfl, rfl⟩

/-- R117, R119: a must-be-zero bit, RS2 of a one-source opcode, and unlisted opcodes. -/
theorem test_decode_illegal : decode 0x00000100 = .error .mustBeZero ∧ decode 0x04000040 = .error .mustBeZero ∧
    decode 0x00800030 = .error .mustBeZero ∧ decode 0x00040020 = .error .mustBeZero ∧
    decode 0x00000001 = .error .unlistedOpcode ∧ decode 0x00000083 = .error .unlistedOpcode ∧
    decode 0x000000FF = .error .unlistedOpcode := ⟨rfl, rfl, rfl, rfl, rfl, rfl, rfl⟩

/-- The bytes of a CMD write, lowest address first (R87), and a short string. -/
theorem test_decodeBytes : decodeBytes [0x20, 0x01, 0x00, 0x00, 0xAA] = .ok (.ntt 1 0, [0xAA]) ∧
    decodeBytes [0x20, 0x01, 0x00] = .error .tooShort := ⟨rfl, rfl⟩

/-- The examples of R122 and of R121. -/
theorem test_assemble : assembleWord "NTT P1, P0" = some 0x00000120 ∧ assembleWord "PADD P2, P0, P1" = some 0x00040230 ∧
    assembleWord "TOBYTES P2, 0x19A0" = some 0x03340240 ∧ assembleWord "tobytes p2, free" = some 0x03340240 := by
  decide

theorem test_assemble_more : assembleWord "GENMATRIX P16, 0x19A0" = some 0x03341070 ∧
    assembleWord "KEM_ENCAPS" = some 0x00000091 ∧ assemble "NTT P32, P0" = none ∧ assemble "TOBYTES P2, 8192" = none := by
  decide

/-! ### Worked values of the spec -/

/-- The state after a next step, where there is one. -/
def nextOf : Host.Outcome State Fault Refusal → Option State
  | .next t => some t
  | .fault _ => none
  | .refused _ => none

/-- RES after a command with the given ARG. -/
def resOf (i : Instr) (arg : Word) : Option Word := (nextOf (exec i { State.reset with arg := arg })).map State.res

/-- X: coefficient 1 is 1, the rest 0. -/
def polyX : Poly := [0, 1] ++ List.replicate 254 0

def firstNats (n : Nat) (p : Poly) : List Nat := (p.take n).map BitVec.toNat

/-- R142. -/
theorem test_montr : resOf .montr 0x00140000 = some 5 ∧ resOf .montr 7681 = some 7681 ∧
    resOf .montr 0x78000000 = some 7680 ∧ resOf .montr 0x78041E01 = some 15362 ∧
    resOf .montr 0xFFFFFFFF = some 7456 := by decide

/-- R144. -/
theorem test_barr : resOf .barr 16384 = some 1022 ∧ resOf .barr 0x00012000 = some 511 ∧ resOf .barr 65535 = some 11768 := by
  decide

/-- R146. -/
theorem test_freeze : resOf .freeze 23044 = some 1 ∧ resOf .freeze 7681 = some 0 ∧ resOf .freeze 65535 = some 4087 := by decide

/-- R147: DONE = 1 and nothing else. -/
theorem test_nop : nextOf (exec .nop State.reset) = some { State.reset with done := true } := by decide

/-- R164. -/
theorem test_ntt : firstNats 8 (nttF polyX) = [62, 7619, 5322, 2359, 6077, 9285, 3546, 4135] := by decide +kernel

/-- R166, R170. -/
theorem test_invntt : firstNats 4 (invnttF (nttF polyX)) = [7681, 7682, 7681, 7681] ∧
    firstNats 4 (invnttF (List.replicate 256 7680)) = [7680, 7681, 7681, 7681] := by decide +kernel

/-- R181, R183. -/
theorem test_padd : nats (paddF [7680, 11768, 65535, 15361] [1, 11768, 1, 15361]) = [7681, 8174, 0, 7679] := by decide

theorem test_psub : nats (psubF [0, 0, 0, 0, 5] [0, 23043, 23044, 65535, 7]) = [7681, 0, 11768, 7682, 7679] := by decide

/-- R185: the first eight coefficients of the ramp; 7681 is written as 0 and 8191 as 510. -/
theorem test_tobytes : (tobytesF [0, 1, 2, 3, 4, 5, 6, 7]).take 8 = [0x00, 0x20, 0x00, 0x08, 0x80, 0x01, 0x40, 0x00] ∧
    unpackBits 13 2 (tobytesF [7681, 8191, 0, 0, 0, 0, 0, 0]) = [0, 510] := by decide

/-- R187. -/
theorem test_frombytes : firstNats 8 (frombytesF [0, 1, 2, 3, 4, 5, 6, 7, 8, 9, 10, 11, 12]) =
    [256, 6160, 256, 3082, 112, 1156, 3112, 385] ∧ firstNats 1 (frombytesF [0xFF, 0xFF]) = [8191] := by decide +kernel

/-- R189, R190. -/
theorem test_compress3 : packBits 3 [0, 1, 2, 3, 4, 5, 6, 7] = [0x88, 0xC6, 0xFA] ∧
    [7680, 7681, 480, 481, 3840, 3841, 65535, 7201].map (cq 3) = [0, 0, 0, 1, 4, 4, 4, 0] := by decide

/-- R191. -/
theorem test_decompress3 : firstNats 8 (decompressF 3 [0x88, 0xC6, 0xFA]) = [0, 960, 1920, 2880, 3841, 4801, 5761, 6721] := by
  decide +kernel

/-- R192. -/
theorem test_compress11 : compressF 11 [0, 1, 2, 3, 4, 5, 6, 7] =
    [0x00, 0x00, 0x40, 0x00, 0x02, 0x10, 0x80, 0x00, 0x08, 0x40, 0x00] ∧ [7680, 3841, 65535].map (cq 11) = [0, 1024, 1090] := by
  decide

/-- R193. -/
theorem test_decompress11 : firstNats 3 (decompressF 11 [0xFF, 0x07]) = [7677, 0, 0] := by decide +kernel

/-- R195. -/
theorem test_frommsg : nats (frommsgF [0xA5, 0x80]) =
    [3841, 0, 3841, 0, 0, 3841, 0, 3841, 0, 0, 0, 0, 0, 0, 0, 3841] := by decide

/-- R197. -/
theorem test_tomsg : [1920, 1921, 5760, 5761, 7681, 11521, 65535].map msgBit = [0, 1, 1, 0, 0, 1, 1] := by decide

/-- R199. -/
theorem test_cbd : nats (cbdGroup 3 [0x07, 0, 0]) = [7684, 7681, 7681, 7681] ∧
    nats (cbdGroup 3 [0x38, 0, 0]) = [7678, 7681, 7681, 7681] ∧
    nats (cbdGroup 5 [0, 0, 0, 0, 0xFF]) = [7681, 7681, 7681, 7679] := by decide

theorem test_cbd_eta4 : firstNats 8 (cbdF 4 [0, 1, 2, 3, 4, 5, 6, 7]) = [7681, 7682, 7682, 7683, 7682, 7683, 7683, 7684] := by
  decide +kernel

/-- R201: the zero seed, nonce 0, η = 3. -/
theorem test_getnoise : firstNats 8 (getnoiseF sponge (List.replicate 32 0) 0 3) =
    [7681, 7681, 7683, 7681, 7682, 7681, 7681, 7682] := by decide +kernel

/-- R222: all 65535, for k = 2, 3 and 4, and all 7680. -/
theorem test_pacc : nats (paccF [[65535], [65535]] [[65535], [65535]]) = [2469] ∧
    nats (paccF [[65535], [65535], [65535]] [[65535], [65535], [65535]]) = [7544] ∧
    nats (paccF [[65535], [65535], [65535], [65535]] [[65535], [65535], [65535], [65535]]) = [4938] ∧
    nats (paccF [[7680], [7680]] [[7680], [7680]]) = [7683] := by decide

/-- R222: the first three coefficients of the example. -/
theorem test_pacc_example : nats (paccF [[1, 2, 3], [2, 4, 6]] [[0, 1, 4], [1, 2, 5]]) = [2, 10, 42] := by decide

/-- R223, R224. -/
theorem test_vntt : (vnttF [polyX, polyX]).map (firstNats 4) = [[62, 7619, 5322, 2359], [62, 7619, 5322, 2359]] := by
  decide +kernel

theorem test_vinvntt : (vinvnttF [List.replicate 256 1, List.replicate 256 7680]).map (firstNats 2) =
    [[1, 7681], [7680, 7681]] := by decide +kernel

/-- R225. -/
theorem test_vadd : (vaddF [[1], [2], [3]] [[10], [20], [30]]).map nats = [[11], [22], [33]] ∧
    exec (.vadd 29 0 0) { State.reset with set := .p1024 } =
      .next (State.endsWith { State.reset with set := .p1024 } .illegalOperand) := ⟨by decide, rfl⟩

/-- R226: 416 bytes an element, element 0 first. -/
theorem test_vtobytes : vtobytesF [[0, 1, 2, 3, 4, 5, 6, 7], [0, 0, 0, 0, 0, 0, 0, 0]] =
    tobytesF [0, 1, 2, 3, 4, 5, 6, 7] ++ List.replicate 13 0 := by decide

/-- R227. -/
theorem test_vfrombytes : (vfrombytesF 2 (List.replicate 416 0xFF ++ [0x01])).map (firstNats 2) = [[8191, 8191], [1, 0]] := by
  decide +kernel

/-- R228. -/
theorem test_vcompress11 : vcompressF [[0, 1, 2, 3, 4, 5, 6, 7], [7680, 0, 0, 0, 0, 0, 0, 0]] =
    [0x00, 0x00, 0x40, 0x00, 0x02, 0x10, 0x80, 0x00, 0x08, 0x40, 0x00] ++ List.replicate 11 0 := by decide

/-- R229: 704 bytes FF give 7677 everywhere. -/
theorem test_vdecompress11 : (vdecompressF 2 (List.replicate 704 0xFF)).map (firstNats 2) = [[7677, 7677], [7677, 7677]] := by
  decide +kernel

/-- The zero seed of R243's example. -/
def zeroSeed : Bytes := List.replicate 32 0

/-- The four cells of the zero seed at k = 2 (R243; cell (1, 1) has no value in the spec and is only sampled), within the
machine's own fuel. -/
theorem test_genmatrix_cell00 : (sampleF sponge Config.genmatFuel zeroSeed 0 0).map (firstNats 8) =
    some [217, 7323, 340, 2890, 2764, 6554, 3573, 3400] := by decide +kernel

theorem test_genmatrix_cell01 : (sampleF sponge Config.genmatFuel zeroSeed 1 0).map (firstNats 4) =
    some [5485, 724, 6668, 6576] := by decide +kernel

theorem test_genmatrix_cell10 : (sampleF sponge Config.genmatFuel zeroSeed 0 1).map (firstNats 4) =
    some [7332, 4100, 5133, 5087] := by decide +kernel

theorem test_genmatrix_cell11 : (sampleF sponge Config.genmatFuel zeroSeed 1 1).isSome = true := by decide +kernel

/-- R252: publicSeed begins cbd3f6ee and noiseSeed be4c18ea, for d = 00 01 ... 1F. -/
theorem test_cpaKeypair_seeds :
    (sponge.sha3_512 ((List.range 32).map (BitVec.ofNat 8))).take 4 = [0xCB, 0xD3, 0xF6, 0xEE] ∧
    ((sponge.sha3_512 ((List.range 32).map (BitVec.ofNat 8))).drop 32).take 4 = [0xBE, 0x4C, 0x18, 0xEA] := by
  decide +kernel

/-- R275: m = H(r_raw) begins 44ff216e, for r_raw = 40 41 ... 5F. -/
theorem test_kemEncaps_message :
    (sponge.sha3_256 ((List.range 32).map fun i => BitVec.ofNat 8 (0x40 + i))).take 4 = [0x44, 0xFF, 0x21, 0x6E] := by
  decide +kernel

/-- R278, R280: the selection, and a flipped bit. -/
theorem test_kemDecaps_select : constantTimeSelect true [1, 2] [3, 4] = [1, 2] ∧
    constantTimeSelect false [1, 2] [3, 4] = [3, 4] ∧ constantTimeEqual [1, 2] [1, 3] = false ∧
    constantTimeEqual [1, 2] [1, 2] = true := by decide

/-- R279, R281: KEYLEN is checked before CTLEN. -/
theorem test_kemDecaps_order :
    exec .kemDecaps { State.reset with set := .p512, keylen := 1631 } =
      .next (State.endsWith { State.reset with set := .p512, keylen := 1631 } .invalidKeySize) ∧
    exec .kemDecaps { State.reset with set := .p512, keylen := 1632, ctlen := 799 } =
      .next (State.endsWith { State.reset with set := .p512, keylen := 1632, ctlen := 799 } .invalidCiphertextSize) :=
  ⟨rfl, rfl⟩

/-- R275: KEYLEN = 736 with SET = 1 is the wrong length. -/
theorem test_kemEncaps_keylen :
    exec .kemEncaps { State.reset with set := .p768, keylen := 736 } =
      .next (State.endsWith { State.reset with set := .p768, keylen := 736 } .invalidKeySize) := rfl

/-- R254, R256, R273 need PARAM.SET (R118). -/
theorem test_composites_unconfigured :
    ∀ i ∈ [Instr.cpaKeypair, .cpaEnc, .cpaDec, .kemKeygen, .kemEncaps, .kemDecaps, .kemSkcheck],
      (nextOf (exec i State.reset)).map State.statusWord = some 0x206 := by decide

/-- R35, R53: STATUS after a dropped command while a command runs, and after it is acknowledged. -/
theorem test_status : (State.reset.acceptWith 0 3).statusWord = 1 ∧
    ((State.reset.acceptWith 0 3).writeCmd 0x10).statusWord = 9 ∧
    ((State.endsWith State.reset .invalidPrivateKey).statusWord = 0x506) ∧
    ((State.endsWith State.reset .invalidPrivateKey).acknowledge false true false).statusWord = 2 := by decide

/-- R343: an aborted NTT P3, P3 leaves P3 undefined. -/
theorem test_abort : (State.abort { State.reset.acceptWith 0x00006320 5 with preg := [(1535, 1), (1536, 2), (2047, 3), (2048, 4)] }).preg =
    [(1535, 1), (2048, 4)] := by decide

/-! ### Witnesses: for every statement with hypotheses, values that meet them, at the ends of their ranges -/

/-- Outcomes and errors of the host's accesses, for stating what a witness gives. -/
def readValue : Except Fault ReadResult → Option Word
  | .ok r => some r.value
  | .error _ => none

theorem nextOf_eq_some {o : Host.Outcome State Fault Refusal} {t : State} (h : nextOf o = some t) : o = .next t := by
  cases o with
  | next u => rw [Option.some.inj h]
  | fault f => cases h
  | refused r => cases h

/-- A reset block that runs the word `w` next. -/
def ready (w : Word) : State := State.reset.acceptWith w 0

theorem witness_EveryStepKeepsTheInvariant :
    (State.reset.Inv ∧ step State.reset = .next State.reset) ∧
    ((ready 0).Inv ∧ step (ready 0) = .next (ready 0).commitsNothing) ∧
    (State.Inv (State.reset.acceptWith 0x10 2) ∧
      step (State.reset.acceptWith 0x10 2) = .next (State.reset.acceptWith 0x10 1)) :=
  ⟨⟨by unfold State.Inv; decide, rfl⟩, ⟨by unfold State.Inv; decide, rfl⟩, ⟨by unfold State.Inv; decide, rfl⟩⟩

theorem witness_StepRunsTheDecodedCommand :
    ((ready 0x10).eng = .busy ((ready 0x10).snap) 0 ∧ decode (ready 0x10).snap.word = .ok .montr) ∧
    ((ready 0x83).eng = .busy ((ready 0x83).snap) 0 ∧ decode (ready 0x83).snap.word = .error .unlistedOpcode) ∧
    decode (tableWord 32 0x03341070) = .ok (.genmatrix 16 0x19A0) :=
  ⟨⟨rfl, rfl⟩, ⟨rfl, rfl⟩, rfl⟩

/-- A reset block whose host has the one line `l`. -/
def hosted (l : Line) : State := { State.reset with host := { HostAgent.reset with prog := [l] } }

theorem witness_HostLinesRun :
    State.reset.eng = .idle ∧ (State.reset.acceptWith 0 1).eng = .busy (State.reset.snapshotFor 0) 1 ∧
    (∀ l ∈ [Line.li 7 5, .addi 0 7 1, .andi 7 0 1, .beq 0 0 3, .bne 7 0 3, .write (.const 0x14) .word (.reg 0),
        .write (.reg 7) .word (.imm 5), .read 7 (.const 0) .word, .read 0 (.reg 7) .byte, .wait, .rst, .halt],
      (hosted l).host.prog[(hosted l).host.pos]? = some l) ∧
    (hosted (.write (.const 0x14) .word (.reg 0))).hostWrite 0x14 .word 0 =
      .ok (hosted (.write (.const 0x14) .word (.reg 0))) ∧
    (hosted (.write (.reg 7) .word (.imm 5))).hostWrite 0 .word 5 = .ok (hosted (.write (.reg 7) .word (.imm 5))) ∧
    (hosted (.read 7 (.const 0) .word)).hostRead 0 .word =
      .ok { value := 0x4B594231, after := hosted (.read 7 (.const 0) .word) } ∧
    (hosted (.read 0 (.reg 7) .byte)).hostRead 0 .byte = .error .narrowCsr :=
  ⟨rfl, rfl, by decide, rfl, rfl, rfl, rfl⟩

theorem witness_CommandCommitsAfterItsLatency :
    ((State.reset.acceptWith 0 3).eng = .busy (State.reset.snapshotFor 0) 3 ∧ (State.reset.acceptWith 0 3).HostHalted) ∧
    (((hosted .halt).acceptWith 0 0).eng = .busy ((hosted .halt).snapshotFor 0) 0 ∧
      ((hosted .halt).acceptWith 0 0).HostHalted) :=
  ⟨⟨rfl, .inl rfl⟩, ⟨rfl, .inr rfl⟩⟩

theorem witness_DecodeOfEncode : (Instr.genmatrix 31 8191).WellFormed ∧ (Instr.padd 31 31 31).WellFormed ∧
    (Instr.kemSkcheck).WellFormed := by decide

theorem witness_EncodeOfDecode : decode 0x03FFFF70 = .ok (.genmatrix 31 8191) ∧ decode 0 = .ok .nop := ⟨rfl, rfl⟩

theorem witness_DecoderMatchesTheMasks :
    decode 0x00000120 = .ok (.ntt 1 0) ∧
    (0x00000120 : Word) &&& (Instr.ntt 0 0).tableMask = (Instr.ntt 0 0).tableMatch ∧
    (¬ ∃ j : Instr, (0x00040020 : Word) &&& j.tableMask = j.tableMatch) ∧
    (ready 0x00040020).eng = .busy (ready 0x00040020).snap 0 ∧ (ready 0x00040020).snap.word = 0x00040020 := by
  refine ⟨rfl, by decide, ?_, rfl, rfl⟩
  rintro ⟨j, hj⟩
  cases j <;> simp only [Instr.tableMask, Instr.tableMatch, Instr.opcode] at hj <;> exact absurd hj (by decide)

theorem witness_UnlistedOpcodesAreIllegal :
    (∀ w, (ready w).eng = .busy (ready w).snap 0 ∧ (ready w).snap.word = w) ∧
    ∀ p ∈ [(0x01, 0x0F, 0x01), (0x01, 0x0F, 0x0F), (0x13, 0x1F, 0x13), (0x13, 0x1F, 0x1F), (0x22, 0x2F, 0x22),
        (0x22, 0x2F, 0x2F), (0x32, 0x3F, 0x32), (0x32, 0x3F, 0x3F), (0x48, 0x4F, 0x48), (0x48, 0x4F, 0x4F), (0x52, 0x5F, 0x52),
        (0x52, 0x5F, 0x5F), (0x68, 0x6F, 0x68), (0x68, 0x6F, 0x6F), (0x71, 0x7F, 0x71), (0x71, 0x7F, 0x7F), (0x83, 0x8F, 0x83),
        (0x83, 0x8F, 0x8F), (0x94, 0xFF, 0x94), (0x94, 0xFF, 0xFFFFFFFF)],
      p.1 ≤ (BitVec.ofNat 32 p.2.2).toNat % 256 ∧ (BitVec.ofNat 32 p.2.2).toNat % 256 ≤ p.2.1 :=
  ⟨fun _ => ⟨rfl, rfl⟩, by decide⟩

theorem witness_AcceptanceTakesTheSnapshot : State.reset.eng = .idle := rfl

theorem witness_DroppedCommandSetsOvr : (ready 0).eng = .busy (State.reset.snapshotFor 0) 0 := rfl

theorem witness_CommandsUseTheirSnapshot : State.reset.eng = .idle ∧
    (ready 0).eng = .busy (State.reset.snapshotFor 0) 0 ∧
    (State.reset.acceptWith 0 1).eng = .busy (State.reset.snapshotFor 0) 1 ∧
    step (State.reset.acceptWith 0 1) = .next (State.reset.acceptWith 0 0) ∧
    (State.reset.acceptWith 0 0).eng = .busy (State.reset.snapshotFor 0) 0 := ⟨rfl, rfl, rfl, rfl, rfl⟩

theorem witness_ParamSelectsTheSizes :
    ∀ row ∈ [(0, 2, 5, 736, 1632, 800), (1, 3, 4, 1088, 2400, 1152), (2, 4, 3, 1440, 3168, 1504), (3, 0, 0, 0, 0, 0)],
      ((BitVec.ofNat 32 row.1 : Word).toNat % 4 = row.1) := by decide

theorem witness_ControlRegistersReadBack :
    (0xFFFFFFFD : Word).getLsbD 1 = false ∧ (0x30 ≤ 0x30 ∧ 0x30 ≤ 0xFC ∧ 0x30 % 4 = 0) ∧
    (0x30 ≤ 0xFC ∧ 0xFC ≤ 0xFC ∧ 0xFC % 4 = 0) := by decide

theorem witness_InterruptIsEnabledCompletion :
    exec .nop (ready 0) = .next (ready 0).commitsNothing ∧
    (ready 0x83).commitWord 0x83 = .next ((ready 0x83).endsWith .illegalOpcode) ∧
    (∃ t, State.reset.hostWrite 0x0010 .word 0 = .ok t) ∧
    ((ready 0).isBusy = true ∧ ∃ t, (ready 0).hostWrite 0x0010 .word 0 = .ok t) ∧
    ((2 : Word).getLsbD 1 = true ∧ ∃ t, State.reset.hostWrite 0x0008 .word 2 = .ok t) ∧
    ((0 : Word).getLsbD 0 = false ∧ ∃ t, State.reset.hostWrite 0x0004 .word 0 = .ok t) ∧
    ((1 : Word).getLsbD 0 = true ∧ (1 : Word).getLsbD 1 = false ∧ ∃ t, State.reset.hostWrite 0x0004 .word 1 = .ok t) :=
  ⟨rfl, rfl, ⟨_, rfl⟩, ⟨rfl, _, rfl⟩, ⟨rfl, _, rfl⟩, ⟨rfl, _, rfl⟩, ⟨rfl, rfl, _, rfl⟩⟩

theorem witness_SoftResetClearsTheRegisters : (2 : Word).getLsbD 1 = true ∧ State.reset.eng = .idle := ⟨rfl, rfl⟩

theorem witness_AbortUndefinesTheDestinations :
    ((ready 0x83).eng = .busy (ready 0x83).snap 0 ∧ decode (ready 0x83).snap.word = .error .unlistedOpcode) ∧
    ((ready 0x80).eng = .busy (ready 0x80).snap 0 ∧ decode (ready 0x80).snap.word = .ok .cpaKeypair ∧
      (ready 0x80).errorOf .cpaKeypair = some .illegalParam) ∧
    ((ready 0x120).eng = .busy (ready 0x120).snap 0 ∧ decode (ready 0x120).snap.word = .ok (.ntt 1 0) ∧
      (ready 0x120).errorOf (.ntt 1 0) = none) ∧
    ((ready 0x10).errorOf .montr = none ∧ exec .montr (ready 0x10) = .next ((ready 0x10).commitsRes 0)) :=
  ⟨⟨rfl, rfl⟩, ⟨rfl, rfl, rfl⟩, ⟨rfl, rfl, rfl⟩, rfl, rfl⟩

theorem witness_BusErrorsStop :
    (0x2001 % Size.half.bytes ≠ 0 ∧ 0x2002 % Size.word.bytes ≠ 0) ∧
    (∀ a ∈ [0x0100, 0x1FFC, 0x4000, 0x7FFC, 0xC000, 0xFFFC, 0x10000, 0xFFFFFFFC], a % Size.word.bytes = 0 ∧
      (0x0100 ≤ a ∧ a < 0x2000 ∨ 0x4000 ≤ a ∧ a < 0x8000 ∨ 0xC000 ≤ a)) ∧
    (0xFF % Size.byte.bytes = 0 ∧ 0xFF < 0x0100 ∧ Size.byte ≠ .word ∧ 0 % Size.half.bytes = 0 ∧ Size.half ≠ .word) ∧
    (0 % 4 = 0 ∧ 0xFC % 4 = 0 ∧ 0xFC < 0x0100) := by decide

theorem witness_BusyStorageAccesses :
    (ready 0).eng = .busy (State.reset.snapshotFor 0) 0 ∧
    (∀ a ∈ [0x2000, 0x3FFC, 0x8000, 0xBFFC], a % Size.word.bytes = 0 ∧
      (0x2000 ≤ a ∧ a < 0x4000 ∨ 0x8000 ≤ a ∧ a < 0xC000)) ∧ 0xBFFF % Size.byte.bytes = 0 := ⟨rfl, by decide, rfl⟩

theorem witness_HostReadsBackWhatItWrote :
    State.reset.eng = .idle ∧
    (∀ a ∈ [0x2000, 0x3FFC, 0x8000, 0xBFFC], a % Size.word.bytes = 0 ∧
      (0x2000 ≤ a ∧ a < 0x4000 ∨ 0x8000 ≤ a ∧ a < 0xC000 ∧ Size.word ≠ .byte)) ∧
    (0x3FFF % Size.byte.bytes = 0 ∧ 0x2000 ≤ 0x3FFF ∧ 0x3FFF < 0x4000) ∧
    (0x2000 + Size.word.bytes ≤ 0x2004 ∨ 0x2004 + Size.word.bytes ≤ 0x2000) := ⟨rfl, by decide, by decide, by decide⟩

/-- A reset block with four bytes at the ends of BUF and PREG. -/
def fourBytes : State :=
  { State.reset with buf := [(8188, 1), (8189, 2), (8190, 3), (8191, 4)], preg := [(0, 5), (1, 6), (2, 7), (3, 8)] }

theorem witness_WordReadIsFourByteReads :
    fourBytes.eng = .idle ∧
    (0x3FFC % 4 = 0 ∧ fourBytes.hostRead 0x3FFC .byte = .ok { value := 1, after := fourBytes } ∧
      fourBytes.hostRead 0x3FFD .byte = .ok { value := 2, after := fourBytes } ∧
      fourBytes.hostRead 0x3FFE .byte = .ok { value := 3, after := fourBytes } ∧
      fourBytes.hostRead 0x3FFF .byte = .ok { value := 4, after := fourBytes }) ∧
    (0x8000 % 4 = 0 ∧ fourBytes.hostRead 0x8000 .byte = .ok { value := 5, after := fourBytes } ∧
      fourBytes.hostRead 0x8001 .byte = .ok { value := 6, after := fourBytes } ∧
      fourBytes.hostRead 0x8002 .byte = .ok { value := 7, after := fourBytes } ∧
      fourBytes.hostRead 0x8003 .byte = .ok { value := 8, after := fourBytes }) :=
  ⟨rfl, ⟨rfl, rfl, rfl, rfl, rfl⟩, ⟨rfl, rfl, rfl, rfl, rfl⟩⟩

def zeroPoly : Poly := List.replicate 256 0

theorem zeroPoly_length : IsPoly zeroPoly := List.length_replicate

theorem coeffNat_replicate {n c : Nat} (x : Coeff) (h : c < n) : coeffNat (List.replicate n x) c = x.toNat := by
  rw [coeffNat, List.getD_eq_getElem?_getD, List.getElem?_replicate, if_pos h]
  rfl

/-- An IDLE block with the given set, declared lengths and storage. -/
def block (set : ParamSet) (keylen ctlen : BitVec 16) (preg buf : Memory) : State :=
  { State.reset with set := set, keylen := keylen, ctlen := ctlen, preg := preg, buf := buf }

section
variable (set : ParamSet) (keylen ctlen : BitVec 16) (preg buf : Memory)

theorem block_set : (block set keylen ctlen preg buf).snap.set = set := rfl

theorem block_keylen : (block set keylen ctlen preg buf).snap.keylen = keylen := rfl

theorem block_ctlen : (block set keylen ctlen preg buf).snap.ctlen = ctlen := rfl

theorem block_arg : (block set keylen ctlen preg buf).snap.arg = 0 := rfl

theorem block_preg : (block set keylen ctlen preg buf).preg = preg := rfl

theorem block_buf : (block set keylen ctlen preg buf).buf = buf := rfl

theorem block_eng : (block set keylen ctlen preg buf).eng = .idle := rfl

end

theorem p512_k : ParamSet.p512.k = 2 := rfl

theorem p512_eta : ParamSet.p512.eta = 5 := rfl

/-- An IDLE block under a set, with `n` zero registers from P[r]. -/
def withRegs (set : ParamSet) (r n : Nat) : State := block set 0 0 (Memory.storePolys [] r (List.replicate n zeroPoly)) []

theorem polys_withRegs (set : ParamSet) (r n : Nat) :
    Memory.polys (withRegs set r n).preg r n = some (List.replicate n zeroPoly) := by
  have h := Memory.polys_storePolys_same [] r (List.replicate n zeroPoly) fun p hp => by
    rw [List.eq_of_mem_replicate hp]
    exact zeroPoly_length
  rw [List.length_replicate] at h
  rw [withRegs, block_preg]
  exact h

theorem poly_withRegs (set : ParamSet) (r : Nat) : Memory.poly (withRegs set r 1).preg r = some zeroPoly := by
  rw [withRegs, block_preg, List.replicate_one]
  simp only [Memory.storePolys]
  exact Memory.poly_storePoly_same [] r zeroPoly zeroPoly_length

/-- An IDLE block under a set, with the given bytes at an offset of BUF. -/
def withBytes (set : ParamSet) (o : Nat) (bs : Bytes) : State := block set 0 0 [] (Memory.storeBytes [] o bs)

theorem load_withBytes (set : ParamSet) (o n : Nat) :
    Memory.load (withBytes set o (List.replicate n 0)).buf o n = some (List.replicate n 0) := by
  have h := Memory.load_storeBytes_same [] o (List.replicate n (0 : Byte))
  rw [List.length_replicate] at h
  rw [withBytes, block_buf]
  exact h

theorem witness_PregWindowHoldsTheCoefficients :
    ((withRegs .p512 31 1).eng = .idle ∧ 31 < 32 ∧ 127 < 128 ∧
      Memory.poly (withRegs .p512 31 1).preg 31 = some zeroPoly) ∧
    (State.reset.eng = .idle ∧ 255 < 256 ∧ 1 < 2 ∧ Memory.byteAt State.reset.preg (512 * 31 + 2 * 255 + (1 - 1)) = none) :=
  ⟨⟨rfl, by decide, by decide, poly_withRegs .p512 31⟩, rfl, by decide, by decide, rfl⟩

theorem witness_ErrorsHaveNoOtherEffect :
    ((ready 0x80).eng = .busy (ready 0x80).snap 0 ∧ (ready 0x80).ecode = none ∧ (ready 0x80).err = false ∧
      step (ready 0x80) = .next ((ready 0x80).endsWith .illegalParam) ∧
      ((ready 0x80).endsWith .illegalParam).ecode = some .illegalParam) ∧
    ((ready 0).eng = .busy (ready 0).snap 0 ∧ (ready 0).ecode = none ∧ (ready 0).err = false ∧
      step (ready 0) = .next (ready 0).commitsNothing ∧ (ready 0).commitsNothing.ecode = none) :=
  ⟨⟨rfl, rfl, rfl, rfl, rfl⟩, rfl, rfl, rfl, rfl, rfl⟩

theorem witness_UnconfiguredSetIsIllegalParam : State.reset.snap.set = .unconfigured := rfl

theorem witness_OperandRangesAreChecked :
    (8192 < 7777 + 416 ∧ 8192 < 8097 + 96 ∧ 8192 < 7841 + 352 ∧ 8192 < 8161 + 32) ∧
    ∀ set ∈ [ParamSet.p512, .p768, .p1024], (withBytes set 0 []).snap.set ≠ .unconfigured ∧
      8192 < (8193 - 64 * set.eta) + 64 * set.eta ∧ 32 < (33 - set.k) + set.k ∧ 8192 < (8193 - 416 * set.k) + 416 * set.k ∧
      8192 < (8193 - 352 * set.k) + 352 * set.k ∧ 32 < (33 - set.k * set.k) + set.k * set.k := by decide

/-- A block under set 512 with a key of 1632 zero bytes, whose embedded hash is wrong. -/
def wrongKey : State := block .p512 1632 800 [] (Memory.storeBytes [] 0x0600 (List.replicate 1632 0))

theorem witness_KeysAndCiphertextsAreChecked :
    State.reset.keylen.toNat ≠ ParamSet.p512.pkSize ∧ State.reset.keylen.toNat ≠ ParamSet.p512.skSize ∧
    wrongKey.snap.set ≠ .unconfigured ∧ wrongKey.snap.keylen.toNat = wrongKey.snap.set.skSize ∧
    State.reset.ctlen.toNat ≠ ParamSet.p512.ctSize ∧ wrongKey.snap.ctlen.toNat = wrongKey.snap.set.ctSize ∧
    Memory.load wrongKey.buf 0x0600 (768 * wrongKey.snap.set.k + 96) = some (List.replicate 1632 0) ∧
    ((List.replicate 1632 (0 : Byte)).drop (768 * wrongKey.snap.set.k + 32)).take 32 ≠
      sponge.sha3_256 (((List.replicate 1632 0).drop (416 * wrongKey.snap.set.k)).take (352 * wrongKey.snap.set.k + 32)) := by
  have h := load_withBytes .p512 0x0600 1632
  rw [withBytes, block_buf] at h
  simp only [wrongKey, block_set, block_buf, block_keylen, block_ctlen, p512_k, Nat.reduceMul, Nat.reduceAdd]
  exact ⟨by decide, by decide, by decide, by decide, by decide, by decide, h, by decide +kernel⟩

theorem witness_CommandsChangeOnlyTheirDestinations :
    exec .freeze State.reset = .next (State.reset.commitsRes 0) ∧
    exec (.cbd 0 0) State.reset = .next (State.reset.endsWith .illegalParam) := ⟨rfl, rfl⟩

theorem witness_TransformsComplete : Memory.poly (withRegs .unconfigured 31 1).preg 31 = some zeroPoly :=
  poly_withRegs .unconfigured 31

theorem witness_AdditionAndSubtractionComplete :
    Memory.poly (withRegs .unconfigured 0 1).preg 0 = some zeroPoly ∧
    (∀ c < 256, coeffNat zeroPoly c + coeffNat zeroPoly c < 2 ^ 16 ∧ coeffNat zeroPoly c ≤ coeffNat zeroPoly c + 23043 ∧
      coeffNat zeroPoly c + 23043 - coeffNat zeroPoly c < 2 ^ 16) := by
  refine ⟨poly_withRegs .unconfigured 0, fun c h => ?_⟩
  rw [zeroPoly, coeffNat_replicate 0 h]
  decide

theorem witness_PackCommandsComplete : Memory.poly (withRegs .unconfigured 31 1).preg 31 = some zeroPoly ∧
    7776 + 416 ≤ 8192 ∧ 8096 + 96 ≤ 8192 ∧ 7840 + 352 ≤ 8192 ∧ 8160 + 32 ≤ 8192 :=
  ⟨poly_withRegs .unconfigured 31, by decide, by decide, by decide, by decide⟩

theorem witness_UnpackCommandsComplete :
    (7776 + 416 ≤ 8192 ∧
      Memory.load (withBytes .unconfigured 7776 (List.replicate 416 0)).buf 7776 416 = some (List.replicate 416 0)) ∧
    (8096 + 96 ≤ 8192 ∧
      Memory.load (withBytes .unconfigured 8096 (List.replicate 96 0)).buf 8096 96 = some (List.replicate 96 0)) ∧
    (7840 + 352 ≤ 8192 ∧
      Memory.load (withBytes .unconfigured 7840 (List.replicate 352 0)).buf 7840 352 = some (List.replicate 352 0)) ∧
    (8160 + 32 ≤ 8192 ∧
      Memory.load (withBytes .unconfigured 8160 (List.replicate 32 0)).buf 8160 32 = some (List.replicate 32 0)) :=
  ⟨⟨by decide, load_withBytes _ _ _⟩, ⟨by decide, load_withBytes _ _ _⟩, ⟨by decide, load_withBytes _ _ _⟩,
    by decide, load_withBytes _ _ _⟩

theorem witness_NoiseCommandsComplete :
    ParamSet.p512 ≠ .unconfigured ∧ (7872 + 64 * ParamSet.p512.eta ≤ 8192 ∧
      Memory.load (withBytes .p512 7872 (List.replicate 320 0)).buf 7872 (64 * ParamSet.p512.eta) =
        some (List.replicate 320 0)) ∧
    (8160 + 32 ≤ 8192 ∧
      Memory.load (withBytes .p1024 8160 (List.replicate 32 0)).buf 8160 32 = some (List.replicate 32 0)) :=
  ⟨by decide, ⟨by decide, load_withBytes _ _ _⟩, by decide, load_withBytes _ _ _⟩

theorem witness_VectorArithmeticCompletes :
    (withRegs .p1024 28 4).snap.set ≠ .unconfigured ∧ 28 + (withRegs .p1024 28 4).snap.set.k ≤ 32 ∧
    Memory.polys (withRegs .p1024 28 4).preg 28 (withRegs .p1024 28 4).snap.set.k = some (List.replicate 4 zeroPoly) :=
  ⟨by decide, by decide, polys_withRegs .p1024 28 4⟩

theorem witness_VectorSerialisationCompletes :
    ((withRegs .p768 29 3).snap.set ≠ .unconfigured ∧ 29 + (withRegs .p768 29 3).snap.set.k ≤ 32 ∧
      Memory.polys (withRegs .p768 29 3).preg 29 (withRegs .p768 29 3).snap.set.k = some (List.replicate 3 zeroPoly) ∧
      6944 + 416 * (withRegs .p768 29 3).snap.set.k ≤ 8192 ∧ 7136 + 352 * (withRegs .p768 29 3).snap.set.k ≤ 8192) ∧
    Memory.load (withBytes .p768 6944 (List.replicate 1248 0)).buf 6944 (416 * ParamSet.p768.k) =
      some (List.replicate 1248 0) ∧
    Memory.load (withBytes .p768 7136 (List.replicate 1056 0)).buf 7136 (352 * ParamSet.p768.k) =
      some (List.replicate 1056 0) :=
  ⟨⟨by decide, by decide, polys_withRegs .p768 29 3, by decide, by decide⟩, load_withBytes _ _ _, load_withBytes _ _ _⟩

/-! The matrix of the zero seed, and of the seed that key generation derives from the zero draw. -/

theorem sampled {h : Sponge} {fuel x y n : Nat} {seed : Bytes} {l : List Nat}
    (e : (sampleF h fuel seed x y).map (firstNats n) = some l) : (sampleF h fuel seed x y).isSome = true := by
  cases hs : sampleF h fuel seed x y with
  | none => rw [hs] at e; cases e
  | some p => rfl

/-- At k = 2 the matrix is sampled when its four cells are. -/
theorem genmatrix_isSome {h : Sponge} {fuel : Nat} {seed : Bytes} (c00 : (sampleF h fuel seed 0 0).isSome = true)
    (c01 : (sampleF h fuel seed 0 1).isSome = true) (c10 : (sampleF h fuel seed 1 0).isSome = true)
    (c11 : (sampleF h fuel seed 1 1).isSome = true) (tr : Bool) : ∃ a, genmatrixF h fuel seed tr 2 = some a := by
  obtain ⟨p00, h00⟩ := Option.isSome_iff_exists.1 c00
  obtain ⟨p01, h01⟩ := Option.isSome_iff_exists.1 c01
  obtain ⟨p10, h10⟩ := Option.isSome_iff_exists.1 c10
  obtain ⟨p11, h11⟩ := Option.isSome_iff_exists.1 c11
  cases tr <;> simp [genmatrixF, cellIndex, List.range_succ, h00, h01, h10, h11]

theorem zeroSeed_matrix (tr : Bool) : ∃ a, genmatrixF sponge Config.genmatFuel zeroSeed tr 2 = some a :=
  genmatrix_isSome (sampled test_genmatrix_cell00) (sampled test_genmatrix_cell10) (sampled test_genmatrix_cell01)
    test_genmatrix_cell11 tr

/-- The public seed that key generation derives from the zero draw. -/
def derivedSeed : Bytes := (sponge.sha3_512 zeroSeed).take 32

theorem derivedSeed_eq : derivedSeed = [173, 86, 195, 92, 171, 80, 99, 185, 231, 234, 86, 131, 20, 236, 129, 196, 11, 165, 119, 170, 230, 48, 222,
    144, 32, 4, 0, 158, 136, 241, 141, 165] := by decide +kernel

theorem derived_cell00 : (sampleF sponge Config.genmatFuel derivedSeed 0 0).isSome = true := by
  rw [derivedSeed_eq]; decide +kernel

theorem derived_cell01 : (sampleF sponge Config.genmatFuel derivedSeed 0 1).isSome = true := by
  rw [derivedSeed_eq]; decide +kernel

theorem derived_cell10 : (sampleF sponge Config.genmatFuel derivedSeed 1 0).isSome = true := by
  rw [derivedSeed_eq]; decide +kernel

theorem derived_cell11 : (sampleF sponge Config.genmatFuel derivedSeed 1 1).isSome = true := by
  rw [derivedSeed_eq]; decide +kernel

theorem cpaKeypair_isSome {h : Sponge} {fuel k eta : Nat} {d : Bytes} {a : List (List Poly)}
    (ha : genmatrixF h fuel ((h.sha3_512 d).take 32) false k = some a) :
    ∃ pk sk, cpaKeypairF h fuel k eta d = some (pk, sk) := by
  simp only [cpaKeypairF, ha]
  exact ⟨_, _, rfl⟩

theorem cpaEnc_isSome {h : Sponge} {fuel k eta : Nat} {m pk coins : Bytes} {a : List (List Poly)}
    (ha : genmatrixF h fuel ((pk.drop (352 * k)).take 32) true k = some a) :
    ∃ ct, cpaEncF h fuel k eta m pk coins = some ct := by
  simp only [cpaEncF, ha]
  exact ⟨_, rfl⟩

theorem kemDecaps_isSome {h : Sponge} {fuel k eta : Nat} {ct sk ct' : Bytes}
    (hc : cpaEncF h fuel k eta (cpaDecF k ct (sk.take (416 * k))) ((sk.drop (416 * k)).take (352 * k + 32))
      (((h.sha3_512 (cpaDecF k ct (sk.take (416 * k)) ++ (sk.drop (768 * k + 32)).take 32)).drop 32).take 32) = some ct') :
    ∃ ss, kemDecapsF h fuel k eta ct sk = some ss := by
  simp only [kemDecapsF, hc]
  exact ⟨_, rfl⟩

theorem zeroDraw_keypair : ∃ pk sk, cpaKeypairF sponge Config.genmatFuel 2 5 zeroSeed = some (pk, sk) := by
  obtain ⟨a, ha⟩ := genmatrix_isSome derived_cell00 derived_cell01 derived_cell10 derived_cell11 false
  rw [derivedSeed] at ha
  exact cpaKeypair_isSome ha

/-- A public key of zeros carries the zero seed, so every message is encrypted under it. -/
theorem zeroKey_encrypts (m coins : Bytes) :
    ∃ ct, cpaEncF sponge Config.genmatFuel 2 5 m (List.replicate 736 0) coins = some ct := by
  obtain ⟨a, ha⟩ := zeroSeed_matrix true
  have hs : ((List.replicate 736 (0 : Byte)).drop (352 * 2)).take 32 = zeroSeed := by
    rw [List.drop_replicate, List.take_replicate]
    rfl
  exact cpaEnc_isSome (hs ▸ ha)

theorem witness_GenmatrixCompletes :
    (withBytes .p512 8160 zeroSeed).snap.set ≠ .unconfigured ∧
    28 + (withBytes .p512 8160 zeroSeed).snap.set.k * (withBytes .p512 8160 zeroSeed).snap.set.k ≤ 32 ∧
    8160 + 32 ≤ 8192 ∧ Memory.load (withBytes .p512 8160 zeroSeed).buf 8160 32 = some zeroSeed ∧
    ∃ a, genmatrixF sponge Config.genmatFuel zeroSeed
      (decide ((withBytes .p512 8160 zeroSeed).snap.arg.toNat % 2 = 1)) (withBytes .p512 8160 zeroSeed).snap.set.k = some a :=
  ⟨by decide, by decide, by decide, load_withBytes _ _ _, zeroSeed_matrix _⟩

/-- A block under set 512 with the inputs of every composite command: RND0, RND1, MSG and COINS zero, PK zero, and the
KEM private key built from zeros with the right hash. -/
def compositeKey : Bytes := List.replicate 832 0 ++ List.replicate 736 0 ++ sponge.sha3_256 (List.replicate 736 0) ++ zeroSeed

theorem compositeKey_length : compositeKey.length = 1632 := by
  simp only [compositeKey, List.length_append, List.length_replicate, zeroSeed, sponge_sized.sha3_256]

/-- BUF with the given bytes in the regions SK, PK, CT and RND0 to COINS. -/
def compositeBuf : Memory :=
  Memory.storeBytes (Memory.storeBytes (Memory.storeBytes (Memory.storeBytes [] 0x0600 compositeKey) 0x0000
    (List.replicate 736 0)) 0x1300 (List.replicate 800 0)) 0x1920 (List.replicate 128 0)

def composite : State := block .p512 1632 800 [] compositeBuf

/-- The same block with the public key's length declared. -/
def compositePk : State := block .p512 736 800 [] compositeBuf

theorem load_inside (m : Memory) (o n k l : Nat) (h : k + l ≤ n) :
    Memory.load (Memory.storeBytes m o (List.replicate n 0)) (o + k) l = some (List.replicate l 0) := by
  refine (Memory.load_eq_some_iff _ _ _ _).2 ⟨List.length_replicate, fun i hi => ?_⟩
  rw [Memory.byteAt_storeBytes, if_pos (by rw [List.length_replicate]; omega), List.getElem?_replicate,
    List.getElem?_replicate, if_pos (by omega), if_pos (by omega)]

theorem composite_rnd0 : Memory.load compositeBuf 0x1920 32 = some zeroSeed := load_inside _ 0x1920 128 0 32 (by decide)

theorem composite_rnd1 : Memory.load compositeBuf 0x1940 32 = some zeroSeed := load_inside _ 0x1920 128 32 32 (by decide)

theorem composite_msg : Memory.load compositeBuf 0x1960 32 = some zeroSeed := load_inside _ 0x1920 128 64 32 (by decide)

theorem composite_coins : Memory.load compositeBuf 0x1980 32 = some zeroSeed := load_inside _ 0x1920 128 96 32 (by decide)

theorem composite_ct : Memory.load compositeBuf 0x1300 800 = some (List.replicate 800 0) := by
  rw [compositeBuf, Memory.load_storeBytes_disjoint _ _ _ (.inl (by decide))]
  exact load_inside _ 0x1300 800 0 800 (by decide)

theorem composite_pk : Memory.load compositeBuf 0x0000 736 = some (List.replicate 736 0) := by
  rw [compositeBuf, Memory.load_storeBytes_disjoint _ _ _ (.inl (by decide)),
    Memory.load_storeBytes_disjoint _ _ _ (.inl (by decide))]
  exact load_inside _ 0x0000 736 0 736 (by decide)

theorem composite_skc : ∃ sk, Memory.load compositeBuf 0x0600 832 = some sk := by
  refine ⟨compositeKey.take 832, (Memory.load_eq_some_iff _ _ _ _).2 ⟨?_, fun i hi => ?_⟩⟩
  · rw [List.length_take, compositeKey_length]
    rfl
  · rw [compositeBuf, Memory.byteAt_storeBytes_outside _ _ _ (.inl (by omega)),
      Memory.byteAt_storeBytes_outside _ _ _ (.inl (by omega)),
      Memory.byteAt_storeBytes_outside _ _ _ (.inr (by rw [List.length_replicate]; omega)), Memory.byteAt_storeBytes,
      if_pos (by rw [compositeKey_length]; omega), List.getElem?_take, if_pos hi]
    rw [Nat.add_sub_cancel_left]

theorem composite_sk : Memory.load compositeBuf 0x0600 1632 = some compositeKey := by
  have h := Memory.load_storeBytes_same [] 0x0600 compositeKey
  rw [compositeKey_length] at h
  rw [compositeBuf, Memory.load_storeBytes_disjoint _ 0x1920 _ (.inl (by omega)),
    Memory.load_storeBytes_disjoint _ 0x1300 _ (.inl (by omega)),
    Memory.load_storeBytes_disjoint _ 0x0000 _ (.inr (by rw [List.length_replicate]; omega))]
  exact h

theorem compositeKey_pk : (compositeKey.drop 832).take 736 = List.replicate 736 0 := by
  rw [compositeKey, List.append_assoc, List.append_assoc, List.drop_left' (by rw [List.length_replicate]),
    List.take_left' (by rw [List.length_replicate])]

theorem compositeKey_hash : (compositeKey.drop 1568).take 32 = sponge.sha3_256 (List.replicate 736 0) := by
  rw [compositeKey, List.append_assoc, List.drop_left' (by rw [List.length_append, List.length_replicate, List.length_replicate]),
    List.take_left' (sponge_sized.sha3_256 _)]

/-- A block that holds the private key alone. -/
def keyOnly : State := block .p512 1632 800 [] (Memory.storeBytes [] 0x0600 compositeKey)

theorem witness_UndefinedOperandsFault :
    (∀ r, Memory.poly State.reset.preg r = none) ∧
    (∀ n ∈ [416, 96, 352, 32], (8192 - n) + n ≤ 8192 ∧ Memory.load State.reset.buf (8192 - n) n = none) ∧
    (∀ set ∈ [ParamSet.p512, .p768, .p1024], set ≠ .unconfigured ∧ (block set 0 0 [] []).snap.set = set ∧
      (32 - set.k) + set.k ≤ 32 ∧ (32 - set.k * set.k) + set.k * set.k ≤ 32 ∧
      Memory.polys (block set 0 0 [] []).preg (32 - set.k) set.k = none ∧
      (∀ n ∈ [64 * set.eta, 32, 416 * set.k, 352 * set.k], (8192 - n) + n ≤ 8192 ∧
        Memory.load (block set 0 0 [] []).buf (8192 - n) n = none) ∧
      (∀ o ∈ [0x1920, 0x1940, 0x1960, 0x1980], Memory.load (block set 0 0 [] []).buf o 32 = none) ∧
      Memory.load (block set 0 0 [] []).buf 0x0000 (352 * set.k + 32) = none ∧
      Memory.load (block set 0 0 [] []).buf 0x1300 (352 * set.k + 96) = none ∧
      Memory.load (block set 0 0 [] []).buf 0x0600 (416 * set.k) = none ∧
      Memory.load (block set 0 0 [] []).buf 0x0600 (768 * set.k + 96) = none ∧
      (block set (BitVec.ofNat 16 set.pkSize) 0 [] []).snap.keylen.toNat = set.pkSize ∧
      (block set (BitVec.ofNat 16 set.skSize) (BitVec.ofNat 16 set.ctSize) [] []).snap.keylen.toNat = set.skSize ∧
      (block set (BitVec.ofNat 16 set.skSize) (BitVec.ofNat 16 set.ctSize) [] []).snap.ctlen.toNat = set.ctSize) ∧
    (keyOnly.snap.set ≠ .unconfigured ∧ keyOnly.snap.keylen.toNat = keyOnly.snap.set.skSize ∧
      Memory.load keyOnly.buf 0x0600 (768 * keyOnly.snap.set.k + 96) = some compositeKey ∧
      (compositeKey.drop (768 * keyOnly.snap.set.k + 32)).take 32 =
        sponge.sha3_256 ((compositeKey.drop (416 * keyOnly.snap.set.k)).take (352 * keyOnly.snap.set.k + 32)) ∧
      keyOnly.snap.ctlen.toNat = keyOnly.snap.set.ctSize ∧
      Memory.load keyOnly.buf 0x1300 (352 * keyOnly.snap.set.k + 96) = none) := by
  refine ⟨fun _ => rfl, by decide, by decide, ?_⟩
  have h := Memory.load_storeBytes_same [] 0x0600 compositeKey
  rw [compositeKey_length] at h
  simp only [keyOnly, block_set, block_buf, block_keylen, block_ctlen, p512_k, Nat.reduceMul, Nat.reduceAdd]
  refine ⟨by decide, by decide, h, by rw [compositeKey_hash, compositeKey_pk], by decide, ?_⟩
  rw [Memory.load_storeBytes_disjoint _ _ _ (.inr (by rw [compositeKey_length]; omega))]
  rfl

theorem witness_IndCpaCommandsComplete :
    composite.snap.set ≠ .unconfigured ∧
    (Memory.load composite.buf 0x1920 32 = some zeroSeed ∧
      ∃ pk sk, cpaKeypairF sponge Config.genmatFuel composite.snap.set.k composite.snap.set.eta zeroSeed = some (pk, sk)) ∧
    (Memory.load composite.buf 0x1960 32 = some zeroSeed ∧
      Memory.load composite.buf 0x0000 (352 * composite.snap.set.k + 32) = some (List.replicate 736 0) ∧
      Memory.load composite.buf 0x1980 32 = some zeroSeed ∧
      ∃ ct, cpaEncF sponge Config.genmatFuel composite.snap.set.k composite.snap.set.eta zeroSeed (List.replicate 736 0)
        zeroSeed = some ct) ∧
    (Memory.load composite.buf 0x1300 (352 * composite.snap.set.k + 96) = some (List.replicate 800 0) ∧
      ∃ sk, Memory.load composite.buf 0x0600 (416 * composite.snap.set.k) = some sk) :=
  by
  simp only [composite, block_set, block_buf, p512_k, p512_eta, Nat.reduceMul, Nat.reduceAdd]
  exact ⟨by decide, ⟨composite_rnd0, zeroDraw_keypair⟩,
    ⟨composite_msg, composite_pk, composite_coins, zeroKey_encrypts _ _⟩, composite_ct, composite_skc⟩

theorem witness_KeyGenerationAndEncapsulationComplete :
    compositePk.snap.set ≠ .unconfigured ∧
    (Memory.load compositePk.buf 0x1920 32 = some zeroSeed ∧ Memory.load compositePk.buf 0x1940 32 = some zeroSeed ∧
      ∃ pk skc, cpaKeypairF sponge Config.genmatFuel compositePk.snap.set.k compositePk.snap.set.eta zeroSeed =
        some (pk, skc)) ∧
    (compositePk.snap.keylen.toNat = compositePk.snap.set.pkSize ∧
      Memory.load compositePk.buf 0x0000 (352 * compositePk.snap.set.k + 32) = some (List.replicate 736 0) ∧
      ∃ ct, cpaEncF sponge Config.genmatFuel compositePk.snap.set.k compositePk.snap.set.eta (sponge.sha3_256 zeroSeed)
        (List.replicate 736 0)
        (((sponge.sha3_512 (sponge.sha3_256 zeroSeed ++ sponge.sha3_256 (List.replicate 736 0))).drop 32).take 32) = some ct) :=
  by
  simp only [compositePk, block_set, block_buf, block_keylen, p512_k, p512_eta, Nat.reduceMul, Nat.reduceAdd]
  exact ⟨by decide, ⟨composite_rnd0, composite_rnd1, zeroDraw_keypair⟩, by decide, composite_pk, zeroKey_encrypts _ _⟩

theorem zeroKey_decapsulates (ct : Bytes) : ∃ ss, kemDecapsF sponge Config.genmatFuel 2 5 ct compositeKey = some ss := by
  obtain ⟨ct', h⟩ := zeroKey_encrypts (cpaDecF 2 ct (compositeKey.take (416 * 2)))
    (((sponge.sha3_512 (cpaDecF 2 ct (compositeKey.take (416 * 2)) ++ (compositeKey.drop (768 * 2 + 32)).take 32)).drop 32).take 32)
  rw [← compositeKey_pk] at h
  exact kemDecaps_isSome h

theorem witness_DecapsulationAndKeyCheckComplete :
    composite.snap.set ≠ .unconfigured ∧ composite.snap.keylen.toNat = composite.snap.set.skSize ∧
    Memory.load composite.buf 0x0600 (768 * composite.snap.set.k + 96) = some compositeKey ∧
    (compositeKey.drop (768 * composite.snap.set.k + 32)).take 32 =
      sponge.sha3_256 ((compositeKey.drop (416 * composite.snap.set.k)).take (352 * composite.snap.set.k + 32)) ∧
    composite.snap.ctlen.toNat = composite.snap.set.ctSize ∧
    Memory.load composite.buf 0x1300 (352 * composite.snap.set.k + 96) = some (List.replicate 800 0) ∧
    ∃ ss, kemDecapsF sponge Config.genmatFuel composite.snap.set.k composite.snap.set.eta (List.replicate 800 0)
      compositeKey = some ss := by
  simp only [composite, block_set, block_buf, block_keylen, block_ctlen, p512_k, p512_eta, Nat.reduceMul, Nat.reduceAdd]
  refine ⟨by decide, by decide, composite_sk, ?_, by decide, composite_ct, zeroKey_decapsulates _⟩
  rw [compositeKey_hash, compositeKey_pk]

theorem witness_ReductionLaws : (0x78000000 : Word).toNat ≤ 2013265920 := by decide

theorem witness_PackBitsIsTheBitLayout : (∀ v ∈ [0, 8191, 0, 0, 0, 0, 0, 4096], v < 2 ^ 13) ∧
    13 * [0, 8191, 0, 0, 0, 0, 0, 4096].length % 8 = 0 ∧ 12 < 13 * [0, 8191, 0, 0, 0, 0, 0, 4096].length / 8 ∧
    0 < 1 ∧ 255 < 256 := by decide

theorem witness_SerialisationRoundTrips : zeroPoly.length = 256 ∧ (List.replicate 416 (0 : Byte)).length = 416 ∧
    (List.replicate 96 (0 : Byte)).length = 96 ∧ (List.replicate 352 (0 : Byte)).length = 352 ∧
    (List.replicate 32 (0 : Byte)).length = 32 :=
  ⟨zeroPoly_length, List.length_replicate, List.length_replicate, List.length_replicate, List.length_replicate⟩

theorem witness_CbdCountsOnes : ∀ eta ∈ [3, 4, 5], (eta = 3 ∨ eta = 4 ∨ eta = 5) ∧
    (List.replicate (64 * eta) (0 : Byte)).length = 64 * eta := by
  intro eta h
  exact ⟨by simpa using h, List.length_replicate⟩

theorem witness_PaccIsTheInnerProduct : ∀ k ∈ [1, 4], 1 ≤ k ∧ k ≤ 4 ∧ (List.replicate k zeroPoly).length = k ∧
    ∀ p ∈ List.replicate k zeroPoly, p.length = 256 := by
  intro k h
  refine ⟨?_, ?_, List.length_replicate, fun p hp => ?_⟩
  · simp only [List.mem_cons, List.not_mem_nil, or_false] at h; omega
  · simp only [List.mem_cons, List.not_mem_nil, or_false] at h; omega
  · rw [List.eq_of_mem_replicate hp]
    exact zeroPoly_length

theorem witness_MatrixLaws : ∃ aT, genmatrixF sponge Config.genmatFuel zeroSeed true 2 = some aT := zeroSeed_matrix true

theorem witness_SpongeStreamsAreConsistent : 0 ≤ 168 ∧
    ∃ p, sampleF sponge Config.genmatFuel zeroSeed 0 0 = some p ∧ Config.genmatFuel ≤ Config.genmatFuel + 168 := by
  obtain ⟨p, hp⟩ := Option.isSome_iff_exists.1 (sampled test_genmatrix_cell00)
  exact ⟨by decide, p, hp, Nat.le_add_right _ _⟩

/-- The constant polynomial at the bound of R167. -/
def boundPoly : Poly := List.replicate 256 26358

theorem witness_NttFollowsThePseudocode : zeroPoly.length = 256 := zeroPoly_length

theorem witness_InvnttFollowsThePseudocode : zeroPoly.length = 256 := zeroPoly_length

theorem witness_NttEvaluatesThePolynomial : boundPoly.length = 256 ∧ ∀ c < 256, coeffNat boundPoly c ≤ 26358 :=
  ⟨List.length_replicate, fun c h => by rw [boundPoly, coeffNat_replicate _ h]; decide⟩

theorem witness_TransformRoundTrip : boundPoly.length = 256 ∧ ∀ c < 256, coeffNat boundPoly c ≤ 26358 :=
  witness_NttEvaluatesThePolynomial

theorem witness_IndCpaOutputsHaveTheirLengths :
    (∃ pk sk, cpaKeypairF sponge Config.genmatFuel 2 5 zeroSeed = some (pk, sk)) ∧
    (zeroSeed.length = 32 ∧
      ∃ ct, cpaEncF sponge Config.genmatFuel 2 5 zeroSeed (List.replicate 736 0) zeroSeed = some ct) ∧ 1 ≤ 2 :=
  ⟨zeroDraw_keypair, ⟨List.length_replicate, zeroKey_encrypts _ _⟩, by decide⟩

theorem witness_DecapsulationRejectsImplicitly :
    compositeKey.length = 768 * 2 + 96 ∧
    ∃ ct', cpaEncF sponge Config.genmatFuel 2 5 (cpaDecF 2 zeroSeed (compositeKey.take (416 * 2)))
      ((compositeKey.drop (416 * 2)).take (352 * 2 + 32))
      (((sponge.sha3_512 (cpaDecF 2 zeroSeed (compositeKey.take (416 * 2)) ++
        (compositeKey.drop (768 * 2 + 32)).take 32)).drop 32).take 32) = some ct' := by
  simp only [Nat.reduceMul, Nat.reduceAdd, compositeKey_pk]
  exact ⟨compositeKey_length, zeroKey_encrypts _ _⟩

theorem keygen_then_check (buf : Memory) {d z pk sk : Bytes} (h0 : Memory.load buf regionRND0 32 = some d)
    (h1 : Memory.load buf regionRND1 32 = some z) (h : cpaKeypairF sponge Config.genmatFuel 2 5 d = some (pk, sk)) :
    ∃ t u : State, exec .kemKeygen (block .p512 1632 800 [] buf) = .next t ∧ u.buf = t.buf ∧ u.snap.set = .p512 ∧
      u.snap.keylen = 1632 := by
  have hk : kemKeygenF sponge Config.genmatFuel 2 5 d z = some (pk, sk ++ pk ++ sponge.sha3_256 pk ++ z) := by
    simp only [kemKeygenF, h]
  have hc : (block .p512 1632 800 [] buf).check .kemKeygen = .ok () := rfl
  have m0 : (block .p512 1632 800 [] buf).memRead regionRND0 32 = .ok d := State.memRead_eq_ok.2 h0
  have m1 : (block .p512 1632 800 [] buf).memRead regionRND1 32 = .ok z := State.memRead_eq_ok.2 h1
  refine ⟨((block .p512 1632 800 [] buf).applyWrites
    { buf := [(regionPK, pk), (regionSK, sk ++ pk ++ sponge.sha3_256 pk ++ z)] }).complete,
    block .p512 1632 800 [] ((block .p512 1632 800 [] buf).applyWrites
      { buf := [(regionPK, pk), (regionSK, sk ++ pk ++ sponge.sha3_256 pk ++ z)] }).buf, ?_, rfl, rfl, rfl⟩
  show execKemKeygen _ = _
  simp only [execKemKeygen, block_set, p512_k, p512_eta]
  rw [hc, ok_bind, m0, ok_bind, m1, ok_bind, hk, orFault_some, ok_bind]
  rfl

/-- Key generation from zero draws completes, and a later state holds its key with the length declared. -/
theorem witness_GeneratedKeyPassesTheCheck :
    ∃ t u : State, composite.snap.set ≠ .unconfigured ∧ exec .kemKeygen composite = .next t ∧ u.buf = t.buf ∧
      u.snap.set = composite.snap.set ∧ u.snap.keylen.toNat = composite.snap.set.skSize := by
  obtain ⟨pk, sk, h⟩ := zeroDraw_keypair
  obtain ⟨t, u, he, hb, hs, hl⟩ := keygen_then_check compositeBuf composite_rnd0 composite_rnd1 h
  simp only [composite, block_set]
  exact ⟨t, u, by decide, he, hb, hs, by rw [hl]; decide⟩

theorem errorOf_none {s : State} {i : Instr} (h : s.check i = .ok ()) : s.errorOf i = none := by rw [State.errorOf, h]

theorem composite_keyOk (preg : Memory) (keylen ctlen : BitVec 16) (i : Instr) :
    (block .p512 keylen ctlen preg compositeBuf).KeyHashOk i := by
  intro _
  have h : Memory.load compositeBuf regionSK (skLen 2) = some compositeKey := by
    simp only [regionSK, skLen, Nat.reduceMul, Nat.reduceAdd]
    exact composite_sk
  rw [block_buf, block_set, p512_k]
  refine ⟨compositeKey, h, ?_⟩
  simp only [skCheck, Nat.reduceMul, Nat.reduceAdd, decide_eq_true_eq]
  rw [compositeKey_hash, compositeKey_pk]

theorem composite_skcheck_passes (preg : Memory) (ctlen : BitVec 16) :
    (block .p512 1632 ctlen preg compositeBuf).errorOf .kemSkcheck = none := by
  refine errorOf_none ((State.check_eq_ok _ _).2 ?_)
  rw [block_set, block_keylen, block_ctlen]
  refine ⟨fun _ => by decide, ?_, ?_, ?_, ?_, composite_keyOk _ _ _ _⟩ <;>
    simp [Instr.groups, Instr.bufRange, Instr.keySize, Instr.ctSize, ParamSet.skSize]

theorem composite_decaps_passes (preg : Memory) : (block .p512 1632 800 preg compositeBuf).errorOf .kemDecaps = none := by
  refine errorOf_none ((State.check_eq_ok _ _).2 ?_)
  rw [block_set, block_keylen, block_ctlen]
  refine ⟨fun _ => by decide, ?_, ?_, ?_, ?_, composite_keyOk _ _ _ _⟩ <;>
    simp [Instr.groups, Instr.bufRange, Instr.keySize, Instr.ctSize, ParamSet.skSize, ParamSet.ctSize]

/-- The hypotheses of the first clause of `Obligations.LatencyDependsOnPublicValues`. -/
def LatencyHypotheses (s s' : State) (w w' : Word) : Prop :=
  s.eng = .idle ∧ s'.eng = .idle ∧ s.draws = s'.draws ∧ s.set = s'.set ∧ w.toNat % 256 = w'.toNat % 256 ∧
  (match decode w with
    | .ok i => s.errorOf i
    | .error _ => some .illegalOpcode) =
    (match decode w' with
    | .ok i => s'.errorOf i
    | .error _ => some .illegalOpcode) ∧
  ∀ i i', decode w = .ok i → decode w' = .ok i' → s.errorOf i = none → s'.errorOf i' = none →
    s.matrixSeed i = s'.matrixSeed i'

theorem latencyHypotheses_of {set : ParamSet} {keylen keylen' ctlen ctlen' : BitVec 16} {preg preg' buf buf' : Memory}
    {w w' : Word} {i i' : Instr} (hw : decode w = .ok i) (hw' : decode w' = .ok i') (ho : w.toNat % 256 = w'.toNat % 256)
    (he : (block set keylen ctlen preg buf).errorOf i = (block set keylen' ctlen' preg' buf').errorOf i')
    (hm : (block set keylen ctlen preg buf).matrixSeed i = (block set keylen' ctlen' preg' buf').matrixSeed i') :
    LatencyHypotheses (block set keylen ctlen preg buf) (block set keylen' ctlen' preg' buf') w w' := by
  refine ⟨rfl, rfl, rfl, rfl, ho, by rw [hw, hw']; exact he, fun j j' h h' _ _ => ?_⟩
  rw [hw] at h
  rw [hw'] at h'
  cases h
  cases h'
  exact hm

/-- Two words of one opcode in blocks with other PREG contents and lengths: NTT, GENMATRIX with one seed, KEM_SKCHECK and
KEM_DECAPS that pass their checks, KEM_SKCHECK with two wrong lengths, and a word that is no command. -/
theorem witness_LatencyDependsOnPublicValues (preg preg' buf : Memory) :
    LatencyHypotheses (block .unconfigured 0 0 preg []) (block .unconfigured 5 7 preg' buf) 0x00000120 0x00006220 ∧
    LatencyHypotheses (block .p512 0 0 preg buf) (block .p512 5 7 preg' buf) 0x03341070 0x03340070 ∧
    LatencyHypotheses (block .p512 1632 0 preg compositeBuf) (block .p512 1632 800 preg' compositeBuf) 0x93 0x93 ∧
    LatencyHypotheses (block .p512 1632 800 preg compositeBuf) (block .p512 1632 800 preg' compositeBuf) 0x92 0x92 ∧
    LatencyHypotheses (block .p512 0 0 preg []) (block .p512 1631 800 preg' buf) 0x93 0x93 ∧
    LatencyHypotheses (block .p512 0 0 preg []) (block .p512 5 7 preg' buf) 0x83 0xFF83 ∧
    ((block .p512 5 7 preg []).eng = .idle ∧ (block .p512 5 7 preg' buf).eng = .idle ∧ Instr.kemEncaps ≠ .kemDecaps ∧
      Instr.kemEncaps ≠ .kemSkcheck) := by
  refine ⟨latencyHypotheses_of rfl rfl (by decide) rfl rfl, latencyHypotheses_of rfl rfl (by decide) rfl rfl,
    latencyHypotheses_of rfl rfl rfl ?_ rfl, latencyHypotheses_of rfl rfl rfl ?_ rfl,
    latencyHypotheses_of rfl rfl rfl rfl rfl, ⟨rfl, rfl, rfl, rfl, by decide, rfl, fun _ _ h => by cases h⟩,
    rfl, rfl, by decide, by decide⟩
  · rw [composite_skcheck_passes, composite_skcheck_passes]
  · rw [composite_decaps_passes, composite_decaps_passes]

end Sys2Proof.Tests
end

namespace Sys2Proof.Machine

open Sys2Proof

/-! ### The sponge's output streams and the sampler that reads them -/

/-- Whatever is left of the present block, the output stream has a next byte, and what follows it does not depend on how many
bytes are asked for. -/
theorem squeezeFrom_succ (rate : Nat) (block : Bytes) (a : List Lane) :
    ∃ v block' a', ∀ n, squeezeFrom rate (n + 1) block a = v :: squeezeFrom rate n block' a' := by
  cases block with
  | cons v block => exact ⟨v, block, a, fun _ => rfl⟩
  | nil =>
    cases hb : (bytesOfLanes (keccakF a)).take rate with
    | cons v block => exact ⟨v, block, keccakF a, fun n => by simp only [squeezeFrom, hb]⟩
    | nil => exact ⟨0, [], keccakF a, fun n => by simp only [squeezeFrom, hb]⟩

theorem squeezeFrom_eq_take (rate : Nat) {n m : Nat} (h : n ≤ m) (block : Bytes) (a : List Lane) :
    squeezeFrom rate n block a = (squeezeFrom rate m block a).take n := by
  induction n generalizing m block a with
  | zero => rfl
  | succ n ih =>
    obtain ⟨m, rfl⟩ := Nat.exists_eq_add_one_of_ne_zero (n := m) (by omega)
    obtain ⟨v, block', a', hs⟩ := squeezeFrom_succ rate block a
    rw [hs, hs, List.take_succ_cons, ← ih (by omega)]

theorem spongeBytes_eq_take (rate : Nat) (domain : Byte) (msg : Bytes) {n m : Nat} (h : n ≤ m) :
    spongeBytes rate domain msg n = (spongeBytes rate domain msg m).take n :=
  squeezeFrom_eq_take rate h _ _

theorem shake128_eq_take (x : Bytes) {n m : Nat} (h : n ≤ m) : sponge.shake128 x n = (sponge.shake128 x m).take n :=
  spongeBytes_eq_take 168 0x1F x h

theorem shake256_eq_take (x : Bytes) {n m : Nat} (h : n ≤ m) : sponge.shake256 x n = (sponge.shake256 x m).take n :=
  spongeBytes_eq_take 136 0x1F x h

/-- The sampler stops as soon as it has its coefficients, so bytes after those it read do not matter (R241). -/
theorem sampleFrom_append (need : Nat) (bs : Bytes) (p : Poly) (h : sampleFrom need bs = some p) (more : Bytes) :
    sampleFrom need (bs ++ more) = some p := by
  induction need, bs using sampleFrom.induct generalizing p with
  | case1 bs => simpa [sampleFrom] using h
  | case2 need b0 b1 bs val hv ih =>
    rw [sampleFrom, if_pos hv, Option.map_eq_some_iff] at h
    obtain ⟨p', hp', rfl⟩ := h
    rw [List.cons_append, List.cons_append, sampleFrom, if_pos hv, ih p' hp', Option.map_some]
  | case3 need b0 b1 bs val hv ih =>
    rw [sampleFrom, if_neg hv] at h
    rw [List.cons_append, List.cons_append, sampleFrom, if_neg hv, ih p h]
  | case4 need bs hbs => simp [sampleFrom] at h

theorem sampleF_mono {f g x y : Nat} {seed : Bytes} {p : Poly} (h : sampleF sponge f seed x y = some p) (hfg : f ≤ g) :
    sampleF sponge g seed x y = some p := by
  rw [sampleF] at h ⊢
  rw [← List.take_append_drop f (sponge.shake128 _ g), ← shake128_eq_take _ hfg]
  exact sampleFrom_append _ _ _ h _

/-- Settles O50: the lengths are those of `sponge_sized`, a shorter output is the beginning of a longer one, and the sampler
stops where it has its coefficients. -/
theorem spongeStreamsAreConsistent : Obligations.SpongeStreamsAreConsistent := by
  refine ⟨fun x => ⟨sponge_sized.sha3_256 x, sponge_sized.sha3_512 x⟩, fun x n m h => ?_, fun x n m h => ?_,
    fun _ _ _ _ _ _ h hfg => sampleF_mono h hfg⟩
  · exact ⟨sponge_sized.shake128 x n, shake128_eq_take x h⟩
  · exact ⟨sponge_sized.shake256 x n, shake256_eq_take x h⟩

/-! ### Digits in base `2 ^ w` (R13, R14) -/

theorem digits_getD {w m i : Nat} (v : Nat) (h : i < m) : (digits w m v).getD i 0 = v / 2 ^ (w * i) % 2 ^ w := by
  induction m generalizing v i with
  | zero => omega
  | succ m ih =>
    cases i with
    | zero => simp [digits]
    | succ i =>
      rw [digits, List.getD_cons_succ, ih _ (by omega), Nat.div_div_eq_div_mul, ← Nat.pow_add, Nat.mul_succ, Nat.add_comm w]

theorem digits_getD_testBit {w m i b : Nat} (v : Nat) (hi : i < m) (hb : b < w) :
    ((digits w m v).getD i 0).testBit b = v.testBit (w * i + b) := by
  rw [digits_getD v hi, Nat.testBit_mod_two_pow, Nat.testBit_div_two_pow, Nat.add_comm b, decide_eq_true hb, Bool.true_and]

theorem digits_undigits {w : Nat} {ds : List Nat} (h : ∀ d ∈ ds, d < 2 ^ w) : digits w ds.length (undigits w ds) = ds := by
  induction ds with
  | nil => rfl
  | cons d ds ih =>
    obtain ⟨hd, hds⟩ := List.forall_mem_cons.1 h
    rw [List.length_cons, digits, undigits, Nat.add_mul_mod_self_left, Nat.mod_eq_of_lt hd,
      Nat.add_mul_div_left _ _ (Nat.two_pow_pos w), Nat.div_eq_of_lt hd, Nat.zero_add, ih hds]

theorem undigits_digits (w m v : Nat) : undigits w (digits w m v) = v % 2 ^ (w * m) := by
  induction m generalizing v with
  | zero => simp [digits, undigits, Nat.mod_one]
  | succ m ih => rw [digits, undigits, ih, Nat.mul_succ, Nat.add_comm (w * m), Nat.pow_add, Nat.mod_mul]

theorem undigits_lt {w : Nat} {ds : List Nat} (h : ∀ d ∈ ds, d < 2 ^ w) : undigits w ds < 2 ^ (w * ds.length) := by
  rw [← digits_undigits h, undigits_digits, digits_length]
  exact Nat.mod_lt _ (Nat.two_pow_pos _)

theorem undigits_eq_sum (w : Nat) (ds : List Nat) :
    undigits w ds = ((List.range ds.length).map fun i => ds.getD i 0 * 2 ^ (w * i)).sum := by
  induction ds with
  | nil => rfl
  | cons d ds ih =>
    have hterm (i : Nat) : ds.getD i 0 * 2 ^ (w * (i + 1)) = 2 ^ w * (ds.getD i 0 * 2 ^ (w * i)) := by
      rw [Nat.mul_succ, Nat.pow_add]; ring
    simp only [undigits, ih, List.length_cons, List.range_succ_eq_map, List.map_cons, List.map_map, List.sum_cons,
      Function.comp_def, List.getD_cons_zero, List.getD_cons_succ, hterm, List.sum_map_mul_left]
    simp

/-! ### Byte strings as little-endian integers (R13, R14) -/

theorem loadLE_eq_sum (bs : Bytes) :
    loadLE bs = ((List.range bs.length).map fun j => (bs.getD j 0).toNat * 2 ^ (8 * j)).sum := by
  have hbyte (j : Nat) : (bs.map BitVec.toNat).getD j 0 = (bs.getD j 0).toNat := List.getD_map (d := (0 : Byte)) ..
  rw [loadLE, undigits_eq_sum, List.length_map]
  simp only [hbyte]

theorem storeLE_getD_toNat {n j : Nat} (v : Nat) (hj : j < n) :
    ((storeLE n v).getD j 0).toNat = (digits 8 n v).getD j 0 := by
  have hbyte : (storeLE n v).getD j 0 = BitVec.ofNat 8 ((digits 8 n v).getD j 0) := List.getD_map (d := 0) ..
  rw [hbyte, digits_getD v hj, BitVec.toNat_ofNat, Nat.mod_mod]

theorem map_toNat_storeLE (n v : Nat) : (storeLE n v).map BitVec.toNat = digits 8 n v := by
  refine List.ext_getElem (by simp) fun j hj hj' => ?_
  rw [digits_length] at hj'
  simpa [hj'] using storeLE_getD_toNat v hj'

theorem loadLE_storeLE (n v : Nat) : loadLE (storeLE n v) = v % 2 ^ (8 * n) := by
  rw [loadLE, map_toNat_storeLE, undigits_digits]

theorem storeLE_getD_getLsbD {n j b : Nat} (v : Nat) (hj : j < n) (hb : b < 8) :
    ((storeLE n v).getD j 0).getLsbD b = v.testBit (8 * j + b) := by
  rw [← BitVec.testBit_toNat, storeLE_getD_toNat v hj, digits_getD_testBit v hj hb]

/-! ### PackBits and UnpackBits (R13) -/

theorem unpackBits_getD {w m i : Nat} (bs : Bytes) (h : i < m) :
    (unpackBits w m bs).getD i 0 = loadLE bs / 2 ^ (w * i) % 2 ^ w := digits_getD _ h

section PackBits

variable {w : Nat} {vs : List Nat} (hv : ∀ v ∈ vs, v < 2 ^ w)

include hv

theorem undigits_testBit {i b : Nat} (hi : i < vs.length) (hb : b < w) :
    (undigits w vs).testBit (w * i + b) = (vs.getD i 0).testBit b := by
  rw [← digits_getD_testBit _ hi hb, digits_undigits hv]

theorem packBits_getD_getLsbD {j b : Nat} (hj : j < w * vs.length / 8) (hb : b < 8) :
    ((packBits w vs).getD j 0).getLsbD b = (vs.getD ((8 * j + b) / w) 0).testBit ((8 * j + b) % w) := by
  have hlt : 8 * j + b < w * vs.length := by omega
  have hw : 0 < w := Nat.pos_of_mul_pos_right (Nat.zero_lt_of_lt hlt)
  rw [packBits, storeLE_getD_getLsbD _ hj hb, ← undigits_testBit hv (Nat.div_lt_of_lt_mul hlt) (Nat.mod_lt _ hw),
    Nat.div_add_mod]

variable (h8 : w * vs.length % 8 = 0)

include h8

theorem loadLE_packBits : loadLE (packBits w vs) = undigits w vs := by
  rw [packBits, loadLE_storeLE, Nat.mul_div_cancel' (Nat.dvd_of_mod_eq_zero h8), Nat.mod_eq_of_lt (undigits_lt hv)]

theorem unpackBits_packBits : unpackBits w vs.length (packBits w vs) = vs := by
  rw [unpackBits, loadLE_packBits hv h8, digits_undigits hv]

end PackBits

/-- Settles O45: both functions go through one integer, whose base `2 ^ w` digits are the values and whose base `2 ^ 8` digits
are the bytes. -/
theorem packBitsIsTheBitLayout : Obligations.PackBitsIsTheBitLayout := by
  refine ⟨fun w m i bs hi => ⟨unpackBits_length w m bs, ?_⟩, fun w vs hv h8 =>
    ⟨packBits_length w vs, fun j b hj hb => ?_, ?_, unpackBits_packBits hv h8⟩⟩
  · rw [unpackBits_getD bs hi, loadLE_eq_sum]
  · rw [packBits_getD_getLsbD hv hj hb, Nat.mod_eq_sub_mul_div]
  · rw [loadLE_packBits hv h8, undigits_eq_sum]

/-! ### The noise sampler (R198) -/

theorem onesBelow_le (n v : Nat) : onesBelow n v ≤ n := by
  induction n generalizing v with
  | zero => exact Nat.le_refl 0
  | succ n ih =>
    have := ih (v / 2)
    rw [onesBelow]
    omega

theorem onesBelow_eq_sum (n v : Nat) : onesBelow n v = ((List.range n).map fun s => (v >>> s) % 2).sum := by
  induction n generalizing v with
  | zero => rfl
  | succ n ih =>
    have hshift (s : Nat) : (v / 2) >>> s = v >>> (s + 1) := by rw [Nat.add_comm, Nat.shiftRight_add, Nat.shiftRight_one]
    simp [onesBelow, ih, List.range_succ_eq_map, Function.comp_def, hshift]

/-- The mask with one bit set every `w` positions, `m` bits in all. -/
def fieldMask (w m : Nat) : Nat := undigits w (List.replicate m 1)

theorem cbdMask_eq_fieldMask {eta : Nat} (h : eta = 3 ∨ eta = 4 ∨ eta = 5) : cbdMask eta = fieldMask eta 8 := by
  rcases h with rfl | rfl | rfl <;> decide

/-- The AND with the mask, lowest field apart: one bit of the number, then the mask on the fields above. -/
theorem and_fieldMask_succ {w : Nat} (hw : 0 < w) (m v : Nat) :
    v &&& fieldMask w (m + 1) = v % 2 + 2 ^ w * (v / 2 ^ w &&& fieldMask w m) := by
  have h1 : 1 < 2 ^ w := Nat.one_lt_two_pow hw.ne'
  have hmask : fieldMask w (m + 1) = 1 + 2 ^ w * fieldMask w m := rfl
  have hlow : (v &&& fieldMask w (m + 1)) % 2 ^ w = v % 2 := by
    rw [Nat.and_mod_two_pow, hmask, Nat.add_mul_mod_self_left, Nat.mod_eq_of_lt h1, Nat.and_one_is_mod,
      Nat.mod_mod_of_dvd _ (dvd_pow_self 2 hw.ne')]
  have hhigh : (v &&& fieldMask w (m + 1)) / 2 ^ w = v / 2 ^ w &&& fieldMask w m := by
    rw [Nat.and_div_two_pow, hmask, Nat.add_mul_div_left _ _ (Nat.two_pow_pos w), Nat.div_eq_of_lt h1, Nat.zero_add]
  rw [← hlow, ← hhigh, Nat.mod_add_div]

/-- The sum over `s < n` of `(t >> s) AND mask`, the mask having `m` fields of `w` bits (R198). -/
def fieldCounts (w n m t : Nat) : Nat := ((List.range n).map fun s => (t >>> s) &&& fieldMask w m).sum

theorem cbdCounts_eq_fieldCounts {eta : Nat} (h : eta = 3 ∨ eta = 4 ∨ eta = 5) (t : Nat) :
    cbdCounts eta t = fieldCounts eta eta 8 t := by
  rw [cbdCounts, cbdMask_eq_fieldMask h, fieldCounts]

theorem fieldCounts_succ {w : Nat} (hw : 0 < w) (n m t : Nat) :
    fieldCounts w n (m + 1) t = onesBelow n t + 2 ^ w * fieldCounts w n m (t / 2 ^ w) := by
  have hshift (s : Nat) : (t >>> s) / 2 ^ w = (t / 2 ^ w) >>> s := by
    rw [← Nat.shiftRight_eq_div_pow, ← Nat.shiftRight_eq_div_pow, ← Nat.shiftRight_add, ← Nat.shiftRight_add, Nat.add_comm]
  simp only [fieldCounts, and_fieldMask_succ hw, hshift, List.sum_map_add, List.sum_map_mul_left, onesBelow_eq_sum]

/-- Field `f` of the sum counts the ones of the low `n` bits of field `f` of the number: no field overflows, for
`n < 2 ^ w`. -/
theorem fieldCounts_field {w n m f : Nat} (hw : 0 < w) (hn : n < 2 ^ w) (hf : f < m) (t : Nat) :
    fieldCounts w n m t / 2 ^ (w * f) % 2 ^ w = onesBelow n (t / 2 ^ (w * f)) := by
  induction f generalizing m t with
  | zero =>
    obtain ⟨m, rfl⟩ := Nat.exists_eq_add_one_of_ne_zero (n := m) (by omega)
    rw [fieldCounts_succ hw, Nat.mul_zero, Nat.pow_zero, Nat.div_one, Nat.div_one, Nat.add_mul_mod_self_left,
      Nat.mod_eq_of_lt (Nat.lt_of_le_of_lt (onesBelow_le n t) hn)]
  | succ f ih =>
    obtain ⟨m, rfl⟩ := Nat.exists_eq_add_one_of_ne_zero (n := m) (by omega)
    rw [Nat.mul_succ, Nat.add_comm (w * f), Nat.pow_add, ← Nat.div_div_eq_div_mul, ← Nat.div_div_eq_div_mul,
      ← ih (Nat.lt_of_succ_lt_succ hf), fieldCounts_succ hw, Nat.add_mul_div_left _ _ (Nat.two_pow_pos w),
      Nat.div_eq_of_lt (Nat.lt_of_le_of_lt (onesBelow_le n t) hn), Nat.zero_add]

theorem coeffNat_append_left {p : Poly} {c : Nat} (p' : Poly) (h : c < p.length) : coeffNat (p ++ p') c = coeffNat p c := by
  rw [coeffNat, List.getD_append _ _ _ _ h, coeffNat]

theorem coeffNat_append_right (p p' : Poly) (c : Nat) : coeffNat (p ++ p') (p.length + c) = coeffNat p' c := by
  rw [coeffNat, List.getD_append_right _ _ _ _ (Nat.le_add_right _ _), Nat.add_sub_cancel_left, coeffNat]

theorem cbdGroup_length (eta : Nat) (bs : Bytes) : (cbdGroup eta bs).length = 4 := by simp [cbdGroup]

theorem cbdCounts_field {eta f k : Nat} (he : eta = 3 ∨ eta = 4 ∨ eta = 5) (hf : f < 8) (hk : k = eta * f) (t : Nat) :
    cbdCounts eta t / 2 ^ k % 2 ^ eta = onesBelow eta (t / 2 ^ k) := by
  rw [cbdCounts_eq_fieldCounts he, hk]
  exact fieldCounts_field (by omega) Nat.lt_two_pow_self hf t

theorem coeffNat_cbdGroup {eta m : Nat} (he : eta = 3 ∨ eta = 4 ∨ eta = 5) (hm : m < 4) (bs : Bytes) :
    coeffNat (cbdGroup eta bs) m = 7681 + onesBelow eta (loadLE bs / 2 ^ (2 * eta * m)) -
      onesBelow eta (loadLE bs / 2 ^ (2 * eta * m + eta)) := by
  have hle := onesBelow_le eta (loadLE bs / 2 ^ (2 * eta * m))
  have hadded := cbdCounts_field (f := 2 * m) (k := 2 * eta * m) he (by omega) (by ring) (loadLE bs)
  have htaken := cbdCounts_field (f := 2 * m + 1) (k := 2 * eta * m + eta) he (by omega) (by ring) (loadLE bs)
  rw [coeffNat, cbdGroup, List.getD_eq_getElem _ _ (by simpa using hm), List.getElem_map, List.getElem_range]
  simp only [hadded, htaken]
  rw [BitVec.toNat_ofNat, Nat.mod_eq_of_lt (by omega), Nat.add_comm]

theorem coeffNat_cbdGroups {eta n i m : Nat} (hi : i < n) (hm : m < 4) (bs : Bytes) :
    coeffNat (cbdGroups eta n bs) (4 * i + m) = coeffNat (cbdGroup eta ((bs.drop (eta * i)).take eta)) m := by
  induction i generalizing n bs with
  | zero =>
    obtain ⟨n, rfl⟩ := Nat.exists_eq_add_one_of_ne_zero (n := n) (by omega)
    rw [cbdGroups, coeffNat_append_left _ (by rw [cbdGroup_length]; omega)]
    simp
  | succ i ih =>
    obtain ⟨n, rfl⟩ := Nat.exists_eq_add_one_of_ne_zero (n := n) (by omega)
    have hidx : 4 * (i + 1) + m = (cbdGroup eta (bs.take eta)).length + (4 * i + m) := by rw [cbdGroup_length]; omega
    rw [cbdGroups, hidx, coeffNat_append_right, ih (by omega), List.drop_drop, Nat.mul_succ, Nat.add_comm eta]

/-- Settles O47: each η-bit field of R198's sum counts the ones of the same field of the group's integer. -/
theorem cbdCountsOnes : Obligations.CbdCountsOnes := by
  intro eta bs he _ i hi m hm
  rw [cbdF, coeffNat_cbdGroups hi hm, coeffNat_cbdGroup he hm]
  set t := loadLE ((bs.drop (eta * i)).take eta)
  have ha := onesBelow_le eta (t / 2 ^ (2 * eta * m))
  have hb := onesBelow_le eta (t / 2 ^ (2 * eta * m + eta))
  omega

end Sys2Proof.Machine

namespace Sys2Proof.Machine

open Sys2Proof

/-! ### The CSR accesses of the bus (R32, R92) -/

section CsrAccess

variable (s : State) {a : Nat}

theorem busCheck_csr (h : a % 4 = 0 ∧ a < 0x0100) : busCheck a .word = .ok .csr := by
  rw [busCheck, if_neg (by simpa [Size.bytes] using h.1), regionOf, if_pos h.2]
  rfl

/-- A word read of a CSR answers its value and changes nothing (R90). -/
theorem hostRead_csr (h : a % 4 = 0 ∧ a < 0x0100 := by decide) :
    s.hostRead a .word = .ok { value := s.csrRead a, after := s } := by
  rw [State.hostRead, busCheck_csr h]

/-- A word write to a CSR is that CSR's write, whatever the engine does. -/
theorem hostWrite_csr (v : Word) (h : a % 4 = 0 ∧ a < 0x0100 := by decide) :
    s.hostWrite a .word v = .ok (s.csrWrite a v) := by
  rw [State.hostWrite, busCheck_csr h]

theorem csrRead_reserved (h : 0x30 ≤ a) : s.csrRead a = 0 := by
  rw [State.csrRead] <;> omega

theorem csrWrite_reserved (h : 0x30 ≤ a) (v : Word) : s.csrWrite a v = s := by
  rw [State.csrWrite] <;> omega

/-- A CTRL write without SRST writes IE alone (R34). -/
theorem writeCtrl_of_not_srst {v : Word} (h : v.getLsbD 1 = false) : s.writeCtrl v = { s with ie := v.getLsbD 0 } := by
  rw [State.writeCtrl, h, if_neg Bool.false_ne_true]

theorem writeCtrl_of_srst {v : Word} (h : v.getLsbD 1 = true) : s.writeCtrl v = s.softReset := by
  rw [State.writeCtrl, if_pos h]

theorem writeCmd_of_idle (h : s.eng = .idle) (w : Word) : s.writeCmd w = s.accept w := by rw [State.writeCmd, h]

theorem writeCmd_of_busy {sn : Snapshot} {n : Nat} (h : s.eng = .busy sn n) (w : Word) :
    s.writeCmd w = { s with ovr := true } := by rw [State.writeCmd, h]

end CsrAccess

theorem State.isBusy_iff (s : State) : s.isBusy = true ↔ ∃ sn n, s.eng = .busy sn n := by
  rw [State.isBusy]
  cases s.eng <;> simp

/-! ### Acceptance and drop (R51, R53) -/

/-- The CMD write of an idle engine is an acceptance. -/
theorem hostWrite_cmd_of_idle {s : State} (h : s.eng = .idle) (w : Word) : s.hostWrite 0x0010 .word w = .ok (s.accept w) := by
  rw [hostWrite_csr, ← writeCmd_of_idle s h]
  rfl

/-- Settles O12: the write is an acceptance, whose fields are those of the statement. -/
theorem acceptanceTakesTheSnapshot : Obligations.AcceptanceTakesTheSnapshot :=
  fun s w h => ⟨Config.latBefore s.draws (s.latKey w), hostWrite_cmd_of_idle h w⟩

/-- Settles O13: the write of a busy engine drops the word. -/
theorem droppedCommandSetsOvr : Obligations.DroppedCommandSetsOvr := by
  intro s sn n w h
  rw [hostWrite_csr, ← writeCmd_of_busy s h w]
  rfl

/-! ### STATUS (R35, R301) -/

theorem flagBit_le (b : Bool) : flagBit b ≤ 1 := by cases b <;> decide

theorem testBit_zero_flagBit_add (b : Bool) (m : Nat) : (flagBit b + 2 * m).testBit 0 = b := by
  cases b <;> simp [flagBit, Nat.testBit_zero]

theorem testBit_succ_flagBit_add (b : Bool) (m i : Nat) : (flagBit b + 2 * m).testBit (i + 1) = m.testBit i := by
  have h : (flagBit b + 2 * m) / 2 = m := by have := flagBit_le b; omega
  rw [Nat.testBit_succ, h]

theorem ecodeNumber_le (e : Option CmdError) : ecodeNumber e ≤ 6 := by
  rcases e with _ | c
  · decide
  · cases c <;> decide

/-- STATUS as a number, its flags taken off one by one. -/
theorem statusWord_toNat (s : State) :
    s.statusWord.toNat =
      flagBit s.isBusy + 2 * (flagBit s.done + 2 * (flagBit s.err +
        2 * (flagBit s.ovr + 2 * (2 ^ 4 * ecodeNumber s.ecode)))) := by
  have := flagBit_le s.isBusy
  have := flagBit_le s.done
  have := flagBit_le s.err
  have := flagBit_le s.ovr
  have := ecodeNumber_le s.ecode
  rw [State.statusWord, BitVec.toNat_ofNat, Nat.mod_eq_of_lt (by omega)]
  omega

/-- Settles O15: the read is `statusWord`, taken apart flag by flag; the write is `acknowledge`. -/
theorem statusReadsAndClears : Obligations.StatusReadsAndClears := by
  refine ⟨fun s => ⟨s.statusWord, hostRead_csr s, ?_⟩, fun s v => hostWrite_csr s v⟩
  have hb := flagBit_le s.isBusy
  have hd := flagBit_le s.done
  have he := flagBit_le s.err
  have ho := flagBit_le s.ovr
  have hc := ecodeNumber_le s.ecode
  have hcode : s.statusWord.toNat / 2 ^ 8 % 2 ^ 4 = ecodeNumber s.ecode := by rw [statusWord_toNat]; omega
  simp only [← BitVec.testBit_toNat, hcode]
  rw [statusWord_toNat]
  refine ⟨testBit_zero_flagBit_add _ _, ?_, ?_, ?_, by omega, by omega, ?_⟩
  · rw [testBit_succ_flagBit_add, testBit_zero_flagBit_add]
  · rw [testBit_succ_flagBit_add, testBit_succ_flagBit_add, testBit_zero_flagBit_add]
  · rw [testBit_succ_flagBit_add, testBit_succ_flagBit_add, testBit_succ_flagBit_add, testBit_zero_flagBit_add]
  · rcases s.ecode with _ | c
    · rfl
    · cases c <;> rfl

/-! ### PARAM and the size registers (R36, R45) -/

theorem ofWord_of_number {v : Word} {set : ParamSet} (h : v.toNat % 4 = set.number) : ParamSet.ofWord v = set := by
  rw [ParamSet.ofWord, h]
  cases set <;> rfl

/-- What PARAM and the three size registers read. -/
theorem hostRead_param_and_sizes (t : State) :
    t.hostRead 0x000C .word = .ok { value := t.paramWord, after := t } ∧
    t.hostRead 0x0024 .word = .ok { value := BitVec.ofNat 32 t.set.pkSize, after := t } ∧
    t.hostRead 0x0028 .word = .ok { value := BitVec.ofNat 32 t.set.skSize, after := t } ∧
    t.hostRead 0x002C .word = .ok { value := BitVec.ofNat 32 t.set.ctSize, after := t } :=
  ⟨hostRead_csr t, hostRead_csr t, hostRead_csr t, hostRead_csr t⟩

/-- Settles O16: the written set is `ParamSet.ofWord`, and each row of the table is that set's. -/
theorem paramSelectsTheSizes : Obligations.ParamSelectsTheSizes := by
  refine ⟨fun s v => ⟨{ s with set := ParamSet.ofWord v }, hostWrite_csr s v, rfl, ?_⟩,
    fun s v => ⟨hostWrite_csr s v, hostWrite_csr s v, hostWrite_csr s v⟩⟩
  intro row hrow hv
  simp only [List.mem_cons, List.not_mem_nil, or_false] at hrow
  rcases hrow with rfl | rfl | rfl | rfl
  · exact ofWord_of_number (set := .p512) hv ▸ hostRead_param_and_sizes _
  · exact ofWord_of_number (set := .p768) hv ▸ hostRead_param_and_sizes _
  · exact ofWord_of_number (set := .p1024) hv ▸ hostRead_param_and_sizes _
  · exact ofWord_of_number (set := .unconfigured) hv ▸ hostRead_param_and_sizes _

/-! ### The other CSRs -/

theorem ctrlWord_eq (s : State) : s.ctrlWord = if s.ie then 1 else 0 := by
  rw [State.ctrlWord, flagBit]
  cases s.ie <;> rfl

/-- Settles O17, register by register: a read is `csrRead`, a write is `csrWrite`. -/
theorem controlRegistersReadBack : Obligations.ControlRegistersReadBack := by
  intro s v
  refine ⟨⟨hostRead_csr s, hostWrite_csr s v⟩, fun h => ?_, ?_, hostRead_csr s, ⟨hostWrite_csr s v, hostRead_csr s⟩,
    ⟨hostWrite_csr s v, hostRead_csr s⟩, ⟨BitVec.ofNat 16 v.toNat, hostWrite_csr s v, BitVec.toNat_ofNat _ _⟩,
    hostRead_csr s, ⟨BitVec.ofNat 16 v.toNat, hostWrite_csr s v, BitVec.toNat_ofNat _ _⟩, hostRead_csr s,
    fun a h0 h1 h4 => ?_⟩
  · rw [hostWrite_csr, ← writeCtrl_of_not_srst s h]
    rfl
  · rw [hostRead_csr, ← ctrlWord_eq]
    rfl
  · rw [hostRead_csr s ⟨h4, by omega⟩, hostWrite_csr s v ⟨h4, by omega⟩, csrRead_reserved s h0, csrWrite_reserved s h0]
    exact ⟨rfl, rfl⟩

/-! ### Reset (R56, R340) -/

/-- Settles O3: every field of the reset state is the value of R56's column. -/
theorem resetLeavesTheTabledValues : Obligations.ResetLeavesTheTabledValues :=
  ⟨⟨rfl, rfl, rfl, rfl, rfl, rfl, rfl, rfl, rfl, rfl, rfl, rfl, rfl, rfl, fun _ => rfl, fun _ => rfl⟩, fun _ => rfl⟩

/-! ### The step of a busy engine (R52, R360) -/

theorem step_of_busy_zero {s : State} {sn : Snapshot} (h : s.eng = .busy sn 0) : step s = s.commitWord sn.word := by
  rw [step, h]

theorem step_of_busy_succ {s : State} {sn : Snapshot} {n : Nat} (h : s.eng = .busy sn (n + 1)) :
    step s = { s with eng := .busy sn n }.hostStep := by
  rw [step, h]
  rfl

theorem commitWord_of_decode {s : State} {w : Word} {i : Instr} (h : decode w = .ok i) : s.commitWord w = exec i s := by
  rw [State.commitWord, h]

theorem commitWord_of_decode_error {s : State} {w : Word} {e : DecodeError} (h : decode w = .error e) :
    s.commitWord w = .next (s.completeError .illegalOpcode) := by
  rw [State.commitWord, h]

/-- Settles O4: with no host step left the step is the commit of the snapshot's word. -/
theorem stepRunsTheDecodedCommand : Obligations.StepRunsTheDecodedCommand := by
  refine ⟨fun s sn i he hd => ?_, fun s sn e he hd => ?_, fun s nbits w i hd => ?_⟩
  · rw [step_of_busy_zero he, commitWord_of_decode hd]
  · rw [step_of_busy_zero he, commitWord_of_decode_error hd, State.endsWith_eq]
  · exact (step_of_busy_zero (State.acceptWith_eng s (tableWord nbits w) 0)).trans (commitWord_of_decode hd)

theorem hostStep_of_halted {s : State} (h : s.HostHalted) : s.hostStep = .next s := by
  rcases h with h | h
  · rw [State.hostStep, h]
  · rw [State.hostStep, h]
    rfl

theorem run_one (M : Host.Core) (s : M.State) : M.run 1 s = M.step s := by
  rw [Host.Core.run]
  cases M.step s <;> rfl

theorem run_succ_of_step {M : Host.Core} {s t : M.State} (h : M.step s = .next t) (n : Nat) : M.run (n + 1) s = M.run n t := by
  rw [Host.Core.run, h]

/-- Settles O6, by induction on the host steps left: each leaves the state but for the count. -/
theorem commandCommitsAfterItsLatency : Obligations.CommandCommitsAfterItsLatency := by
  intro n
  induction n with
  | zero =>
    intro s sn he _
    have hs : { s with eng := .busy sn 0 } = s := by rw [← he]
    rw [hs]
    exact ⟨rfl, (run_one _ _).trans (step_of_busy_zero he)⟩
  | succ n ih =>
    intro s sn he hh
    have hstep : Sys2Proof.core.step s = .next { s with eng := .busy sn n } :=
      (step_of_busy_succ he).trans (hostStep_of_halted hh)
    rw [run_succ_of_step hstep, run_succ_of_step hstep]
    exact ih _ sn rfl hh

/-! ### What a command that gives a next state has done -/

/-- The two ends of a command (R52): its writes, which fit its destinations, or an error code. -/
theorem exec_next_cases {i : Instr} {s t : State} (h : exec i s = .next t) :
    (∃ w, s.check i = .ok () ∧ Fits i s.snap.set.k w ∧ t = (s.applyWrites w).complete) ∨ ∃ c, t = s.completeError c := by
  obtain ⟨r, hr⟩ := exec_executes i s
  rw [hr.commits] at h
  rcases s.commit_cases r with ⟨w, hw, hc⟩ | ⟨c, -, hc⟩ | ⟨f, -, hc⟩
  · obtain ⟨hok, hfit⟩ := hr.ok w hw
    exact .inl ⟨w, hok, hfit, Host.Outcome.next.inj (h.symm.trans hc)⟩
  · exact .inr ⟨c, Host.Outcome.next.inj (h.symm.trans hc)⟩
  · cases h.symm.trans hc

theorem writesRes_iff (i : Instr) : i.writesRes = true ↔ i = .montr ∨ i = .barr ∨ i = .freeze := by
  cases i <;> simp [Instr.writesRes]

/-- Writes that fit leave every byte of PREG outside the destination registers. -/
theorem Fits.byteAt_preg {i : Instr} {k x : Nat} {w : Writes} (hw : Fits i k w) (s : State)
    (hx : ∀ r m, i.pregDest k = some (r, m) → x < 512 * r ∨ 512 * (r + m) ≤ x) :
    Memory.byteAt (s.applyWrites w).preg x = Memory.byteAt s.preg x := by
  rw [State.applyWrites_preg]
  refine List.foldlRecOn (motive := fun m => Memory.byteAt m x = Memory.byteAt s.preg x) _ _ rfl fun m hm y hy => ?_
  obtain ⟨hd, hp⟩ := hw.preg y hy
  rw [Memory.byteAt_storePolys_outside m y.1 y.2 hp (hx _ _ hd), hm]

/-- Writes that fit leave every byte of BUF outside the destination ranges. -/
theorem Fits.byteAt_buf {i : Instr} {k x : Nat} {w : Writes} (hw : Fits i k w) (s : State)
    (hx : ∀ d ∈ i.bufDest k, x < d.1 ∨ d.1 + d.2 ≤ x) :
    Memory.byteAt (s.applyWrites w).buf x = Memory.byteAt s.buf x := by
  rw [State.applyWrites_buf]
  refine List.foldlRecOn (motive := fun m => Memory.byteAt m x = Memory.byteAt s.buf x) _ _ rfl fun m hm y hy => ?_
  rw [Memory.byteAt_storeBytes_outside m y.1 y.2 (hx _ (hw.buf y hy)), hm]

/-- Writes that fit leave RES, but for the three scalar reductions. -/
theorem Fits.res_eq {i : Instr} {k : Nat} {w : Writes} (hw : Fits i k w) (s : State) (hi : i.writesRes ≠ true) :
    (s.applyWrites w).res = s.res := by
  have hnone : w.res = none := Option.eq_none_iff_forall_ne_some.2 fun v hv => hi (hw.res v hv).1
  rw [State.applyWrites_res, hnone, Option.getD_none]

/-- Settles O31: the writes of a command that completes fit its destinations, and an error code writes the flags alone. -/
theorem commandsChangeOnlyTheirDestinations : Obligations.CommandsChangeOnlyTheirDestinations := by
  intro i s t h
  rcases exec_next_cases h with ⟨w, -, hw, rfl⟩ | ⟨c, rfl⟩
  · refine ⟨rfl, rfl, rfl, rfl, rfl, rfl, rfl, rfl, rfl, rfl, rfl, fun h1 h2 h3 => ?_, fun x hx => hw.byteAt_preg s hx,
      fun x hx => hw.byteAt_buf s hx⟩
    exact hw.res_eq s fun hi => by
      rcases (writesRes_iff i).1 hi with hi | hi | hi
      · exact h1 hi
      · exact h2 hi
      · exact h3 hi
  · exact ⟨rfl, rfl, rfl, rfl, rfl, rfl, rfl, rfl, rfl, rfl, rfl, fun _ _ _ => rfl, fun _ _ => rfl, fun _ _ => rfl⟩

/-! ### The interrupt output (R48) -/

theorem irq_of_exec {i : Instr} {s t : State} (h : exec i s = .next t) : t.irq = s.ie := by
  obtain ⟨hdone, -, hie, -⟩ := commandsChangeOnlyTheirDestinations i s t h
  rw [State.irq, hdone, hie, Bool.and_true]

theorem irq_of_commitWord {s t : State} {w : Word} (h : s.commitWord w = .next t) : t.irq = s.ie := by
  cases hd : decode w with
  | ok i => exact irq_of_exec (commitWord_of_decode hd ▸ h)
  | error e =>
    obtain rfl := Host.Outcome.next.inj ((commitWord_of_decode_error hd).symm.trans h)
    rw [State.irq, State.completeError_done, State.completeError_ie, Bool.and_true]

/-- Settles O18: after a commit DONE is 1, and each CSR write is followed by what it leaves in IE and DONE. -/
theorem interruptIsEnabledCompletion : Obligations.InterruptIsEnabledCompletion := by
  refine ⟨fun s => ?_, fun i s t => irq_of_exec, fun s t w => irq_of_commitWord, fun s t w he h => ?_, fun s t w hb h => ?_,
    fun s t w hw h => ?_, fun s t w hw h => ?_, fun s t w h0 h1 h => ?_⟩
  · rw [State.irq, Bool.and_eq_true]
  · obtain rfl := Except.ok.inj ((hostWrite_cmd_of_idle he w).symm.trans h)
    rw [State.irq, State.accept_done, Bool.and_false]
  · obtain ⟨sn, n, he⟩ := s.isBusy_iff.1 hb
    obtain rfl := Except.ok.inj ((droppedCommandSetsOvr s sn n w he).symm.trans h)
    rfl
  · obtain rfl := Except.ok.inj ((statusReadsAndClears.2 s w).symm.trans h)
    simp [State.irq, hw]
  · obtain rfl := Except.ok.inj ((hostWrite_csr s w).symm.trans h)
    show (s.writeCtrl w).irq = false
    cases h1 : w.getLsbD 1 with
    | true => rw [writeCtrl_of_srst s h1]; rfl
    | false => rw [writeCtrl_of_not_srst s h1, State.irq, hw, Bool.false_and]
  · obtain rfl := Except.ok.inj ((hostWrite_csr s w).symm.trans h)
    show (s.writeCtrl w).irq = s.done
    rw [writeCtrl_of_not_srst s h1, State.irq, h0, Bool.true_and]

/-! ### A command reads its snapshot, PREG and BUF alone (R54) -/

theorem snap_eq_of_busy {s s' : State} {sn : Snapshot} {n : Nat} (h : s.eng = .busy sn n) (h' : s'.eng = s.eng) :
    s'.snap = s.snap := by
  rw [State.snap_of_busy s h, State.snap_of_busy s' (h'.trans h)]

section SameOperands

variable {s s' : State} (hsnap : s'.snap = s.snap) (hpreg : s'.preg = s.preg) (hbuf : s'.buf = s.buf)

include hbuf in
theorem memRead_congr (o n : Nat) : s'.memRead o n = s.memRead o n := by rw [State.memRead, State.memRead, hbuf]

include hpreg in
theorem readPoly_congr (r : Nat) : s'.readPoly r = s.readPoly r := by rw [State.readPoly, State.readPoly, hpreg]

include hpreg in
theorem readVec_congr (r k : Nat) : s'.readVec r k = s.readVec r k := by rw [State.readVec, State.readVec, hpreg]

include hsnap hbuf in
theorem check_congr (i : Instr) : s'.check i = s.check i := by
  simp only [State.check, State.checkKeyHash, hsnap, memRead_congr hbuf]

include hsnap hpreg hbuf in
/-- Two states with the same snapshot, PREG and BUF commit the same answer. -/
theorem exec_congr (i : Instr) : ∃ r, exec i s = s.commit r ∧ exec i s' = s'.commit r := by
  cases i <;>
    simp only [exec, execNop, execMontr, execBarr, execFreeze, execNtt, execInvntt, execPadd, execPsub, execTobytes,
      execFrombytes, execCompress3, execDecompress3, execCompress11, execDecompress11, execFrommsg, execTomsg, execCbd,
      execGetnoise, execPacc, execVntt, execVinvntt, execVadd, execVtobytes, execVfrombytes, execVcompress11,
      execVdecompress11, execGenmatrix, execCpaKeypair, execCpaEnc, execCpaDec, execKemKeygen, execKemEncaps,
      execKemDecaps, execKemSkcheck, hsnap, check_congr hsnap hbuf, memRead_congr hbuf, readPoly_congr hpreg,
      readVec_congr hpreg] <;>
    exact ⟨_, rfl, rfl⟩

end SameOperands

/-! ### What the host can do to a running command -/

/-- A CSR write while BUSY keeps the engine, BUF and PREG, or is a soft reset. -/
theorem csrWrite_of_busy {s : State} {sn : Snapshot} {n : Nat} (h : s.eng = .busy sn n) (a : Nat) (v : Word) :
    ((s.csrWrite a v).eng = s.eng ∧ (s.csrWrite a v).buf = s.buf ∧ (s.csrWrite a v).preg = s.preg) ∨
      (s.csrWrite a v).eng = .idle := by
  unfold State.csrWrite
  split
  case h_1 =>
    cases hv : v.getLsbD 1 with
    | true => exact .inr (by rw [writeCtrl_of_srst s hv]; rfl)
    | false => exact .inl (by rw [writeCtrl_of_not_srst s hv]; exact ⟨rfl, rfl, rfl⟩)
  case h_4 => exact .inl (by rw [writeCmd_of_busy s h]; exact ⟨rfl, rfl, rfl⟩)
  all_goals exact .inl ⟨rfl, rfl, rfl⟩

theorem HostEffect.of_busy {s t : State} (ht : HostEffect s t) {sn : Snapshot} {n : Nat} (h : s.eng = .busy sn n) :
    (t.eng = s.eng ∧ t.buf = s.buf ∧ t.preg = s.preg) ∨ t.eng = .idle := by
  have hb : s.isBusy = true := s.isBusy_iff.2 ⟨sn, n, h⟩
  cases ht with
  | nothing => exact .inl ⟨rfl, rfl, rfl⟩
  | draw => exact .inl ⟨rfl, rfl, rfl⟩
  | csr a v => exact csrWrite_of_busy h a v
  | buf o bs hidle => rw [hb] at hidle; cases hidle
  | preg o bs hidle => rw [hb] at hidle; cases hidle
  | reset => exact .inr rfl

/-- Settles O14: the computation reads the snapshot, which the CSRs do not change, and a host line leaves it, BUF and PREG
unless it resets the block. -/
theorem commandsUseTheirSnapshot : Obligations.CommandsUseTheirSnapshot := by
  refine ⟨fun s w he => ⟨_, _, hostWrite_cmd_of_idle he w, rfl, rfl, rfl⟩, ?_, ?_⟩
  · intro i s sn n ie ovr set cmd arg keylen ctlen he
    obtain ⟨r, h, h'⟩ := exec_congr (s := s)
      (s' := { s with ie := ie, ovr := ovr, set := set, cmd := cmd, arg := arg, keylen := keylen, ctlen := ctlen })
      (snap_eq_of_busy he rfl) rfl rfl i
    rw [h, h']
    rcases r with (c | f) | w <;> rfl
  · intro s t sn n he h
    rw [step_of_busy_succ he] at h
    obtain ⟨u, hu, ht⟩ := hostStep_effect h
    rw [ht]
    exact hu.of_busy rfl

/-! ### Undefined operands (R41, R47, R305) -/

/-- The conditions of checks 2 to 5 of R302: all but the hash of the key. -/
structure State.OperandsOk (s : State) (i : Instr) : Prop where
  set : i.needsParam = true → s.snap.set ≠ .unconfigured
  groups : (i.groups s.snap.set.k).Forall fun g => g.1 + g.2 ≤ 32
  range : (i.bufRange s.snap.set.k s.snap.set.eta).elim True fun r => r.1 + r.2 ≤ 8192
  keylen : (i.keySize s.snap.set).elim True fun n => s.snap.keylen.toNat = n
  ctlen : (i.ctSize s.snap.set).elim True fun n => s.snap.ctlen.toNat = n

theorem lengthOk_of_elim {v : BitVec 16} {o : Option Nat} (h : o.elim True fun n => v.toNat = n) : lengthOk v o = true := by
  cases o with
  | none => rfl
  | some n => exact decide_eq_true h

section Faults

variable {s : State} {i : Instr}

/-- Once its other conditions hold, the answer of the checks is that of the hash of the key. -/
theorem State.OperandsOk.check_eq (h : s.OperandsOk i) : s.check i = s.checkKeyHash i := by
  have hset : (!(i.needsParam && decide (s.snap.set = .unconfigured))) = true := by
    have := h.set
    cases hp : i.needsParam <;> simp_all
  have hgroups : (i.groups s.snap.set.k).all groupOk = true :=
    List.all_eq_true.2 fun g hg => decide_eq_true (List.forall_iff_forall_mem.1 h.groups g hg)
  have hrange : (i.bufRange s.snap.set.k s.snap.set.eta).all rangeOk = true := by
    have := h.range
    cases hr : i.bufRange s.snap.set.k s.snap.set.eta with
    | none => rfl
    | some r => exact decide_eq_true (by rwa [hr] at this)
  simp only [State.check, hset, hgroups, hrange, lengthOk_of_elim h.keylen, lengthOk_of_elim h.ctlen, require_true, ok_bind]

/-- A read of missing storage stops a computation. -/
theorem bind_fault_of_none {α β : Type} {f : Fault} {o : Option α} {g : α → Except Stop β} (h : o = none) :
    (orFault f o >>= g) = .error (.fault f) := by
  rw [h]
  rfl

/-- Whether or not a read finds its storage, the computation stops when what follows stops with the same fault. -/
theorem bind_fault_of_rest {α β : Type} {f : Fault} {o : Option α} {g : α → Except Stop β}
    (h : ∀ a, g a = .error (.fault f)) : (orFault f o >>= g) = .error (.fault f) := by
  cases o with
  | none => rfl
  | some a => exact h a

theorem exec_fault_of_check {f : Fault} (h : s.check i = .error (.fault f)) : exec i s = .fault f := by
  obtain ⟨r, hr⟩ := exec_executes i s
  rw [hr.commits, hr.stops _ h, State.commit_fault]

/-- A command whose checks pass and whose computation stops is a fault. -/
theorem exec_fault {f : Fault} {x : Except Stop Writes} (hc : exec i s = s.commit (s.check i >>= fun _ => x))
    (hok : s.OperandsOk i) (hh : s.KeyHashOk i) (hx : x = .error (.fault f)) : exec i s = .fault f := by
  rw [hc, hok.check_eq, (s.checkKeyHash_eq_ok i).2 hh, ok_bind, hx, State.commit_fault]

/-- A command whose checks pass and whose first read finds undefined storage is a fault. -/
theorem exec_fault_of_first {α : Type} {f : Fault} {o : Option α} {g : α → Except Stop Writes}
    (hc : exec i s = s.commit (s.check i >>= fun _ => orFault f o >>= g)) (hok : s.OperandsOk i) (ho : o = none)
    (hh : s.KeyHashOk i := by nofun) : exec i s = .fault f :=
  exec_fault hc hok hh (bind_fault_of_none ho)

/-- A command whose checks pass is a fault when one of its first two reads finds undefined storage. -/
theorem exec_fault_of_either {α β : Type} {f : Fault} {o : Option α} {o' : Option β} {g : α → β → Except Stop Writes}
    (hc : exec i s = s.commit (s.check i >>= fun _ => orFault f o >>= fun a => orFault f o' >>= g a)) (hok : s.OperandsOk i)
    (ho : o = none ∨ o' = none) (hh : s.KeyHashOk i := by nofun) : exec i s = .fault f :=
  exec_fault hc hok hh (ho.elim bind_fault_of_none fun h => bind_fault_of_rest fun _ => bind_fault_of_none h)

end Faults

/-- Settles O30: each command, its checks passed, binds its reads one after the other, and the first that finds undefined
storage stops it. An undefined byte of the key stops the check of its hash itself. -/
theorem undefinedOperandsFault : Obligations.UndefinedOperandsFault := by
  intro s a b c o
  refine ⟨fun hb => ?_, fun hc => ?_, fun ho => ⟨fun ha => ?_, fun hl => ?_⟩, fun ho => ⟨fun ha => ?_, fun hl => ?_⟩,
    fun ho => ⟨fun ha => ?_, fun hl => ?_⟩, fun ho => ⟨fun ha => ?_, fun hl => ?_⟩, fun hs => ?_⟩
  case refine_1 =>
    exact List.forall_iff_forall_mem.1
      ⟨exec_fault_of_first rfl ⟨nofun, trivial, trivial, trivial, trivial⟩ hb,
        exec_fault_of_first rfl ⟨nofun, trivial, trivial, trivial, trivial⟩ hb,
        exec_fault_of_first rfl ⟨nofun, trivial, trivial, trivial, trivial⟩ hb,
        exec_fault_of_first rfl ⟨nofun, trivial, trivial, trivial, trivial⟩ hb⟩
  case refine_2 =>
    exact List.forall_iff_forall_mem.1
      ⟨exec_fault_of_either rfl ⟨nofun, trivial, trivial, trivial, trivial⟩ (.inr hc),
        exec_fault_of_either rfl ⟨nofun, trivial, trivial, trivial, trivial⟩ (.inr hc)⟩
  case refine_3 | refine_5 | refine_7 | refine_9 => exact exec_fault_of_first rfl ⟨nofun, trivial, ho, trivial, trivial⟩ ha
  case refine_4 | refine_6 | refine_8 | refine_10 => exact exec_fault_of_first rfl ⟨nofun, trivial, ho, trivial, trivial⟩ hl
  have hset {i : Instr} : i.needsParam = true → s.snap.set ≠ .unconfigured := fun _ => hs
  refine ⟨fun ho hl => ?_, fun ho hl => ⟨?_, fun ha => ?_⟩, fun hb hc hp => ⟨?_, fun ha => ?_⟩, fun ha hb hp => ?_,
    fun ha ho => ⟨fun hp => ?_, fun hl => ?_⟩, fun ha ho => ⟨fun hp => ?_, fun hl => ?_⟩, fun hd => ?_, fun h => ?_,
    fun h => ?_, fun h => ?_, fun hk h => ?_, fun hk => ⟨fun hl => ⟨?_, fun hc => ?_⟩, fun sk hl hh hc hn => ?_⟩⟩
  -- CBD, GETNOISE and GENMATRIX
  · exact exec_fault_of_first rfl ⟨hset, trivial, ho, trivial, trivial⟩ hl
  · exact exec_fault_of_first rfl ⟨hset, trivial, ho, trivial, trivial⟩ hl
  · exact exec_fault_of_first rfl ⟨hset, ha, ho, trivial, trivial⟩ hl
  -- the vector commands
  · exact exec_fault_of_either rfl ⟨hset, ⟨hb, hc⟩, trivial, trivial, trivial⟩ hp
  · exact exec_fault_of_either rfl ⟨hset, ⟨ha, hb, hc⟩, trivial, trivial, trivial⟩ hp
  · exact List.forall_iff_forall_mem.1
      ⟨exec_fault_of_first rfl ⟨hset, ⟨ha, hb⟩, trivial, trivial, trivial⟩ hp,
        exec_fault_of_first rfl ⟨hset, ⟨ha, hb⟩, trivial, trivial, trivial⟩ hp⟩
  · exact exec_fault_of_first rfl ⟨hset, ha, ho, trivial, trivial⟩ hp
  · exact exec_fault_of_first rfl ⟨hset, ha, ho, trivial, trivial⟩ hl
  · exact exec_fault_of_first rfl ⟨hset, ha, ho, trivial, trivial⟩ hp
  · exact exec_fault_of_first rfl ⟨hset, ha, ho, trivial, trivial⟩ hl
  -- CPA_KEYPAIR, CPA_ENC and CPA_DEC
  · exact exec_fault_of_first rfl ⟨hset, trivial, trivial, trivial, trivial⟩ hd
  · refine exec_fault rfl ⟨hset, trivial, trivial, trivial, trivial⟩ nofun ?_
    rcases h with h | h | h
    · exact bind_fault_of_none h
    · exact bind_fault_of_rest fun _ => bind_fault_of_none h
    · exact bind_fault_of_rest fun _ => bind_fault_of_rest fun _ => bind_fault_of_none h
  · exact exec_fault_of_either rfl ⟨hset, trivial, trivial, trivial, trivial⟩ h
  -- KEM_KEYGEN and KEM_ENCAPS
  · exact exec_fault_of_either rfl ⟨hset, trivial, trivial, trivial, trivial⟩ h
  · exact exec_fault_of_either rfl ⟨hset, trivial, trivial, hk, trivial⟩ h
  -- KEM_SKCHECK and KEM_DECAPS
  · have hcheck := State.OperandsOk.check_eq (i := .kemSkcheck) ⟨hset, trivial, trivial, hk, trivial⟩
    exact exec_fault_of_check (hcheck.trans (bind_fault_of_none hl))
  · have hcheck := State.OperandsOk.check_eq (i := .kemDecaps) ⟨hset, trivial, trivial, hk, hc⟩
    exact exec_fault_of_check (hcheck.trans (bind_fault_of_none hl))
  · exact exec_fault_of_either rfl ⟨hset, trivial, trivial, hk, hc⟩ (.inr hn) fun _ => ⟨sk, hl, decide_eq_true hh⟩

/-! ### Decoded commands are well formed (R112 to R114) -/

theorem regOk_bits {hi lo : Nat} (w : Word) (h : hi + 1 - lo = 5) : regOk (bits w hi lo) = true :=
  decide_eq_true (by simpa [h] using bits_lt w hi lo)

theorem boffOk_bits (w : Word) : boffOk (bits w 25 13) = true := decide_eq_true (bits_lt w 25 13)

theorem wellFormed_of_formatN {w : Word} {i j : Instr} (h : formatN w i = .ok j) (hi : i.WellFormed) : j.WellFormed :=
  (formatN_ok h).2 ▸ hi

theorem wellFormed_of_formatB {w : Word} {f : Nat → Nat → Instr} {j : Instr} (h : formatB w f = .ok j)
    (hf : ∀ a o, (f a o).wellFormed = (regOk a && boffOk o)) : j.WellFormed := by
  rw [← (formatB_ok h).2, Instr.WellFormed, hf, regOk_bits w rfl, boffOk_bits, Bool.and_true]

theorem wellFormed_of_formatR {w : Word} {f : Nat → Nat → Nat → Instr} {j : Instr} (h : formatR w f = .ok j)
    (hf : ∀ a b c, (f a b c).wellFormed = (regOk a && regOk b && regOk c)) : j.WellFormed := by
  rw [← (formatR_ok h).2, Instr.WellFormed, hf, regOk_bits w rfl, regOk_bits w rfl, regOk_bits w rfl, Bool.and_true,
    Bool.and_true]

theorem wellFormed_of_formatR1 {w : Word} {f : Nat → Nat → Instr} {j : Instr} (h : formatR1 w f = .ok j)
    (hf : ∀ a b, (f a b).wellFormed = (regOk a && regOk b)) : j.WellFormed := by
  rw [← (formatR1_ok h).2.2, Instr.WellFormed, hf, regOk_bits w rfl, regOk_bits w rfl, Bool.and_true]

theorem decode_wellFormed {w : Word} {i : Instr} (h : decode w = .ok i) : i.WellFormed := by
  unfold decode at h
  split at h
  case h_1 | h_2 | h_3 | h_4 | h_28 | h_29 | h_30 | h_31 | h_32 | h_33 | h_34 => exact wellFormed_of_formatN h rfl
  case h_5 | h_6 | h_20 | h_21 => exact wellFormed_of_formatR1 h fun _ _ => rfl
  case h_7 | h_8 | h_19 | h_22 => exact wellFormed_of_formatR h fun _ _ _ => rfl
  case h_35 => cases h
  all_goals exact wellFormed_of_formatB h fun _ _ => rfl

/-! ### The destinations of a command lie in PREG and BUF -/

/-- A destination in PREG is one register, which the format bounds, or a group that is checked (R118). -/
theorem pregDest_cases {i : Instr} {k r n : Nat} (h : i.pregDest k = some (r, n)) (hi : i.WellFormed) :
    r < 32 ∧ n = 1 ∨ (r, n) ∈ i.groups k := by
  cases i <;> simp_all [Instr.pregDest, Instr.groups, Instr.WellFormed, Instr.wellFormed, regOk]

/-- A destination in BUF is the range that is checked (R118) or one of the fixed regions (R85). -/
theorem bufDest_cases (i : Instr) {k : Nat} (eta : Nat) (hk : k ≤ 4) :
    ∀ d ∈ i.bufDest k, i.bufRange k eta = some d ∨ d.1 + d.2 ≤ 8192 := by
  cases i
  case cpaKeypair | cpaEnc | kemKeygen | kemEncaps =>
    simp only [Instr.bufDest, Instr.bufRange, List.forall_mem_cons, List.not_mem_nil, IsEmpty.forall_iff, implies_true,
      and_true, reduceCtorEq, false_or, regionPK, regionSK, regionCT, regionSS, pkLen, skcLen, skLen, ctLen]
    omega
  case cpaDec | kemDecaps => simp [Instr.bufDest, Instr.bufRange, regionSS, regionMSG]
  all_goals simp [Instr.bufDest, Instr.bufRange]

/-! ### Storage in canonical form (log entry 6) -/

/-- The canonical form, with every index below the size. -/
structure Memory.Canonical (m : Memory) (n : Nat) : Prop where
  wf : Memory.wf m = true
  below : Memory.below m n = true

theorem Memory.canonical_nil (n : Nat) : Memory.Canonical [] n := ⟨rfl, rfl⟩

theorem Memory.Canonical.storeBytes {m : Memory} {n a : Nat} {bs : Bytes} (h : Memory.Canonical m n) (ha : a + bs.length ≤ n) :
    Memory.Canonical (Memory.storeBytes m a bs) n :=
  ⟨Memory.wf_storeBytes a bs h.wf, Memory.below_storeBytes bs ha h.below⟩

theorem Memory.Canonical.storePolys {m : Memory} {n r : Nat} {ps : List Poly} (h : Memory.Canonical m n)
    (hp : ∀ p ∈ ps, IsPoly p) (hr : 512 * (r + ps.length) ≤ n) : Memory.Canonical (Memory.storePolys m r ps) n :=
  ⟨Memory.wf_storePolys r ps h.wf, Memory.below_storePolys ps hp hr h.below⟩

theorem Memory.Canonical.forget {m : Memory} {n : Nat} (h : Memory.Canonical m n) (a k : Nat) :
    Memory.Canonical (Memory.forget m a k) n :=
  ⟨Memory.wf_forget a k h.wf, Memory.below_forget a k h.below⟩

theorem Memory.Canonical.forgetRegs {m : Memory} {n : Nat} (h : Memory.Canonical m n) (d : Option (Nat × Nat)) :
    Memory.Canonical (Memory.forgetRegs m d) n := by
  cases d with
  | none => exact h
  | some d => exact h.forget _ _

theorem Memory.Canonical.forgetRanges {m : Memory} {n : Nat} (h : Memory.Canonical m n) (ds : List (Nat × Nat)) :
    Memory.Canonical (Memory.forgetRanges m ds) n :=
  List.foldlRecOn (motive := fun m => Memory.Canonical m n) ds _ h fun _ hm d _ => hm.forget d.1 d.2

/-! ### The invariant, field by field -/

/-- `State.Inv` with its conditions named. -/
structure State.Invariant (s : State) : Prop where
  preg : Memory.Canonical s.preg pregSize
  buf : Memory.Canonical s.buf bufSize
  errorFlags : s.err = s.ecode.isSome
  busyFlags : s.isBusy = true → s.done = false ∧ s.err = false
  cmd : ∀ sn n, s.eng = .busy sn n → sn.word = s.cmd
  res : s.res.toNat < 2 ^ 16

theorem State.inv_iff (s : State) : s.Inv ↔ s.Invariant := by
  have hbusy : s.busyFlagsOk = true ↔ (s.isBusy = true → s.done = false ∧ s.err = false) := by
    rw [State.busyFlagsOk]
    cases s.isBusy <;> simp
  have hcmd : s.cmdOk = true ↔ ∀ sn n, s.eng = .busy sn n → sn.word = s.cmd := by
    rw [State.cmdOk]
    cases s.eng <;> simp
  rw [State.Inv, hbusy, hcmd, State.storageOk, State.errorFlagsOk, State.resOk]
  simp only [Bool.and_eq_true, decide_eq_true_eq]
  constructor
  · rintro ⟨⟨⟨⟨hpw, hpb⟩, hbw⟩, hbb⟩, herr, hflags, hword, hres⟩
    exact ⟨⟨hpw, hpb⟩, ⟨hbw, hbb⟩, herr, hflags, hword, hres⟩
  · rintro ⟨⟨hpw, hpb⟩, ⟨hbw, hbb⟩, herr, hflags, hword, hres⟩
    exact ⟨⟨⟨⟨hpw, hpb⟩, hbw⟩, hbb⟩, herr, hflags, hword, hres⟩

/-- An idle state meets the invariant by its storage, its error flags and RES. -/
theorem State.invariant_of_idle {s : State} (he : s.eng = .idle) (hp : Memory.Canonical s.preg pregSize)
    (hb : Memory.Canonical s.buf bufSize) (herr : s.err = s.ecode.isSome) (hr : s.res.toNat < 2 ^ 16) : s.Invariant where
  preg := hp
  buf := hb
  errorFlags := herr
  busyFlags h := by rw [State.isBusy, he] at h; cases h
  cmd sn n h := by rw [he] at h; cases h
  res := hr

theorem State.invariant_hardReset (s : State) : s.hardReset.Invariant :=
  State.invariant_of_idle rfl (Memory.canonical_nil _) (Memory.canonical_nil _) rfl (Nat.two_pow_pos 16)

/-- Settles O2: no byte is defined, no flag is set and the engine is idle. -/
theorem resetMeetsTheInvariant : Obligations.ResetMeetsTheInvariant :=
  (State.inv_iff _).2 (State.invariant_of_idle rfl (Memory.canonical_nil _) (Memory.canonical_nil _) rfl (Nat.two_pow_pos 16))

/-! ### The core's turn keeps the invariant -/

section Commands

variable {i : Instr} {s : State} {w : Writes}

theorem Fits.canonical_preg (hw : Fits i s.snap.set.k w) (hi : i.WellFormed) (hc : s.check i = .ok ())
    (h : Memory.Canonical s.preg pregSize) : Memory.Canonical (s.applyWrites w).preg pregSize := by
  rw [State.applyWrites_preg]
  refine List.foldlRecOn (motive := fun m => Memory.Canonical m pregSize) _ _ h fun m hm x hx => ?_
  obtain ⟨hd, hp⟩ := hw.preg x hx
  refine hm.storePolys hp ?_
  have hle : x.1 + x.2.length ≤ 32 := by
    rcases pregDest_cases hd hi with ⟨h1, h2⟩ | hg
    · omega
    · exact ((s.check_eq_ok i).1 hc).2.1 _ hg
  rw [pregSize]
  omega

theorem Fits.canonical_buf (hw : Fits i s.snap.set.k w) (hc : s.check i = .ok ()) (h : Memory.Canonical s.buf bufSize) :
    Memory.Canonical (s.applyWrites w).buf bufSize := by
  rw [State.applyWrites_buf]
  refine List.foldlRecOn (motive := fun m => Memory.Canonical m bufSize) _ _ h fun m hm x hx => hm.storeBytes ?_
  obtain ⟨-, -, hrange, -⟩ := (s.check_eq_ok i).1 hc
  exact (bufDest_cases i s.snap.set.eta s.snap.set.k_le _ (hw.buf x hx)).elim (hrange _) id

theorem Fits.res_lt {k : Nat} (hw : Fits i k w) (h : s.res.toNat < 2 ^ 16) : (s.applyWrites w).res.toNat < 2 ^ 16 := by
  rw [State.applyWrites_res]
  cases hv : w.res with
  | none => exact h
  | some v => exact (hw.res v hv).2

theorem State.Invariant.completeError (h : s.Invariant) (c : CmdError) : (s.completeError c).Invariant :=
  State.invariant_of_idle rfl h.preg h.buf rfl h.res

theorem State.Invariant.exec {t : State} (h : s.Invariant) (hi : i.WellFormed) (ht : exec i s = .next t) : t.Invariant := by
  rcases exec_next_cases ht with ⟨w, hc, hw, rfl⟩ | ⟨c, rfl⟩
  · exact State.invariant_of_idle rfl (hw.canonical_preg hi hc h.preg) (hw.canonical_buf hc h.buf) h.errorFlags
      (hw.res_lt h.res)
  · exact h.completeError c

end Commands

/-! ### The host's turn keeps the invariant -/

section HostTurn

variable {s : State} (h : s.Invariant)

include h

theorem State.Invariant.accept (w : Word) : (s.accept w).Invariant where
  preg := h.preg
  buf := h.buf
  errorFlags := rfl
  busyFlags _ := ⟨rfl, rfl⟩
  cmd sn n he := by obtain ⟨rfl, -⟩ := Engine.busy.inj he; rfl
  res := h.res

theorem State.Invariant.writeCmd (w : Word) : (s.writeCmd w).Invariant := by
  cases he : s.eng with
  | idle => rw [writeCmd_of_idle s he]; exact h.accept w
  | busy sn n => rw [writeCmd_of_busy s he]; exact ⟨h.preg, h.buf, h.errorFlags, h.busyFlags, h.cmd, h.res⟩

theorem State.Invariant.acknowledge (a b c : Bool) : (s.acknowledge a b c).Invariant where
  preg := h.preg
  buf := h.buf
  errorFlags := by
    rw [State.acknowledge_err, State.acknowledge_ecode, h.errorFlags]
    cases b <;> simp
  busyFlags hb := by
    obtain ⟨hd, he⟩ := h.busyFlags hb
    rw [State.acknowledge_done, State.acknowledge_err, hd, he]
    exact ⟨rfl, rfl⟩
  cmd := h.cmd
  res := h.res

theorem State.Invariant.canonical_abort :
    Memory.Canonical s.abort.preg pregSize ∧ Memory.Canonical s.abort.buf bufSize := by
  rw [State.abort]
  split
  · exact ⟨h.preg, h.buf⟩
  · split
    · exact ⟨h.preg, h.buf⟩
    · split
      · exact ⟨h.preg, h.buf⟩
      · exact ⟨h.preg.forgetRegs _, h.buf.forgetRanges _⟩

theorem State.Invariant.softReset : s.softReset.Invariant :=
  State.invariant_of_idle rfl h.canonical_abort.1 h.canonical_abort.2 rfl (Nat.two_pow_pos 16)

theorem State.Invariant.writeCtrl (v : Word) : (s.writeCtrl v).Invariant := by
  cases hv : v.getLsbD 1 with
  | true => rw [writeCtrl_of_srst s hv]; exact h.softReset
  | false => rw [writeCtrl_of_not_srst s hv]; exact ⟨h.preg, h.buf, h.errorFlags, h.busyFlags, h.cmd, h.res⟩

theorem State.Invariant.csrWrite (a : Nat) (v : Word) : (s.csrWrite a v).Invariant := by
  unfold State.csrWrite
  split
  case h_1 => exact h.writeCtrl v
  case h_2 => exact h.acknowledge _ _ _
  case h_4 => exact h.writeCmd v
  case h_8 => exact h
  all_goals exact ⟨h.preg, h.buf, h.errorFlags, h.busyFlags, h.cmd, h.res⟩

theorem State.Invariant.hostEffect {t : State} (ht : HostEffect s t) : t.Invariant := by
  cases ht with
  | nothing => exact h
  | draw => exact ⟨h.preg, h.buf, h.errorFlags, h.busyFlags, h.cmd, h.res⟩
  | csr a v => exact h.csrWrite a v
  | buf o bs _ ho => exact ⟨h.preg, h.buf.storeBytes ho, h.errorFlags, h.busyFlags, h.cmd, h.res⟩
  | preg o bs _ ho => exact ⟨h.preg.storeBytes ho, h.buf, h.errorFlags, h.busyFlags, h.cmd, h.res⟩
  | reset => exact s.invariant_hardReset

theorem State.Invariant.hostStep {t : State} (ht : s.hostStep = .next t) : t.Invariant := by
  obtain ⟨u, hu, heq⟩ := hostStep_effect ht
  have hinv := h.hostEffect hu
  rw [heq]
  exact ⟨hinv.preg, hinv.buf, hinv.errorFlags, hinv.busyFlags, hinv.cmd, hinv.res⟩

/-- The count of host steps left is no part of the invariant. -/
theorem State.Invariant.with_left {sn : Snapshot} {n : Nat} (he : s.eng = .busy sn n) (m : Nat) :
    { s with eng := .busy sn m }.Invariant where
  preg := h.preg
  buf := h.buf
  errorFlags := h.errorFlags
  busyFlags _ := h.busyFlags (s.isBusy_iff.2 ⟨sn, n, he⟩)
  cmd sn' m' he' := by obtain ⟨rfl, -⟩ := Engine.busy.inj he'; exact h.cmd sn n he
  res := h.res

end HostTurn

/-- Settles O1: a step is a host line, while IDLE or BUSY, or the commit of a decoded command or of a word that is none. -/
theorem everyStepKeepsTheInvariant : Obligations.EveryStepKeepsTheInvariant := by
  intro s t h ht
  rw [State.inv_iff] at h ⊢
  rcases step_cases ht with ⟨-, hstep⟩ | ⟨sn, n, he, hstep⟩ | ⟨sn, he, ⟨i, hd, hexec⟩ | ⟨e, hd, rfl⟩⟩
  · exact h.hostStep hstep
  · exact (h.with_left he n).hostStep hstep
  · exact h.exec (decode_wellFormed hd) hexec
  · exact h.completeError .illegalOpcode

end Sys2Proof.Machine

namespace Sys2Proof.Machine

open Sys2Proof

/-! ### The address map and the bus errors (R82, R83, R88, R89) -/

theorem regionOf_eq_none {a : Nat} (h : 0x0100 ≤ a ∧ a < 0x2000 ∨ 0x4000 ≤ a ∧ a < 0x8000 ∨ 0xC000 ≤ a) :
    regionOf a = none := by
  rw [regionOf, if_neg (by omega), if_neg (by omega), if_neg (by omega)]

theorem regionOf_buf_offset {o : Nat} (h : o < bufSize) : regionOf (0x2000 + o) = some .buf := by
  rw [bufSize] at h
  rw [regionOf, if_neg (by omega), if_pos (by omega)]

theorem regionOf_preg_offset {o : Nat} (h : o < pregSize) : regionOf (0x8000 + o) = some .preg := by
  rw [pregSize] at h
  rw [regionOf, if_neg (by omega), if_neg (by omega), if_pos (by omega)]

/-- An address of the BUF or PREG window is the base of the window plus an offset (R82). -/
theorem storage_offset {a : Nat} (h : 0x2000 ≤ a ∧ a < 0x4000 ∨ 0x8000 ≤ a ∧ a < 0xC000) :
    (∃ o < bufSize, a = 0x2000 + o) ∨ ∃ o < pregSize, a = 0x8000 + o := by
  simp only [bufSize, pregSize]
  rcases h with h | h
  · exact .inl ⟨a - 0x2000, by omega, by omega⟩
  · exact .inr ⟨a - 0x8000, by omega, by omega⟩

section BusCheck

variable {a : Nat} {sz : Size}

theorem busCheck_misaligned (h : a % sz.bytes ≠ 0) : busCheck a sz = .error .misaligned := by rw [busCheck, if_pos h]

theorem busCheck_unmapped (h : a % sz.bytes = 0) (hr : regionOf a = none) : busCheck a sz = .error .unmapped := by
  rw [busCheck, if_neg (not_not_intro h), hr]

theorem busCheck_narrow_csr (h : a % sz.bytes = 0) (ha : a < 0x0100) (hsz : sz ≠ .word) :
    busCheck a sz = .error .narrowCsr := by
  rw [busCheck, if_neg (not_not_intro h), regionOf, if_pos ha]
  exact if_neg hsz

/-- An aligned access to BUF or PREG is no bus error. -/
theorem busCheck_storage {r : Region} (h : a % sz.bytes = 0) (hr : regionOf a = some r) (hc : r ≠ .csr) :
    busCheck a sz = .ok r := by
  rw [busCheck, if_neg (not_not_intro h), hr]
  cases r with
  | csr => exact absurd rfl hc
  | buf => rfl
  | preg => rfl

theorem hostRead_of_busError {f : Fault} (h : busCheck a sz = .error f) (s : State) : s.hostRead a sz = .error f := by
  rw [State.hostRead, h]

theorem hostWrite_of_busError {f : Fault} (h : busCheck a sz = .error f) (s : State) (v : Word) :
    s.hostWrite a sz v = .error f := by
  rw [State.hostWrite, h]

/-- What an access meets: a bus error, a CSR, or an aligned place in BUF or PREG. -/
theorem busCheck_cases (a : Nat) (sz : Size) :
    (∃ f, busCheck a sz = .error f) ∨ busCheck a sz = .ok .csr ∨
    (a % sz.bytes = 0 ∧ ∃ o < bufSize, a = 0x2000 + o) ∨ (a % sz.bytes = 0 ∧ ∃ o < pregSize, a = 0x8000 + o) := by
  cases h : busCheck a sz with
  | error f => exact .inl ⟨f, rfl⟩
  | ok r =>
    obtain ⟨hal, hr⟩ := busCheck_ok h
    cases r with
    | csr => exact .inr (.inl rfl)
    | buf =>
      have hw := regionOf_buf hr
      exact .inr (.inr (.inl ⟨hal, a - 0x2000, by rw [bufSize]; omega, by omega⟩))
    | preg =>
      have hw := regionOf_preg hr
      exact .inr (.inr (.inr ⟨hal, a - 0x8000, by rw [pregSize]; omega, by omega⟩))

end BusCheck

/-- Settles O21: each condition is one answer of `busCheck`, which reads and writes share. -/
theorem busErrorsStop : Obligations.BusErrorsStop := by
  intro s a sz v
  have stops {f : Fault} (h : busCheck a sz = .error f) : s.hostRead a sz = .error f ∧ s.hostWrite a sz v = .error f :=
    ⟨hostRead_of_busError h s, hostWrite_of_busError h s v⟩
  exact ⟨fun h => stops (busCheck_misaligned h), fun h hr => stops (busCheck_unmapped h (regionOf_eq_none hr)),
    fun h ha hsz => stops (busCheck_narrow_csr h ha hsz), fun h ha => ⟨s.csrRead a, hostRead_csr s ⟨h, ha⟩⟩⟩

/-! ### BUF and PREG while BUSY (R94, R95) -/

theorem isBusy_of_idle {s : State} (h : s.eng = .idle) : s.isBusy = false := by rw [State.isBusy, h]

theorem busyValue_fits (s : State) (sz : Size) : (s.busyValue sz).value.toNat < 2 ^ (8 * sz.bytes) := by
  rw [State.busyValue, BitVec.toNat_ofNat]
  exact Nat.lt_of_le_of_lt (Nat.mod_le _ _) (Nat.mod_lt _ (Nat.two_pow_pos _))

theorem storage_of_busy {s : State} (h : s.isBusy = true) {a : Nat} {sz : Size}
    (hc : busCheck a sz = .ok .buf ∨ busCheck a sz = .ok .preg) (v : Word) :
    s.hostWrite a sz v = .error .busyWrite ∧ s.hostRead a sz = .ok (s.busyValue sz) := by
  rcases hc with hc | hc <;> rw [State.hostWrite, State.hostRead, hc] <;> exact ⟨if_pos h, if_pos h⟩

/-- Settles O22: a write to BUF or PREG meets the busy rule, and a read is one draw. -/
theorem busyStorageAccesses : Obligations.BusyStorageAccesses := by
  intro s sn n a sz v he hal hw
  have hc : busCheck a sz = .ok .buf ∨ busCheck a sz = .ok .preg := by
    rcases storage_offset hw with ⟨o, ho, rfl⟩ | ⟨o, ho, rfl⟩
    · exact .inl (busCheck_storage hal (regionOf_buf_offset ho) nofun)
    · exact .inr (busCheck_storage hal (regionOf_preg_offset ho) nofun)
  obtain ⟨hwrite, hread⟩ := storage_of_busy (s.isBusy_iff.2 ⟨sn, n, he⟩) hc v
  exact ⟨hwrite, (s.busyValue sz).value, hread, busyValue_fits s sz⟩

/-! ### BUF and PREG while IDLE (R92) -/

section IdleStorage

variable {s : State} {o : Nat} {sz : Size} (he : s.eng = .idle)

include he

theorem hostRead_buf (hal : (0x2000 + o) % sz.bytes = 0) (ho : o < bufSize) :
    s.hostRead (0x2000 + o) sz = (s.bufRead o sz).map fun v => { value := v, after := s } := by
  rw [State.hostRead, busCheck_storage hal (regionOf_buf_offset ho) nofun, isBusy_of_idle he, Nat.add_sub_cancel_left]
  rfl

theorem hostRead_preg (hal : (0x8000 + o) % sz.bytes = 0) (ho : o < pregSize) :
    s.hostRead (0x8000 + o) sz = (s.pregRead o sz).map fun v => { value := v, after := s } := by
  rw [State.hostRead, busCheck_storage hal (regionOf_preg_offset ho) nofun, isBusy_of_idle he, Nat.add_sub_cancel_left]
  rfl

theorem hostWrite_buf (hal : (0x2000 + o) % sz.bytes = 0) (ho : o < bufSize) (v : Word) :
    s.hostWrite (0x2000 + o) sz v = .ok { s with buf := Memory.storeBytes s.buf o (storeLE sz.bytes v.toNat) } := by
  rw [State.hostWrite, busCheck_storage hal (regionOf_buf_offset ho) nofun, isBusy_of_idle he, Nat.add_sub_cancel_left]
  rfl

theorem hostWrite_preg (hal : (0x8000 + o) % sz.bytes = 0) (ho : o < pregSize) (v : Word) :
    s.hostWrite (0x8000 + o) sz v = .ok { s with preg := Memory.storeBytes s.preg o (storeLE sz.bytes v.toNat) } := by
  rw [State.hostWrite, busCheck_storage hal (regionOf_preg_offset ho) nofun, isBusy_of_idle he, Nat.add_sub_cancel_left]
  rfl

end IdleStorage

theorem Size.bytes_of_ne_byte {sz : Size} (h : sz ≠ .byte) : sz.bytes % 2 = 0 ∧ 2 ≤ sz.bytes := by
  cases sz with
  | byte => exact absurd rfl h
  | half => decide
  | word => decide

/-- An aligned access to PREG of more than a byte begins at the low byte of a coefficient. -/
theorem even_of_aligned {o : Nat} {sz : Size} (hsz : sz ≠ .byte) (hal : (0x8000 + o) % sz.bytes = 0) : o % 2 = 0 := by
  have hdvd : 2 ∣ 0x8000 + o :=
    (Nat.dvd_of_mod_eq_zero (Size.bytes_of_ne_byte hsz).1).trans (Nat.dvd_of_mod_eq_zero hal)
  omega

section StorageReads

variable {s t : State} {o : Nat} {sz : Size} {bs : Bytes}

theorem bufRead_of_load (h : Memory.load s.buf o sz.bytes = some bs) :
    s.bufRead o sz = .ok (BitVec.ofNat 32 (loadLE bs)) := by
  rw [State.bufRead, h]

theorem bufRead_congr (h : Memory.load t.buf o sz.bytes = Memory.load s.buf o sz.bytes) :
    t.bufRead o sz = s.bufRead o sz := by
  rw [State.bufRead, State.bufRead, h]

/-- A read of whole coefficients answers their bytes (R86). -/
theorem pregRead_of_load (ho : o % 2 = 0) (hsz : sz ≠ .byte) (h : Memory.load s.preg o sz.bytes = some bs) :
    s.pregRead o sz = .ok (BitVec.ofNat 32 (loadLE bs)) := by
  have hall : (bs.drop 0).take sz.bytes = bs := List.take_of_length_le (Memory.load_length h).le
  rw [State.pregRead, Nat.div_mul_cancel (Nat.dvd_of_mod_eq_zero ho), Nat.max_eq_left (Size.bytes_of_ne_byte hsz).2, h, ho]
  exact congrArg (fun bs => Except.ok (BitVec.ofNat 32 (loadLE bs))) hall

theorem pregRead_congr
    (h : Memory.load t.preg (o / 2 * 2) (max sz.bytes 2) = Memory.load s.preg (o / 2 * 2) (max sz.bytes 2)) :
    t.pregRead o sz = s.pregRead o sz := by
  rw [State.pregRead, State.pregRead, h]

/-- A read that touches an undefined byte of a coefficient is a fault (R41, R86). -/
theorem pregRead_undefined (h : Memory.load s.preg (o / 2 * 2) (max sz.bytes 2) = none) :
    s.pregRead o sz = .error .undefinedPreg := by
  rw [State.pregRead, h]

end StorageReads

section LoadedReads

variable {s : State} {o : Nat} {sz : Size} {bs : Bytes} (he : s.eng = .idle)

include he

/-- A host read of BUF answers the bytes that load there. -/
theorem hostRead_buf_of_load (hal : (0x2000 + o) % sz.bytes = 0) (ho : o < bufSize)
    (h : Memory.load s.buf o sz.bytes = some bs) :
    s.hostRead (0x2000 + o) sz = .ok { value := BitVec.ofNat 32 (loadLE bs), after := s } := by
  rw [hostRead_buf he hal ho, bufRead_of_load h]
  rfl

/-- A host read of whole coefficients of PREG answers the bytes that load there. -/
theorem hostRead_preg_of_load (hal : (0x8000 + o) % sz.bytes = 0) (ho : o < pregSize) (hsz : sz ≠ .byte)
    (h : Memory.load s.preg o sz.bytes = some bs) :
    s.hostRead (0x8000 + o) sz = .ok { value := BitVec.ofNat 32 (loadLE bs), after := s } := by
  rw [hostRead_preg he hal ho, pregRead_of_load (even_of_aligned hsz hal) hsz h]
  rfl

end LoadedReads

/-! ### A host write reads back -/

theorem load_storeBytes_storeLE (m : Memory) (o n v : Nat) :
    Memory.load (Memory.storeBytes m o (storeLE n v)) o n = some (storeLE n v) := by
  have h := Memory.load_storeBytes_same m o (storeLE n v)
  rwa [storeLE_length] at h

theorem map_readResult_after (s t : State) (x : Except Fault Word) :
    (x.map fun v => ({ value := v, after := t } : ReadResult)) =
      (x.map fun v => ({ value := v, after := s } : ReadResult)).map fun r => { r with after := t } := by
  cases x <;> rfl

/-- With eng IDLE, two states that differ in BUF and PREG alone answer an access alike when the bytes it touches agree. -/
theorem hostRead_congr {s t : State} {a : Nat} {sz : Size} (he : s.eng = .idle)
    (ht : t = { s with buf := t.buf, preg := t.preg })
    (hbuf : ∀ o < bufSize, a = 0x2000 + o → Memory.load t.buf o sz.bytes = Memory.load s.buf o sz.bytes)
    (hpreg : ∀ o < pregSize, a = 0x8000 + o →
      Memory.load t.preg (o / 2 * 2) (max sz.bytes 2) = Memory.load s.preg (o / 2 * 2) (max sz.bytes 2)) :
    t.hostRead a sz = (s.hostRead a sz).map fun r => { r with after := t } := by
  have het : t.eng = .idle := by rw [ht]; exact he
  rcases busCheck_cases a sz with ⟨f, hc⟩ | hc | ⟨hal, o, ho, rfl⟩ | ⟨hal, o, ho, rfl⟩
  · rw [hostRead_of_busError hc, hostRead_of_busError hc]
    rfl
  · have hcsr : t.csrRead a = s.csrRead a := by rw [ht]; rfl
    rw [State.hostRead, State.hostRead, hc]
    exact congrArg (fun v => Except.ok ({ value := v, after := t } : ReadResult)) hcsr
  · rw [hostRead_buf het hal ho, hostRead_buf he hal ho, bufRead_congr (hbuf o ho rfl), map_readResult_after s t]
  · rw [hostRead_preg het hal ho, hostRead_preg he hal ho, pregRead_congr (hpreg o ho rfl), map_readResult_after s t]

/-- The coefficients an aligned access touches do not meet a write of whole coefficients that the access does not meet. -/
theorem touched_disjoint {o o' : Nat} {sz sz' : Size} (ho : o % 2 = 0) (hsz : sz ≠ .byte)
    (h : o' + sz'.bytes ≤ o ∨ o + sz.bytes ≤ o') :
    o' / 2 * 2 + max sz'.bytes 2 ≤ o ∨ o + sz.bytes ≤ o' / 2 * 2 := by
  obtain ⟨heven, -⟩ := Size.bytes_of_ne_byte hsz
  have hpos : 1 ≤ sz'.bytes := by cases sz' <;> decide
  omega

/-- Settles O23: the stored bytes load back, and an access that does not meet them touches none of them, not even through the
other byte of a coefficient. -/
theorem hostReadsBackWhatItWrote : Obligations.HostReadsBackWhatItWrote := by
  intro s a sz v he hal hw
  have hwindow : 0x2000 ≤ a ∧ a < 0x4000 ∨ 0x8000 ≤ a ∧ a < 0xC000 := hw.imp_right fun h => ⟨h.1, h.2.1⟩
  rcases storage_offset hwindow with ⟨o, ho, rfl⟩ | ⟨o, ho, rfl⟩
  · refine ⟨_, hostWrite_buf he hal ho v, ?_, fun a' sz' h => hostRead_congr he rfl (fun o' _ ha' => ?_) fun _ _ _ => rfl⟩
    · rw [← loadLE_storeLE]
      exact hostRead_buf_of_load he hal ho (load_storeBytes_storeLE s.buf o sz.bytes v.toNat)
    · refine Memory.load_storeBytes_disjoint _ _ _ ?_
      rw [storeLE_length]
      omega
  · have hsz : sz ≠ .byte := by
      rw [pregSize] at ho
      exact (hw.resolve_left (by omega)).2.2
    refine ⟨_, hostWrite_preg he hal ho v, ?_, fun a' sz' h => hostRead_congr he rfl (fun _ _ _ => rfl) fun o' _ ha' => ?_⟩
    · rw [← loadLE_storeLE]
      exact hostRead_preg_of_load he hal ho hsz (load_storeBytes_storeLE s.preg o sz.bytes v.toNat)
    · refine Memory.load_storeBytes_disjoint _ _ _ ?_
      rw [storeLE_length]
      exact touched_disjoint (even_of_aligned hsz hal) hsz (by omega)

/-! ### Byte reads and word reads (R87) -/

theorem map_readResult_eq_ok {s : State} {x : Except Fault Word} {v : Word}
    (h : (x.map fun v => ({ value := v, after := s } : ReadResult)) = .ok { value := v, after := s }) : x = .ok v := by
  cases x with
  | error f => cases h
  | ok w => cases h; rfl

theorem loadLE_singleton (b : Byte) : loadLE [b] = b.toNat := by simp [loadLE, undigits]

/-- The value of a byte, zero-extended (log entry 19). -/
theorem toNat_ofNat_byte (b : Byte) : (BitVec.ofNat 32 b.toNat).toNat = b.toNat := by
  have := b.isLt
  rw [BitVec.toNat_ofNat, Nat.mod_eq_of_lt (by omega)]

/-- A byte read of BUF answers the byte that stands there. -/
theorem byteAt_of_bufRead {s : State} {o : Nat} {v : Word} (h : s.bufRead o .byte = .ok v) :
    (Memory.byteAt s.buf o).map BitVec.toNat = some v.toNat := by
  cases hb : Memory.byteAt s.buf o with
  | none =>
    have hnone : Memory.load s.buf o Size.byte.bytes = none :=
      (Memory.load_eq_none_iff _ _ _).2 ⟨o, le_rfl, Nat.lt_succ_self o, hb⟩
    rw [State.bufRead, hnone] at h
    cases h
  | some b =>
    have hload : Memory.load s.buf o Size.byte.bytes = some [b] := by simp [Size.bytes, Memory.load, hb]
    rw [bufRead_of_load hload, loadLE_singleton] at h
    rw [← Except.ok.inj h, toNat_ofNat_byte]
    rfl

/-- A byte read of PREG answers the byte that stands there. -/
theorem byteAt_of_pregRead {s : State} {o : Nat} {v : Word} (h : s.pregRead o .byte = .ok v) :
    (Memory.byteAt s.preg o).map BitVec.toNat = some v.toNat := by
  rw [State.pregRead] at h
  split at h
  next bs hl =>
    obtain ⟨hlen, hbytes⟩ := (Memory.load_eq_some_iff _ _ _ _).1 hl
    have hmod : o % 2 < bs.length := by rw [hlen]; exact Nat.mod_lt _ two_pos
    have hbyte := hbytes (o % 2) (hlen ▸ hmod)
    rw [Nat.div_add_mod', List.getElem?_eq_getElem hmod] at hbyte
    have hone : (bs.drop (o % 2)).take Size.byte.bytes = [bs[o % 2]] := List.take_one_drop_eq_of_lt_length hmod
    rw [hone, loadLE_singleton] at h
    rw [hbyte, ← Except.ok.inj h, toNat_ofNat_byte]
    rfl
  next => cases h

/-- Four defined bytes load as their little-endian combination (R14). -/
theorem load_four {m : Memory} {o v0 v1 v2 v3 : Nat} (h0 : (Memory.byteAt m o).map BitVec.toNat = some v0)
    (h1 : (Memory.byteAt m (o + 1)).map BitVec.toNat = some v1) (h2 : (Memory.byteAt m (o + 2)).map BitVec.toNat = some v2)
    (h3 : (Memory.byteAt m (o + 3)).map BitVec.toNat = some v3) :
    ∃ bs, Memory.load m o Size.word.bytes = some bs ∧ loadLE bs = v0 + 2 ^ 8 * v1 + 2 ^ 16 * v2 + 2 ^ 24 * v3 := by
  obtain ⟨b0, hb0, rfl⟩ := Option.map_eq_some_iff.1 h0
  obtain ⟨b1, hb1, rfl⟩ := Option.map_eq_some_iff.1 h1
  obtain ⟨b2, hb2, rfl⟩ := Option.map_eq_some_iff.1 h2
  obtain ⟨b3, hb3, rfl⟩ := Option.map_eq_some_iff.1 h3
  refine ⟨[b0, b1, b2, b3], by simp [Size.bytes, Memory.load, hb0, hb1, hb2, hb3], ?_⟩
  simp only [loadLE, List.map_cons, List.map_nil, undigits]
  omega

/-- Settles O24: each byte read gives a byte of storage, and the four of them are what the word read loads. -/
theorem wordReadIsFourByteReads : Obligations.WordReadIsFourByteReads := by
  intro s a b0 b1 b2 b3 he hal hw h0 h1 h2 h3
  rcases storage_offset hw with ⟨o, ho, rfl⟩ | ⟨o, ho, rfl⟩
  · have byte {i : Nat} {b : Word} (hi : i < 4) (h : s.hostRead (0x2000 + o + i) .byte = .ok { value := b, after := s }) :
        (Memory.byteAt s.buf (o + i)).map BitVec.toNat = some b.toNat := by
      rw [bufSize] at ho
      rw [Nat.add_assoc, hostRead_buf he (Nat.mod_one _) (by rw [bufSize]; omega)] at h
      exact byteAt_of_bufRead (map_readResult_eq_ok h)
    obtain ⟨bs, hl, hbs⟩ := load_four (byte (i := 0) (by decide) h0) (byte (by decide) h1) (byte (by decide) h2)
      (byte (by decide) h3)
    rw [← hbs]
    exact hostRead_buf_of_load he hal ho hl
  · have byte {i : Nat} {b : Word} (hi : i < 4) (h : s.hostRead (0x8000 + o + i) .byte = .ok { value := b, after := s }) :
        (Memory.byteAt s.preg (o + i)).map BitVec.toNat = some b.toNat := by
      rw [pregSize] at ho
      rw [Nat.add_assoc, hostRead_preg he (Nat.mod_one _) (by rw [pregSize]; omega)] at h
      exact byteAt_of_pregRead (map_readResult_eq_ok h)
    obtain ⟨bs, hl, hbs⟩ := load_four (byte (i := 0) (by decide) h0) (byte (by decide) h1) (byte (by decide) h2)
      (byte (by decide) h3)
    rw [← hbs]
    exact hostRead_preg_of_load he hal ho nofun hl

/-! ### The coefficients in the PREG window (R86) -/

/-- Coefficient `c` of a register image is its bytes `2 c` and `2 c + 1`, low byte first. -/
theorem coeffNat_polyOfBytes {bs : Bytes} {c : Nat} {lo hi : Byte} (hlo : bs[2 * c]? = some lo)
    (hhi : bs[2 * c + 1]? = some hi) : coeffNat (polyOfBytes bs) c = lo.toNat + 2 ^ 8 * hi.toNat := by
  induction bs using polyOfBytes.induct generalizing c with
  | case1 lo' hi' bs ih =>
    cases c with
    | zero =>
      obtain rfl := Option.some.inj hlo
      obtain rfl := Option.some.inj hhi
      have := lo'.isLt
      have := hi'.isLt
      rw [polyOfBytes, coeffNat, List.getD_cons_zero, coeffOfBytes, BitVec.toNat_ofNat, Nat.mod_eq_of_lt (by omega)]
    | succ c => exact ih hlo hhi
  | case2 bs h =>
    match bs, h with
    | [], _ => cases hlo
    | [_], _ => cases hhi
    | a :: b :: bs, h => exact absurd rfl (h a b bs)

/-- Every byte of a defined register is defined (R41). -/
theorem Memory.byteAt_of_poly {m : Memory} {r i : Nat} {p : Poly} (h : Memory.poly m r = some p) (hi : i < 512) :
    ∃ b, Memory.byteAt m (512 * r + i) = some b := by
  refine Option.ne_none_iff_exists'.1 fun hnone => ?_
  rw [(Memory.poly_eq_none_iff m r).2 ⟨512 * r + i, by omega, by omega, hnone⟩] at h
  cases h

/-- Where a coefficient of a register stands (R86). -/
theorem Memory.coeffNat_of_bytes {m : Memory} {r c : Nat} {p : Poly} {lo hi : Byte} (h : Memory.poly m r = some p)
    (hc : c < 256) (hlo : Memory.byteAt m (512 * r + 2 * c) = some lo)
    (hhi : Memory.byteAt m (512 * r + 2 * c + 1) = some hi) : coeffNat p c = lo.toNat + 2 ^ 8 * hi.toNat := by
  rw [Memory.poly, Option.map_eq_some_iff] at h
  obtain ⟨bs, hl, rfl⟩ := h
  obtain ⟨-, hbytes⟩ := (Memory.load_eq_some_iff _ _ _ _).1 hl
  rw [pregBytes] at hbytes
  exact coeffNat_polyOfBytes ((hbytes (2 * c) (by omega)).symm.trans hlo) ((hbytes (2 * c + 1) (by omega)).symm.trans hhi)

/-- A coefficient of a defined register is its two bytes, low byte first (R86). -/
theorem Memory.coeff_bytes {m : Memory} {r c : Nat} {p : Poly} (h : Memory.poly m r = some p) (hc : c < 256) :
    ∃ lo hi, Memory.byteAt m (512 * r + 2 * c) = some lo ∧ Memory.byteAt m (512 * r + 2 * c + 1) = some hi ∧
      coeffNat p c = lo.toNat + 2 ^ 8 * hi.toNat := by
  obtain ⟨lo, hlo⟩ := Memory.byteAt_of_poly h (i := 2 * c) (by omega)
  obtain ⟨hi, hhi⟩ := Memory.byteAt_of_poly h (i := 2 * c + 1) (by omega)
  exact ⟨lo, hi, hlo, hhi, Memory.coeffNat_of_bytes h hc hlo hhi⟩

/-- A word read at an even coefficient of a defined register answers that coefficient and the next (R86). -/
theorem hostRead_two_coeffs {s : State} {r m : Nat} {p : Poly} (he : s.eng = .idle) (hr : r < 32) (hm : m < 128)
    (hp : Memory.poly s.preg r = some p) :
    s.hostRead (0x8000 + (512 * r + 4 * m)) .word = .ok
      { value := BitVec.ofNat 32 (coeffNat p (2 * m) + 2 ^ 16 * coeffNat p (2 * m + 1)), after := s } := by
  obtain ⟨b0, b1, h0, h1, hlow⟩ := Memory.coeff_bytes hp (c := 2 * m) (by omega)
  obtain ⟨b2, b3, h2, h3, hhigh⟩ := Memory.coeff_bytes hp (c := 2 * m + 1) (by omega)
  rw [show 512 * r + 2 * (2 * m) = 512 * r + 4 * m by omega] at h0 h1
  rw [show 512 * r + 2 * (2 * m + 1) = 512 * r + 4 * m + 2 by omega] at h2 h3
  obtain ⟨bs, hl, hbs⟩ := load_four (congrArg _ h0) (congrArg _ h1) (congrArg _ h2) (congrArg _ h3)
  have hvalue : coeffNat p (2 * m) + 2 ^ 16 * coeffNat p (2 * m + 1) = loadLE bs := by omega
  rw [hvalue]
  exact hostRead_preg_of_load he (by simp only [Size.bytes]; omega) (by rw [pregSize]; omega) nofun hl

/-! ### A byte stored into a coefficient (R86) -/

/-- One byte stored anywhere leaves a defined register defined. -/
theorem Memory.poly_store_defined {m : Memory} {r : Nat} {p : Poly} (h : Memory.poly m r = some p) (a : Nat) (x : Byte) :
    ∃ p', Memory.poly (Memory.store m a x) r = some p' := by
  refine Option.ne_none_iff_exists'.1 fun hp => ?_
  obtain ⟨y, hy, hy', hnone⟩ := (Memory.poly_eq_none_iff _ _).1 hp
  rw [Memory.byteAt_store] at hnone
  split at hnone
  · cases hnone
  · rw [(Memory.poly_eq_none_iff m r).2 ⟨y, hy, hy', hnone⟩] at h
    cases h

section StoreByte

variable {m : Memory} {r c : Nat} {x : Byte} {p p' : Poly} (hp : Memory.poly m r = some p)

include hp

theorem Memory.coeffNat_store_other {b c' : Nat} (hb : b < 2)
    (hp' : Memory.poly (Memory.store m (512 * r + 2 * c + b) x) r = some p') (hc : c' < 256) (hne : c' ≠ c) :
    coeffNat p' c' = coeffNat p c' := by
  obtain ⟨lo, hi, hlo, hhi, hcoeff⟩ := Memory.coeff_bytes hp hc
  rw [hcoeff, Memory.coeffNat_of_bytes hp' hc ((Memory.byteAt_store_other m x (by omega)).trans hlo)
    ((Memory.byteAt_store_other m x (by omega)).trans hhi)]

theorem Memory.coeffNat_store_low (hp' : Memory.poly (Memory.store m (512 * r + 2 * c) x) r = some p') (hc : c < 256) :
    coeffNat p' c = coeffNat p c / 2 ^ 8 * 2 ^ 8 + x.toNat := by
  obtain ⟨lo, hi, hlo, hhi, hcoeff⟩ := Memory.coeff_bytes hp hc
  rw [hcoeff, Memory.coeffNat_of_bytes hp' hc (Memory.byteAt_store_same m _ x)
    ((Memory.byteAt_store_other m x (by omega)).trans hhi)]
  have := lo.isLt
  omega

theorem Memory.coeffNat_store_high (hp' : Memory.poly (Memory.store m (512 * r + 2 * c + 1) x) r = some p') (hc : c < 256) :
    coeffNat p' c = coeffNat p c % 2 ^ 8 + 2 ^ 8 * x.toNat := by
  obtain ⟨lo, hi, hlo, hhi, hcoeff⟩ := Memory.coeff_bytes hp hc
  rw [hcoeff, Memory.coeffNat_of_bytes hp' hc ((Memory.byteAt_store_other m x (by omega)).trans hlo)
    (Memory.byteAt_store_same m _ x)]
  have := lo.isLt
  omega

end StoreByte

/-- A coefficient with an undefined byte counts as undefined: its register does not read, and a halfword read of it is a
fault (R41, R86). -/
theorem undefined_coeff {s : State} {r c b : Nat} (he : s.eng = .idle) (hr : r < 32) (hc : c < 256) (hb : b < 2)
    (h : Memory.byteAt s.preg (512 * r + 2 * c + b) = none) :
    Memory.poly s.preg r = none ∧ s.hostRead (0x8000 + (512 * r + 2 * c)) .half = .error .undefinedPreg := by
  refine ⟨(Memory.poly_eq_none_iff _ _).2 ⟨_, by omega, by omega, h⟩, ?_⟩
  have hload : Memory.load s.preg ((512 * r + 2 * c) / 2 * 2) (max Size.half.bytes 2) = none :=
    (Memory.load_eq_none_iff _ _ _).2 ⟨_, by omega, by simp only [Size.bytes]; omega, h⟩
  rw [hostRead_preg he (by simp only [Size.bytes]; omega) (by rw [pregSize]; omega), pregRead_undefined hload]
  rfl

/-- A host byte write to PREG stores one byte. -/
theorem hostWrite_preg_byte {s : State} {o : Nat} (he : s.eng = .idle) (ho : o < pregSize) (v : Word) :
    s.hostWrite (0x8000 + o) .byte v = .ok { s with preg := Memory.store s.preg o (BitVec.ofNat 8 v.toNat) } := by
  have hbyte : storeLE Size.byte.bytes v.toNat = [BitVec.ofNat 8 v.toNat] :=
    congrArg (fun b => [b]) (BitVec.eq_of_toNat_eq (by simp))
  rw [hostWrite_preg he (Nat.mod_one _) ho, hbyte]
  rfl

/-- Settles O25: a byte write stores that one byte of the coefficient's two, so the coefficient changes in it alone and stays
undefined where the other is. -/
theorem pregWindowHoldsTheCoefficients : Obligations.PregWindowHoldsTheCoefficients := by
  refine ⟨fun s r m p he hr hm hp => ?_, fun s r c b v he hr hc hb => ?_⟩
  · rw [Nat.add_assoc]
    exact hostRead_two_coeffs he hr hm hp
  · have hwrite := hostWrite_preg_byte (o := 512 * r + 2 * c + b) he (by rw [pregSize]; omega) v
    rw [← Nat.add_assoc, ← Nat.add_assoc] at hwrite
    refine ⟨_, hwrite, rfl, Memory.byteAt_store_same _ _ _, fun x hx => Memory.byteAt_store_other _ _ hx, fun p hp => ?_,
      fun hnone => ?_⟩
    · obtain ⟨p', hp'⟩ := Memory.poly_store_defined hp (512 * r + 2 * c + b) (BitVec.ofNat 8 v.toNat)
      refine ⟨p', hp', fun c' hc' hne => Memory.coeffNat_store_other hp hb hp' hc' hne, ?_⟩
      rw [← BitVec.toNat_ofNat]
      rcases Nat.lt_or_ge b 1 with h | h
      · obtain rfl : b = 0 := by omega
        exact Memory.coeffNat_store_low hp hp' hc
      · obtain rfl : b = 1 := by omega
        exact Memory.coeffNat_store_high hp hp' hc
    · have hother := (Memory.byteAt_store_other s.preg (BitVec.ofNat 8 v.toNat) (a := 512 * r + 2 * c + b)
        (x := 512 * r + 2 * c + (1 - b)) (by omega)).trans hnone
      rw [Nat.add_assoc 0x8000]
      exact ⟨hother, undefined_coeff he hr hc (by omega) hother⟩

end Sys2Proof.Machine

namespace Sys2Proof

/-! ### The fields of a word and the masks of the table (R112 to R117) -/

/-- The bits from `lo` up are zero exactly when the word is below `2 ^ lo`. -/
theorem bits_31_eq_zero_iff (w : Word) {lo : Nat} (h : lo ≤ 32) : bits w 31 lo = 0 ↔ w.toNat < 2 ^ lo := by
  have hw : w.toNat / 2 ^ lo < 2 ^ (31 + 1 - lo) :=
    Nat.div_lt_of_lt_mul (by rw [← Nat.pow_add, Nat.add_sub_cancel' h]; exact w.isLt)
  rw [bits, Nat.mod_eq_of_lt hw, Nat.div_eq_zero_iff_lt (Nat.two_pow_pos lo)]

/-- A mask of the low byte and of the bits from `hi` up splits a number at those places. -/
theorem and_mask {w hi n : Nat} (hw : w < 2 ^ (hi + n)) (h : 8 ≤ hi) :
    w &&& (2 ^ hi * (2 ^ n - 1) + 255) = 2 ^ hi * (w / 2 ^ hi) + w % 2 ^ 8 := by
  have hbyte : 2 ^ 8 ≤ 2 ^ hi := Nat.pow_le_pow_right (by decide) h
  refine Nat.eq_of_testBit_eq fun j => ?_
  rw [Nat.testBit_and, Nat.testBit_two_pow_mul_add _ (by omega), Nat.testBit_two_pow_mul_add _ (by omega)]
  split
  · rw [Nat.testBit_mod_two_pow, show (255 : Nat) = 2 ^ 8 - 1 from rfl, Nat.testBit_two_pow_sub_one, Bool.and_comm]
  · rw [Nat.testBit_div_two_pow, Nat.testBit_two_pow_sub_one, Nat.sub_add_cancel (by omega)]
    by_cases hj : j - hi < n
    · rw [decide_eq_true hj, Bool.and_true]
    · rw [Nat.testBit_lt_two_pow (Nat.lt_of_lt_of_le hw (Nat.pow_le_pow_right (by decide) (by omega))), Bool.false_and]

/-- R117 for one mask: the masked bits are the opcode exactly when the low byte is and every bit from `hi` up is zero. -/
theorem and_mask_eq_opcode_iff (w : Word) {mask : Word} {hi opc : Nat} (h : 8 ≤ hi ∧ hi ≤ 32)
    (hmask : mask.toNat = 2 ^ hi * (2 ^ (32 - hi) - 1) + 255) (hopc : opc < 256) :
    w &&& mask = BitVec.ofNat 32 opc ↔ bits w 7 0 = opc ∧ w.toNat < 2 ^ hi := by
  have hw : w.toNat < 2 ^ (hi + (32 - hi)) := by rw [Nat.add_sub_cancel' h.2]; exact w.isLt
  have hbyte : 2 ^ 8 ≤ 2 ^ hi := Nat.pow_le_pow_right (by decide) h.1
  rw [← BitVec.toNat_inj, BitVec.toNat_and, hmask, and_mask hw h.1, BitVec.toNat_ofNat,
    Nat.mod_eq_of_lt (show opc < 2 ^ 32 by omega), bits, Nat.pow_zero, Nat.div_one,
    ← Nat.div_eq_zero_iff_lt (Nat.two_pow_pos hi)]
  rcases Nat.eq_zero_or_pos (w.toNat / 2 ^ hi) with hzero | hpos
  · rw [hzero, Nat.mul_zero, Nat.zero_add, and_iff_left rfl]
  · have hle : 2 ^ hi ≤ 2 ^ hi * (w.toNat / 2 ^ hi) := Nat.le_mul_of_pos_right _ hpos
    exact ⟨fun hsum => by omega, fun hand => by omega⟩

/-! ### What a format makes of a word -/

theorem formatN_eq_ok_iff {w : Word} {i j : Instr} : formatN w i = .ok j ↔ w.toNat < 2 ^ 8 ∧ i = j := by
  rw [← bits_31_eq_zero_iff w (lo := 8) (by decide), formatN]
  split <;> simp [*]

theorem formatB_eq_ok_iff {w : Word} {f : Nat → Nat → Instr} {j : Instr} :
    formatB w f = .ok j ↔ w.toNat < 2 ^ 26 ∧ f (bits w 12 8) (bits w 25 13) = j := by
  rw [← bits_31_eq_zero_iff w (lo := 26) (by decide), formatB]
  split <;> simp [*]

theorem formatR_eq_ok_iff {w : Word} {f : Nat → Nat → Nat → Instr} {j : Instr} :
    formatR w f = .ok j ↔ w.toNat < 2 ^ 23 ∧ f (bits w 12 8) (bits w 17 13) (bits w 22 18) = j := by
  rw [← bits_31_eq_zero_iff w (lo := 23) (by decide), formatR]
  split <;> simp [*]

/-- A one-source word of format R has no bit from 18 up: RS2 is zero too. -/
theorem formatR1_bits_iff (w : Word) : bits w 31 23 = 0 ∧ bits w 22 18 = 0 ↔ w.toNat < 2 ^ 18 := by
  rw [bits_31_eq_zero_iff w (by decide), bits]
  omega

theorem formatR1_eq_ok_iff {w : Word} {f : Nat → Nat → Instr} {j : Instr} :
    formatR1 w f = .ok j ↔ w.toNat < 2 ^ 18 ∧ f (bits w 12 8) (bits w 17 13) = j := by
  rw [← formatR1_bits_iff, formatR1]
  split <;> simp [*]

/-! ### Words put together from their fields (R122) -/

theorem encodeN_bits {w : Word} (h : w.toNat < 2 ^ 8) : encodeN (bits w 7 0) = w := by
  refine BitVec.eq_of_toNat_eq ?_
  rw [encodeN_toNat (bits_lt w 7 0), bits]
  omega

theorem encodeB_bits {w : Word} (h : w.toNat < 2 ^ 26) :
    encodeB (bits w 7 0) (bits w 12 8) (bits w 25 13) = w := by
  refine BitVec.eq_of_toNat_eq ?_
  rw [encodeB_toNat (bits_lt w 7 0) (bits_lt w 12 8) (bits_lt w 25 13), bits, bits, bits]
  omega

theorem encodeR_bits {w : Word} (h : w.toNat < 2 ^ 23) :
    encodeR (bits w 7 0) (bits w 12 8) (bits w 17 13) (bits w 22 18) = w := by
  refine BitVec.eq_of_toNat_eq ?_
  rw [encodeR_toNat (bits_lt w 7 0) (bits_lt w 12 8) (bits_lt w 17 13) (bits_lt w 22 18), bits, bits, bits, bits]
  omega

theorem encodeR1_bits {w : Word} (h : w.toNat < 2 ^ 18) :
    encodeR (bits w 7 0) (bits w 12 8) (bits w 17 13) 0 = w := by
  have hrs2 : bits w 22 18 = 0 := ((formatR1_bits_iff w).2 h).2
  have hw := encodeR_bits (w := w) (by omega)
  rwa [hrs2] at hw

/-! ### A format reads back the fields of its own words -/

theorem formatN_encodeN {opc : Nat} (h : opc < 256) (i : Instr) : formatN (encodeN opc) i = .ok i :=
  formatN_eq_ok_iff.2 ⟨by rwa [encodeN_toNat h], rfl⟩

theorem formatB_encodeB {opc rp boff : Nat} (h : opc < 256) (h1 : rp < 32) (h2 : boff < 8192) (f : Nat → Nat → Instr) :
    formatB (encodeB opc rp boff) f = .ok (f rp boff) := by
  have hw := encodeB_toNat h h1 h2
  have hrp : bits (encodeB opc rp boff) 12 8 = rp := by rw [bits, hw]; omega
  have hboff : bits (encodeB opc rp boff) 25 13 = boff := by rw [bits, hw]; omega
  exact formatB_eq_ok_iff.2 ⟨by omega, by rw [hrp, hboff]⟩

section FormatR

variable {opc rd rs1 rs2 : Nat} (h : opc < 256) (h1 : rd < 32) (h2 : rs1 < 32) (h3 : rs2 < 32)
include h h1 h2

include h3 in
theorem bits_encodeR_fields : bits (encodeR opc rd rs1 rs2) 12 8 = rd ∧ bits (encodeR opc rd rs1 rs2) 17 13 = rs1 ∧
    bits (encodeR opc rd rs1 rs2) 22 18 = rs2 := by
  rw [bits, bits, bits, encodeR_toNat h h1 h2 h3]
  omega

include h3 in
theorem formatR_encodeR (f : Nat → Nat → Nat → Instr) : formatR (encodeR opc rd rs1 rs2) f = .ok (f rd rs1 rs2) := by
  have hw := encodeR_toNat h h1 h2 h3
  obtain ⟨hrd, hrs1, hrs2⟩ := bits_encodeR_fields h h1 h2 h3
  exact formatR_eq_ok_iff.2 ⟨by omega, by rw [hrd, hrs1, hrs2]⟩

theorem formatR1_encodeR (f : Nat → Nat → Instr) : formatR1 (encodeR opc rd rs1 0) f = .ok (f rd rs1) := by
  have hw := encodeR_toNat h h1 h2 (rs2 := 0) (by decide)
  obtain ⟨hrd, hrs1, -⟩ := bits_encodeR_fields h h1 h2 (rs2 := 0) (by decide)
  exact formatR1_eq_ok_iff.2 ⟨by omega, by rw [hrd, hrs1]⟩

end FormatR

/-! ### The rows of the opcode table (R116) -/

/-- The row of a command, by its format: how `decode` reads the words with its opcode, and how its word, its mask and its
well-formedness are given. -/
inductive Instr.Row : Instr → Prop
  | ofN (i : Instr) (hdecode : ∀ w, bits w 7 0 = i.opcode → decode w = formatN w i)
      (hencode : encode i = encodeN i.opcode) (hmask : i.tableMask = 0xFFFFFFFF) : Row i
  | ofB (f : Nat → Nat → Instr) (opc rp boff : Nat) (hopc : ∀ a o, (f a o).opcode = opc)
      (hdecode : ∀ w, bits w 7 0 = opc → decode w = formatB w f)
      (hencode : ∀ a o, encode (f a o) = encodeB opc a o) (hmask : (f rp boff).tableMask = 0xFC0000FF)
      (hwf : (f rp boff).wellFormed = (regOk rp && boffOk boff)) : Row (f rp boff)
  | ofR (f : Nat → Nat → Nat → Instr) (opc rd rs1 rs2 : Nat) (hopc : ∀ a b c, (f a b c).opcode = opc)
      (hdecode : ∀ w, bits w 7 0 = opc → decode w = formatR w f)
      (hencode : ∀ a b c, encode (f a b c) = encodeR opc a b c) (hmask : (f rd rs1 rs2).tableMask = 0xFF8000FF)
      (hwf : (f rd rs1 rs2).wellFormed = (regOk rd && regOk rs1 && regOk rs2)) : Row (f rd rs1 rs2)
  | ofR1 (f : Nat → Nat → Instr) (opc rd rs1 : Nat) (hopc : ∀ a b, (f a b).opcode = opc)
      (hdecode : ∀ w, bits w 7 0 = opc → decode w = formatR1 w f)
      (hencode : ∀ a b, encode (f a b) = encodeR opc a b 0) (hmask : (f rd rs1).tableMask = 0xFFFC00FF)
      (hwf : (f rd rs1).wellFormed = (regOk rd && regOk rs1)) : Row (f rd rs1)

theorem Instr.row (i : Instr) : i.Row := by
  cases i
  case nop | montr | barr | freeze | cpaKeypair | cpaEnc | cpaDec | kemKeygen | kemEncaps | kemDecaps | kemSkcheck =>
    exact .ofN _ (fun w h => by rw [decode, h]; rfl) rfl rfl
  case ntt | invntt | vntt | vinvntt =>
    exact .ofR1 _ _ _ _ (fun _ _ => rfl) (fun w h => by rw [decode, h]; rfl) (fun _ _ => rfl) rfl rfl
  case padd | psub | pacc | vadd =>
    exact .ofR _ _ _ _ _ (fun _ _ _ => rfl) (fun w h => by rw [decode, h]; rfl) (fun _ _ _ => rfl) rfl rfl
  all_goals exact .ofB _ _ _ _ (fun _ _ => rfl) (fun w h => by rw [decode, h]; rfl) (fun _ _ => rfl) rfl rfl

/-- The decoder goes by the low byte (R120). -/
theorem opcode_of_decode {w : Word} {i : Instr} (h : decode w = .ok i) : bits w 7 0 = i.opcode := by
  rw [decode] at h
  split at h <;> rename_i hlow
  case h_1 | h_2 | h_3 | h_4 | h_28 | h_29 | h_30 | h_31 | h_32 | h_33 | h_34 =>
    exact hlow.trans (congrArg Instr.opcode (formatN_ok h).2)
  case h_5 | h_6 | h_20 | h_21 => exact hlow.trans (congrArg Instr.opcode (formatR1_ok h).2.2)
  case h_7 | h_8 | h_19 | h_22 => exact hlow.trans (congrArg Instr.opcode (formatR_ok h).2)
  case h_35 => cases h
  all_goals exact hlow.trans (congrArg Instr.opcode (formatB_ok h).2)

theorem decode_encode {i : Instr} (h : i.WellFormed) : decode (encode i) = .ok i := by
  have hopc := i.opcode_lt
  cases i.row with
  | ofN _ hdecode hencode hmask =>
    rw [hencode, hdecode _ (bits_encodeN_opcode hopc), formatN_encodeN hopc]
  | ofB f opc rp boff hopcode hdecode hencode hmask hwf =>
    rw [hopcode] at hopc
    obtain ⟨h1, h2⟩ := regOffset_of_wellFormed (hwf.symm.trans h)
    rw [hencode, hdecode _ (bits_encodeB_opcode hopc h1 h2), formatB_encodeB hopc h1 h2]
  | ofR f opc rd rs1 rs2 hopcode hdecode hencode hmask hwf =>
    rw [hopcode] at hopc
    obtain ⟨h1, h2, h3⟩ := regs3_of_wellFormed (hwf.symm.trans h)
    rw [hencode, hdecode _ (bits_encodeR_opcode hopc h1 h2 h3), formatR_encodeR hopc h1 h2 h3]
  | ofR1 f opc rd rs1 hopcode hdecode hencode hmask hwf =>
    rw [hopcode] at hopc
    obtain ⟨h1, h2⟩ := regs2_of_wellFormed (hwf.symm.trans h)
    rw [hencode, hdecode _ (bits_encodeR_opcode hopc h1 h2 (by decide)), formatR1_encodeR hopc h1 h2]

theorem encode_of_decode {w : Word} {i : Instr} (h : decode w = .ok i) : encode i = w := by
  have hlow := opcode_of_decode h
  cases i.row with
  | ofN _ hdecode hencode hmask =>
    obtain ⟨hw, -⟩ := formatN_eq_ok_iff.1 ((hdecode w hlow).symm.trans h)
    rw [hencode, ← hlow, encodeN_bits hw]
  | ofB f opc rp boff hopcode hdecode hencode hmask hwf =>
    rw [hopcode] at hlow
    obtain ⟨hw, hf⟩ := formatB_eq_ok_iff.1 ((hdecode w hlow).symm.trans h)
    rw [← hf, hencode, ← hlow, encodeB_bits hw]
  | ofR f opc rd rs1 rs2 hopcode hdecode hencode hmask hwf =>
    rw [hopcode] at hlow
    obtain ⟨hw, hf⟩ := formatR_eq_ok_iff.1 ((hdecode w hlow).symm.trans h)
    rw [← hf, hencode, ← hlow, encodeR_bits hw]
  | ofR1 f opc rd rs1 hopcode hdecode hencode hmask hwf =>
    rw [hopcode] at hlow
    obtain ⟨hw, hf⟩ := formatR1_eq_ok_iff.1 ((hdecode w hlow).symm.trans h)
    rw [← hf, hencode, ← hlow, encodeR1_bits hw]

/-- R117 for a row whose words `format` reads: it accepts those with no bit from `hi` up, as the row's mask says. -/
theorem matches_iff_of_format {w mask : Word} {i : Instr} {hi : Nat} {format : Except DecodeError Instr}
    (hmask : i.tableMask = mask) (hhi : 8 ≤ hi ∧ hi ≤ 32) (hval : mask.toNat = 2 ^ hi * (2 ^ (32 - hi) - 1) + 255)
    (hdecode : bits w 7 0 = i.opcode → decode w = format)
    (haccepts : w.toNat < 2 ^ hi → ∃ j, format = .ok j ∧ j.opcode = i.opcode)
    (hrejects : ∀ j, format = .ok j → w.toNat < 2 ^ hi) :
    w &&& i.tableMask = i.tableMatch ↔ ∃ j, decode w = .ok j ∧ j.opcode = i.opcode := by
  rw [Instr.tableMatch, hmask, and_mask_eq_opcode_iff w hhi hval i.opcode_lt]
  constructor
  · rintro ⟨hlow, hw⟩
    rw [hdecode hlow]
    exact haccepts hw
  · rintro ⟨j, hj, hji⟩
    have hlow := (opcode_of_decode hj).trans hji
    exact ⟨hlow, hrejects j ((hdecode hlow).symm.trans hj)⟩

/-- R117: a word matches the row of `i` exactly when it decodes to a command with that row's opcode. -/
theorem matches_iff_decodes (w : Word) (i : Instr) :
    w &&& i.tableMask = i.tableMatch ↔ ∃ j, decode w = .ok j ∧ j.opcode = i.opcode := by
  cases i.row with
  | ofN _ hdecode hencode hmask =>
    exact matches_iff_of_format (hi := 8) hmask (by decide) rfl (hdecode w)
      (fun hw => ⟨i, formatN_eq_ok_iff.2 ⟨hw, rfl⟩, rfl⟩) fun j hj => (formatN_eq_ok_iff.1 hj).1
  | ofB f opc rp boff hopcode hdecode hencode hmask hwf =>
    exact matches_iff_of_format (hi := 26) hmask (by decide) rfl (hopcode rp boff ▸ hdecode w)
      (fun hw => ⟨_, formatB_eq_ok_iff.2 ⟨hw, rfl⟩, by rw [hopcode, hopcode]⟩) fun j hj => (formatB_eq_ok_iff.1 hj).1
  | ofR f opc rd rs1 rs2 hopcode hdecode hencode hmask hwf =>
    exact matches_iff_of_format (hi := 23) hmask (by decide) rfl (hopcode rd rs1 rs2 ▸ hdecode w)
      (fun hw => ⟨_, formatR_eq_ok_iff.2 ⟨hw, rfl⟩, by rw [hopcode, hopcode]⟩) fun j hj => (formatR_eq_ok_iff.1 hj).1
  | ofR1 f opc rd rs1 hopcode hdecode hencode hmask hwf =>
    exact matches_iff_of_format (hi := 18) hmask (by decide) rfl (hopcode rd rs1 ▸ hdecode w)
      (fun hw => ⟨_, formatR1_eq_ok_iff.2 ⟨hw, rfl⟩, by rw [hopcode, hopcode]⟩) fun j hj => (formatR1_eq_ok_iff.1 hj).1

/-! ### A word laid out as its four bytes (R87) -/

theorem wordOfBytes_bytes (w : Word) :
    wordOfBytes (BitVec.ofNat 8 w.toNat) (BitVec.ofNat 8 (w.toNat / 2 ^ 8)) (BitVec.ofNat 8 (w.toNat / 2 ^ 16))
      (BitVec.ofNat 8 (w.toNat / 2 ^ 24)) = w := by
  refine BitVec.eq_of_toNat_eq ?_
  simp only [wordOfBytes, BitVec.toNat_ofNat]
  omega

theorem tableWord_toNat (w : Word) : tableWord 32 w.toNat = w := by
  rw [tableWord, Nat.mod_eq_of_lt w.isLt, BitVec.ofNat_toNat, BitVec.setWidth_eq]

theorem decodeTableWord_of_decode {w : Word} {i : Instr} (h : decode w = .ok i) : decodeTableWord 32 w.toNat = some i := by
  simp only [decodeTableWord, tableWord_toNat, decodeBytes, wordOfBytes_bytes, h]

/-! ### Opcodes that no row has (R119) -/

/-- The opcodes of R116. -/
def listedOpcodes : List Nat :=
  [0x00, 0x10, 0x11, 0x12, 0x20, 0x21, 0x30, 0x31, 0x40, 0x41, 0x42, 0x43, 0x44, 0x45, 0x46, 0x47, 0x50, 0x51, 0x60, 0x61,
    0x62, 0x63, 0x64, 0x65, 0x66, 0x67, 0x70, 0x80, 0x81, 0x82, 0x90, 0x91, 0x92, 0x93]

theorem Instr.opcode_mem_listedOpcodes (i : Instr) : i.opcode ∈ listedOpcodes := by
  cases i <;> simp [Instr.opcode, listedOpcodes]

end Sys2Proof

namespace Sys2Proof.Machine

open Sys2Proof

/-- Settles O7: each format reads back the fields it wrote, and the four bytes of a word make that word. -/
theorem decodeOfEncode : Obligations.DecodeOfEncode :=
  fun _ h => ⟨decode_encode h, decodeTableWord_of_decode (decode_encode h)⟩

/-- Settles O8: the fields a format takes out of a word, and the bits it wants zero, are the whole word. -/
theorem encodeOfDecode : Obligations.EncodeOfDecode := fun _ _ h => ⟨decode_wellFormed h, encode_of_decode h⟩

/-- The commit of a word that is no command (R302). -/
theorem step_of_no_command {s : State} {sn : Snapshot} (he : s.eng = .busy sn 0) (h : ∀ i, decode sn.word ≠ .ok i) :
    step s = .next (s.endsWith .illegalOpcode) := by
  cases hd : decode sn.word with
  | ok i => exact absurd hd (h i)
  | error e => exact stepRunsTheDecodedCommand.2.1 s sn e he hd

/-- Settles O9: a word matches a row exactly when it decodes to a command of that row. -/
theorem decoderMatchesTheMasks : Obligations.DecoderMatchesTheMasks := by
  refine fun w => ⟨fun i hi => (matches_iff_decodes w i).2 ⟨i, hi, rfl⟩, fun j => (matches_iff_decodes w j).1,
    fun hno s sn he hw => step_of_no_command he fun i hi => hno ⟨i, ?_⟩⟩
  rw [hw] at hi
  exact (matches_iff_decodes w i).2 ⟨i, hi, rfl⟩

/-- Settles O11: a word that decodes has a listed opcode in its low byte, and no range of R119 holds one. -/
theorem unlistedOpcodesAreIllegal : Obligations.UnlistedOpcodesAreIllegal := by
  refine ⟨fun s sn he ⟨r, hr, hrange⟩ => step_of_no_command he fun i hi => ?_, fun w => ⟨fun h => ?_, fun h => ?_⟩⟩
  · have hlow : sn.word.toNat % 256 = i.opcode := by simpa [bits] using opcode_of_decode hi
    have hlisted := i.opcode_mem_listedOpcodes
    rw [← hlow] at hlisted
    generalize sn.word.toNat % 256 = o at hlisted hrange
    -- what is left is about the two lists alone
    clear hi
    revert r o
    decide
  · exact (encode_of_decode h).symm
  · rw [h]
    rfl

/-- Settles O10: each word's fields are computed. -/
theorem wordsOfTheSpecDecode : Obligations.WordsOfTheSpecDecode := ⟨rfl, rfl, rfl, rfl, rfl, rfl, rfl, rfl⟩

/-! ### The host's lines (R123, R125) -/

theorem step_of_idle {s : State} (h : s.eng = .idle) : step s = s.hostStep := by
  rw [step, h]

theorem hostStep_of_line {s : State} {l : Line} (h : s.host.prog[s.host.pos]? = some l) : s.hostStep = s.runLine l := by
  rw [State.hostStep, h]

/-- Bit 0 of STATUS is BUSY (R35). -/
theorem statusWord_getLsbD_zero (s : State) : s.statusWord.getLsbD 0 = s.isBusy := by
  rw [← BitVec.testBit_toNat, statusWord_toNat, testBit_zero_flagBit_add]

/-- One turn of WAIT: STATUS into h7, and on to the next line unless BUSY (R123). -/
theorem runLine_wait (s : State) :
    s.runLine .wait = .next { s with host := { s.host with
      regs := s.host.regs.set 7 s.statusWord, pos := if s.isBusy then s.host.pos else s.host.pos + 1 } } := by
  have hread : s.hostRead 0x0008 .word = .ok { value := s.statusWord, after := s } := hostRead_csr s
  simp only [State.runLine, hread, statusWord_getLsbD_zero]
  cases s.isBusy <;> rfl

/-- Settles O5: the step is the host's turn, which runs its line; a branch is one move to the line its condition picks. -/
theorem hostLinesRun : Obligations.HostLinesRun := by
  refine ⟨fun s => step_of_idle, fun s sn n => step_of_busy_succ, fun s l hl => ?_⟩
  rw [hostStep_of_line hl]
  refine ⟨?li, ?addi, ?andi, ?beq, ?bne, ?write, ?read, ?wait, ?rst, ?halt⟩
  case li | addi | andi => intros; subst_vars; rfl
  case beq | bne =>
    rintro h imm target rfl
    exact congrArg Host.Outcome.next (apply_ite s.goto _ _ _).symm
  case write | read => intros; subst_vars; rfl
  case wait => rintro rfl; exact runLine_wait s
  case rst | halt => rintro rfl; rfl

end Sys2Proof.Machine

namespace Sys2Proof.Machine

open Sys2Proof

/-! ### The scalar commands commit (R52) -/

/-- A command without operands, sizes or a key hash passes its checks in every state. -/
theorem check_of_scalar {i : Instr} (h : i = .nop ∨ i = .montr ∨ i = .barr ∨ i = .freeze) (s : State) :
    s.check i = .ok () := by
  rcases h with rfl | rfl | rfl | rfl <;> rfl

theorem exec_commitsRes {i : Instr} {s : State} {v : Nat} (hok : s.check i = .ok ())
    (hc : exec i s = s.commit (s.check i >>= fun _ => pure { res := some (BitVec.ofNat 32 v) })) :
    exec i s = .next (s.commitsRes v) := by
  rw [hc, hok]
  rfl

theorem exec_nop (s : State) : exec .nop s = .next s.commitsNothing := by
  show s.commit (s.check .nop >>= fun _ => pure { }) = _
  rw [check_of_scalar (by simp)]
  rfl

theorem exec_montr (s : State) : exec .montr s = .next (s.commitsRes (montF s.snap.arg).toNat) :=
  exec_commitsRes (check_of_scalar (by simp) s) rfl

theorem exec_barr (s : State) : exec .barr s = .next (s.commitsRes (barrettF (argHalf s.snap.arg)).toNat) :=
  exec_commitsRes (check_of_scalar (by simp) s) rfl

theorem exec_freeze (s : State) : exec .freeze s = .next (s.commitsRes (freezeF (argHalf s.snap.arg)).toNat) :=
  exec_commitsRes (check_of_scalar (by simp) s) rfl

/-! ### The reductions as numbers (R141, R143, R145) -/

theorem argHalf_toNat (arg : Word) : (argHalf arg).toNat = arg.toNat % 2 ^ 16 := BitVec.toNat_ofNat _ _

/-- mont_f's u needs no 32-bit wrap before its own, and the quotient of a 32-bit sum fits in 16 bits. -/
theorem montF_toNat (a : Word) :
    (montF a).toNat = (a.toNat + a.toNat * 7679 % 2 ^ 18 * 7681) % 2 ^ 32 / 2 ^ 18 := by
  have hu : a.toNat * 7679 % 2 ^ 32 % 2 ^ 18 = a.toNat * 7679 % 2 ^ 18 := Nat.mod_mod_of_dvd _ (by decide)
  rw [montF, BitVec.toNat_ofNat, qinv, q, hu]
  exact Nat.mod_eq_of_lt (by omega)

theorem barrettF_toNat (a : Coeff) : (barrettF a).toNat = a.toNat - a.toNat / 2 ^ 13 * 7681 := by
  have := a.isLt
  rw [barrettF, BitVec.toNat_ofNat, q]
  omega

theorem barrettF_mod (a : Coeff) : (barrettF a).toNat % 7681 = a.toNat % 7681 := by
  rw [barrettF_toNat]
  omega

theorem barrettF_le (a : Coeff) : (barrettF a).toNat ≤ 11768 := by
  have := a.isLt
  rw [barrettF_toNat]
  omega

/-- A mask of ones or of zeros picks one of two coefficients. -/
theorem xor_xor_and_mask (r m : Coeff) (b : Bool) :
    m ^^^ ((r ^^^ m) &&& if b then (0xFFFF : Coeff) else 0x0000) = if b then r else m := by
  cases b with
  | true =>
    show m ^^^ ((r ^^^ m) &&& BitVec.allOnes 16) = r
    rw [BitVec.and_allOnes, BitVec.xor_comm, BitVec.xor_assoc, BitVec.xor_self, BitVec.xor_zero]
  | false =>
    show m ^^^ ((r ^^^ m) &&& 0#16) = m
    rw [BitVec.and_zero, BitVec.xor_zero]

/-- r − q as a 16-bit number: it wraps exactly when r is below q. -/
theorem toNat_w16_sub_q (r : Coeff) :
    (w16 (r.toNat - q)).toNat = if r.toNat < 7681 then r.toNat + 57855 else r.toNat - 7681 := by
  rw [w16, BitVec.toNat_ofInt, q]
  split <;> omega

theorem sign_w16_sub_q {r : Coeff} (h : r.toNat ≤ 11768) :
    (w16 (r.toNat - q)).getLsbD 15 = decide (r.toNat < 7681) := by
  rw [BitVec.getLsbD, Nat.testBit_eq_decide_div_mod_eq, toNat_w16_sub_q, decide_eq_decide]
  split <;> omega

/-- freeze_f takes q off the Barrett residue once, where it is not below q already. -/
theorem freezeF_toNat (x : Coeff) : (freezeF x).toNat = x.toNat % 7681 := by
  have hmod := barrettF_mod x
  have hle := barrettF_le x
  rw [freezeF, xor_xor_and_mask, sign_w16_sub_q hle]
  by_cases hr : (barrettF x).toNat < 7681
  · rw [decide_eq_true hr, if_pos rfl]
    omega
  · rw [decide_eq_false hr, if_neg Bool.false_ne_true, toNat_w16_sub_q, if_neg hr]
    omega

/-- Settles O32: the checks of the four commands pass in every state, and each RES is its reduction as a number. -/
theorem scalarCommandsComplete : Obligations.ScalarCommandsComplete := by
  intro s
  rw [← montF_toNat, ← argHalf_toNat, ← barrettF_toNat, ← freezeF_toNat]
  exact ⟨exec_nop s, exec_montr s, exec_barr s, exec_freeze s⟩

/-! ### The Montgomery law (R148) -/

section Montgomery

variable {a : Word} (h : a.toNat ≤ 2013265920)

include h in
theorem montSum_lt : a.toNat + a.toNat * 7679 % 2 ^ 18 * 7681 < 2 ^ 32 := by omega

/-- The sum of mont_f is a multiple of 2^18, since 7679 · 7681 is −1 modulo 2^18: its quotient is exact. -/
theorem montSum_mod (n : Nat) : (n + n * 7679 % 2 ^ 18 * 7681) % 2 ^ 18 = 0 := by omega

include h in
theorem montF_mul : 2 ^ 18 * (montF a).toNat = a.toNat + a.toNat * 7679 % 2 ^ 18 * 7681 := by
  rw [montF_toNat, Nat.mod_eq_of_lt (montSum_lt h)]
  exact Nat.mul_div_cancel' (Nat.dvd_of_mod_eq_zero (montSum_mod _))

include h in
theorem montF_le : (montF a).toNat ≤ 15360 := by
  have := montF_mul h
  omega

include h in
theorem montF_mod : (montF a).toNat % 7681 = a.toNat * 225 % 7681 := by
  have := montF_mul h
  omega

end Montgomery

/-- Settles O44: the Montgomery sum is 2^18 times the result, and 225 is the inverse of 2^18 modulo q. -/
theorem reductionLaws : Obligations.ReductionLaws := by
  refine ⟨rfl, rfl, fun a h => ⟨montF_mod h, montF_le h, montSum_lt h⟩, fun a => ⟨barrettF_mod a, barrettF_le a⟩,
    fun x => ?_, by decide⟩
  rw [freezeF_toNat]
  exact ⟨Nat.mod_lt _ (by decide), Nat.mod_mod _ _⟩

end Sys2Proof.Machine

namespace Sys2Proof.Machine

open Sys2Proof

/-! ### The transforms commit (R164, R166) -/

/-- A command that reads one defined register, its checks passed, writes the function of its value to its destination. -/
theorem exec_commitsRegs_of_poly {i : Instr} {s : State} {rs rd : Nat} {f : Poly → Poly} {p : Poly}
    (hc : exec i s = s.commit (s.check i >>= fun _ => s.readPoly rs >>= fun p => pure { preg := [(rd, [f p])] }))
    (hok : s.check i = .ok ()) (hp : Memory.poly s.preg rs = some p) (hf : IsPoly (f p)) :
    ∃ t, exec i s = .next t ∧ s.CommitsRegs t rd [f p] := by
  refine ⟨(s.applyWrites { preg := [(rd, [f p])] }).complete, ?_, s.commitsRegs_of_writes rd (by simpa using hf)⟩
  rw [hc, hok, ok_bind, State.readPoly_eq_ok.2 hp]
  rfl

/-- Settles O33: the checks of the two commands pass in every state, and each writes the transform of what it read. -/
theorem transformsComplete : Obligations.TransformsComplete := fun _ _ _ _ hp =>
  have hlen := Memory.poly_length hp
  ⟨exec_commitsRegs_of_poly rfl rfl hp (nttF_length hlen), exec_commitsRegs_of_poly rfl rfl hp (invnttF_length hlen)⟩

/-! ### The tables (R160 to R162) -/

theorem zetas_toNat : ∀ i < 256, (coeffAt zetas i).toNat = 62 ^ bitReverse 8 i * 2 ^ 18 % 7681 := by decide +kernel

theorem omegasInv_mul_pow : ∀ i < 128, (coeffAt omegasInv i).toNat < 7681 ∧
    (coeffAt omegasInv i).toNat * 3844 ^ bitReverse 7 i % 7681 = 2 ^ 18 % 7681 := by decide +kernel

theorem psisInv_mul_pow : ∀ i < 256, (coeffAt psisInv i).toNat < 7681 ∧
    (coeffAt psisInv i).toNat * 62 ^ i % 7681 = 7651 * 2 ^ 18 % 7681 := by decide +kernel

theorem root_pow_256 : 62 ^ 256 % 7681 = 7680 := by decide +kernel

/-- Settles O51: every entry of the three tables is computed. -/
theorem twiddleTablesAreTheirPowers : Obligations.TwiddleTablesAreTheirPowers :=
  ⟨zetas_toNat, omegasInv_mul_pow, psisInv_mul_pow, by decide, root_pow_256⟩

/-! ### A level of butterflies, index by index

A level of distance `L` cuts a polynomial into blocks of 2L coefficients. Coefficient `2 * L * m + i` with `i < L` is the upper
one of a pair of block `m`, and meets the lower one `L` further on. -/

/-- The two coefficients that meet in the butterfly of distance `L` at index `j`. -/
def pairAt (L : Nat) (p : Poly) (j : Nat) : Coeff × Coeff := (coeffAt p j, coeffAt p (j + L))

/-- `p` with the two outputs of a butterfly in the place of its inputs. -/
def setPair (L : Nat) (p : Poly) (j : Nat) (x : Coeff × Coeff) : Poly := (p.set j x.1).set (j + L) x.2

/-- The butterfly `bf` with twiddle `w`, in place at index `j`. -/
def butterflyAt (bf : Coeff → Coeff → Coeff → Coeff × Coeff) (w : Coeff) (L : Nat) (p : Poly) (j : Nat) : Poly :=
  setPair L p j (bf w (coeffAt p j) (coeffAt p (j + L)))

theorem coeffAt_of_lt {p : Poly} {j : Nat} (h : j < p.length) : coeffAt p j = p[j] := List.getD_eq_getElem _ _ h

theorem coeffAt_append_left {p : Poly} {j : Nat} (r : Poly) (h : j < p.length) : coeffAt (p ++ r) j = coeffAt p j :=
  List.getD_append _ _ _ _ h

theorem coeffAt_append_right {p : Poly} {n : Nat} (r : Poly) (h : p.length = n) (j : Nat) :
    coeffAt (p ++ r) (n + j) = coeffAt r j := by
  rw [coeffAt, List.getD_append_right _ _ _ _ (by omega), coeffAt, h, Nat.add_sub_cancel_left]

theorem coeffAt_drop (k : Nat) (p : Poly) (j : Nat) : coeffAt (p.drop k) j = coeffAt p (k + j) := by
  rw [coeffAt, coeffAt, List.getD_eq_getElem?_getD, List.getElem?_drop, ← List.getD_eq_getElem?_getD]

theorem coeffAt_take {k j : Nat} (h : j < k) (p : Poly) : coeffAt (p.take k) j = coeffAt p j := by
  rw [coeffAt, coeffAt, List.getD_eq_getElem?_getD, List.getElem?_take_of_lt h, ← List.getD_eq_getElem?_getD]

theorem coeffAt_map {p : Poly} {j : Nat} (f : Coeff → Coeff) (h : j < p.length) : coeffAt (p.map f) j = f (coeffAt p j) := by
  rw [coeffAt_of_lt (by rwa [List.length_map]), List.getElem_map, coeffAt_of_lt h]

theorem coeffAt_zipWith {p r : Poly} {j : Nat} (f : Coeff → Coeff → Coeff) (hp : j < p.length) (hr : j < r.length) :
    coeffAt (List.zipWith f p r) j = f (coeffAt p j) (coeffAt r j) := by
  rw [coeffAt_of_lt (by rw [List.length_zipWith]; omega), List.getElem_zipWith, coeffAt_of_lt hp, coeffAt_of_lt hr]

theorem coeffAt_set_same {p : Poly} {j : Nat} (h : j < p.length) (x : Coeff) : coeffAt (p.set j x) j = x := by
  rw [coeffAt_of_lt (by rwa [List.length_set]), List.getElem_set_self]

theorem coeffAt_set_other {j j' : Nat} (h : j ≠ j') (p : Poly) (x : Coeff) : coeffAt (p.set j x) j' = coeffAt p j' := by
  rw [coeffAt, List.getD_eq_getElem?_getD, List.getElem?_set_ne h, ← List.getD_eq_getElem?_getD, coeffAt]

@[simp] theorem setPair_length (L : Nat) (p : Poly) (j : Nat) (x : Coeff × Coeff) : (setPair L p j x).length = p.length := by
  simp [setPair]

@[simp] theorem butterflyAt_length (bf : Coeff → Coeff → Coeff → Coeff × Coeff) (w : Coeff) (L : Nat) (p : Poly) (j : Nat) :
    (butterflyAt bf w L p j).length = p.length := setPair_length _ _ _ _

theorem pairAt_setPair_same {L j : Nat} {p : Poly} (hL : 0 < L) (h : j + L < p.length) (x : Coeff × Coeff) :
    pairAt L (setPair L p j x) j = x := by
  rw [pairAt, setPair, coeffAt_set_same (by rwa [List.length_set]), coeffAt_set_other (by omega),
    coeffAt_set_same (by omega)]

theorem pairAt_setPair_other {L j j' : Nat} (h : j ≠ j' ∧ j ≠ j' + L ∧ j + L ≠ j') (p : Poly) (x : Coeff × Coeff) :
    pairAt L (setPair L p j x) j' = pairAt L p j' := by
  obtain ⟨h1, h2, h3⟩ := h
  rw [pairAt, setPair, coeffAt_set_other h3, coeffAt_set_other h1, coeffAt_set_other (by omega), coeffAt_set_other h2, pairAt]

/-- Two polynomials of one length are equal when their coefficients are. -/
theorem poly_ext {p r : Poly} (hlen : p.length = r.length) (h : ∀ j < p.length, coeffAt p j = coeffAt r j) : p = r := by
  refine List.ext_getElem hlen fun j hj hj' => ?_
  rw [← coeffAt_of_lt hj, ← coeffAt_of_lt hj', h j hj]

section Blocks

variable {L n : Nat}

theorem block_index_lt {m i : Nat} (hm : m < n) (hi : i < L) : 2 * L * m + i + L < n * (2 * L) := by
  have := Nat.mul_le_mul_right (2 * L) (Nat.succ_le_of_lt hm)
  rw [Nat.succ_mul, Nat.mul_comm m] at this
  omega

/-- What holds of both indexes of every pair of every block holds of every index. -/
theorem forall_of_blocks {P : Nat → Prop} (h : ∀ m < n, ∀ i < L, P (2 * L * m + i) ∧ P (2 * L * m + i + L)) :
    ∀ j < n * (2 * L), P j := by
  intro j hj
  have hdiv := Nat.div_add_mod j (2 * L)
  have hm : j / (2 * L) < n := Nat.div_lt_of_lt_mul (by rwa [Nat.mul_comm] at hj)
  have hmod : j % (2 * L) < 2 * L := Nat.mod_lt _ (Nat.pos_of_ne_zero (by rintro h; simp [h] at hj))
  by_cases hi : j % (2 * L) < L
  · rw [← hdiv]
    exact (h _ hm _ hi).1
  · have hlow := (h _ hm (j % (2 * L) - L) (by omega)).2
    rwa [show 2 * L * (j / (2 * L)) + (j % (2 * L) - L) + L = j by omega] at hlow

/-- Butterflies at two places share no index. -/
theorem block_pairs_disjoint {m m' i i' : Nat} (hi : i < L) (hi' : i' < L) (h : (m, i) ≠ (m', i')) :
    2 * L * m + i ≠ 2 * L * m' + i' ∧ 2 * L * m + i ≠ 2 * L * m' + i' + L ∧ 2 * L * m + i + L ≠ 2 * L * m' + i' := by
  rcases Nat.lt_trichotomy m m' with hm | rfl | hm
  · have := Nat.mul_le_mul_left (2 * L) (Nat.succ_le_of_lt hm)
    rw [Nat.mul_succ] at this
    omega
  · have : i ≠ i' := fun hii => h (by rw [hii])
    omega
  · have := Nat.mul_le_mul_left (2 * L) (Nat.succ_le_of_lt hm)
    rw [Nat.mul_succ] at this
    omega

variable {bf : Coeff → Coeff → Coeff → Coeff × Coeff} {w : Nat → Coeff}

/-- `r` is `p` after one level of the butterflies `bf` on `n` blocks, block `m` with the twiddle `w m`: each pair of `r` is the
butterfly of the same pair of `p`. -/
structure IsLevel (bf : Coeff → Coeff → Coeff → Coeff × Coeff) (w : Nat → Coeff) (L n : Nat) (p r : Poly) : Prop where
  length : r.length = p.length
  pair : ∀ m < n, ∀ i < L,
    pairAt L r (2 * L * m + i) = bf (w m) (coeffAt p (2 * L * m + i)) (coeffAt p (2 * L * m + i + L))

/-- The butterflies of a level determine it. -/
theorem IsLevel.unique {p r r' : Poly} (hp : p.length = n * (2 * L)) (h : IsLevel bf w L n p r) (h' : IsLevel bf w L n p r') :
    r = r' := by
  refine poly_ext (h.length.trans h'.length.symm) ?_
  rw [h.length, hp]
  exact forall_of_blocks fun m hm i hi => Prod.mk.inj ((h.pair m hm i hi).trans (h'.pair m hm i hi).symm)

theorem pairAt_butterflyLevel {ws : List Coeff} {p : Poly} (hp : p.length = ws.length * (2 * L)) {m i : Nat}
    (hm : m < ws.length) (hi : i < L) :
    pairAt L (butterflyLevel bf L ws p) (2 * L * m + i) =
      bf (coeffAt ws m) (coeffAt p (2 * L * m + i)) (coeffAt p (2 * L * m + i + L)) := by
  induction ws generalizing p m with
  | nil => exact absurd hm (Nat.not_lt_zero m)
  | cons w ws ih =>
    rw [List.length_cons, Nat.succ_mul] at hp
    have hlo : (p.take L).length = L := by rw [List.length_take]; omega
    have hhi : ((p.drop L).take L).length = L := by rw [List.length_take, List.length_drop]; omega
    have hhalf : ∀ f : Coeff → Coeff → Coeff, (List.zipWith f (p.take L) ((p.drop L).take L)).length = L := by
      intro f
      rw [List.length_zipWith, hlo, hhi, Nat.min_self]
    cases m with
    | zero =>
      rw [Nat.mul_zero, Nat.zero_add, pairAt, Nat.add_comm i, butterflyLevel, List.append_assoc,
        coeffAt_append_left _ (by rwa [hhalf]), coeffAt_append_right _ (hhalf _),
        coeffAt_append_left _ (by rwa [hhalf]), coeffAt_zipWith _ (by rwa [hlo]) (by rwa [hhi]),
        coeffAt_zipWith _ (by rwa [hlo]) (by rwa [hhi]), coeffAt_take hi, coeffAt_take hi, coeffAt_drop]
      rfl
    | succ m =>
      have hrest := ih (p := p.drop (2 * L)) (by rw [List.length_drop]; omega) (m := m) (by simpa using hm)
      have htwo : ∀ j, L + (L + j) = 2 * L + j := fun j => by omega
      have hidx : 2 * L * (m + 1) + i = L + (L + (2 * L * m + i)) := by ring
      rw [coeffAt_drop, coeffAt_drop] at hrest
      rw [hidx, pairAt, Nat.add_assoc L, Nat.add_assoc L, butterflyLevel, List.append_assoc]
      simp only [coeffAt_append_right _ (hhalf _)]
      simp only [htwo]
      exact hrest

/-- The block form makes a level. -/
theorem isLevel_butterflyLevel {ws : List Coeff} {p : Poly} (hn : ws.length = n) (hw : ∀ m < n, coeffAt ws m = w m)
    (hp : p.length = n * (2 * L)) : IsLevel bf w L n p (butterflyLevel bf L ws p) := by
  subst hn
  exact ⟨butterflyLevel_length _ _ _ _ hp, fun m hm i hi => by rw [pairAt_butterflyLevel hp hm hi, hw m hm]⟩

/-- Butterflies in place at the pairs listed, each pair once: a pair listed is replaced, any other one kept. -/
theorem pairAt_foldl_butterflyAt {l : List (Nat × Nat)} (hnd : l.Nodup) (hl : ∀ x ∈ l, x.1 < n ∧ x.2 < L) {p : Poly}
    (hp : p.length = n * (2 * L)) {m i : Nat} (hi : i < L) :
    pairAt L (l.foldl (fun p x => butterflyAt bf (w x.1) L p (2 * L * x.1 + x.2)) p) (2 * L * m + i) =
      if (m, i) ∈ l then bf (w m) (coeffAt p (2 * L * m + i)) (coeffAt p (2 * L * m + i + L))
      else pairAt L p (2 * L * m + i) := by
  induction l generalizing p with
  | nil => simp
  | cons x l ih =>
    obtain ⟨hx, hnd⟩ := List.nodup_cons.1 hnd
    have hxl := hl x List.mem_cons_self
    rw [List.foldl_cons, ih hnd (fun y hy => hl y (List.mem_cons_of_mem _ hy)) (by rw [butterflyAt_length, hp])]
    by_cases hxi : x = (m, i)
    · subst hxi
      rw [if_neg hx, if_pos List.mem_cons_self, butterflyAt,
        pairAt_setPair_same (by omega) (by rw [hp]; exact block_index_lt hxl.1 hi)]
    · have hkeep : pairAt L (butterflyAt bf (w x.1) L p (2 * L * x.1 + x.2)) (2 * L * m + i) = pairAt L p (2 * L * m + i) :=
        pairAt_setPair_other (block_pairs_disjoint hxl.2 hi hxi) p _
      obtain ⟨hupper, hlower⟩ := Prod.mk.inj hkeep
      rw [hkeep, hupper, hlower]
      simp only [List.mem_cons, Ne.symm hxi, false_or]

theorem foldl_butterflyAt_length (l : List (Nat × Nat)) (p : Poly) :
    (l.foldl (fun p x => butterflyAt bf (w x.1) L p (2 * L * x.1 + x.2)) p).length = p.length := by
  induction l generalizing p with
  | nil => rfl
  | cons x l ih => rw [List.foldl_cons, ih, butterflyAt_length]

/-- Butterflies in place make a level, in whatever order the pairs are listed. -/
theorem isLevel_foldl_butterflyAt {l : List (Nat × Nat)} (hnd : l.Nodup) (hl : ∀ m i, (m, i) ∈ l ↔ m < n ∧ i < L) {p : Poly}
    (hp : p.length = n * (2 * L)) :
    IsLevel bf w L n p (l.foldl (fun p x => butterflyAt bf (w x.1) L p (2 * L * x.1 + x.2)) p) where
  length := foldl_butterflyAt_length l p
  pair m hm i hi := by
    rw [pairAt_foldl_butterflyAt hnd (fun x hx => (hl x.1 x.2).1 hx) hp hi, if_pos ((hl m i).2 ⟨hm, hi⟩)]

/-- The loops of R163 make a level: block by block. -/
theorem isLevel_foldl_blocks {p : Poly} (hp : p.length = n * (2 * L)) :
    IsLevel bf w L n p ((List.range n).foldl
      (fun p m => (List.range L).foldl (fun p i => butterflyAt bf (w m) L p (2 * L * m + i)) p) p) := by
  have h := isLevel_foldl_butterflyAt (bf := bf) (w := w) (l := List.range n ×ˢ List.range L)
    (List.nodup_range.product List.nodup_range) (fun m i => by simp) hp
  simpa only [SProd.sprod, List.product, List.foldl_flatMap, List.foldl_map] using h

/-- The loops of R165 make a level: place by place in all blocks. -/
theorem isLevel_foldl_places {p : Poly} (hp : p.length = n * (2 * L)) :
    IsLevel bf w L n p ((List.range L).foldl
      (fun p i => (List.range n).foldl (fun p m => butterflyAt bf (w m) L p (i + 2 * L * m)) p) p) := by
  have h := isLevel_foldl_butterflyAt (bf := bf) (w := w) (l := (List.range L ×ˢ List.range n).map Prod.swap)
    ((List.nodup_range.product List.nodup_range).map Prod.swap_injective) (fun m i => by simp [and_comm]) hp
  simpa only [SProd.sprod, List.product, List.foldl_flatMap, List.foldl_map, Prod.swap, Nat.add_comm (2 * L * _)] using h

end Blocks

/-! ### The loops are the levels (R163, R165, R168) -/

theorem nttLoopBody_eq (odd : Bool) (zeta : Coeff) {L : Nat} (hL : 0 < L) (p : Poly) (j : Nat) :
    nttLoopBody odd zeta L p j = butterflyAt (nttButterfly odd) zeta L p j := by
  have hkeep : ∀ x, coeffAt (p.set (j + L) x) j = coeffAt p j := coeffAt_set_other (by omega) p
  rw [butterflyAt, setPair, List.set_comm _ _ (by omega)]
  simp only [nttLoopBody, hkeep, nttButterfly]
  cases odd <;> rfl

theorem invnttLoopBody_eq (odd : Bool) (w : Coeff) (L : Nat) (a : Poly) (j : Nat) :
    invnttLoopBody odd w L a j = butterflyAt (invnttButterfly odd) w L a j := by
  cases odd <;> rfl

/-- Level `l` has 2^(7−l) blocks. -/
theorem blocks_of_level {l : Nat} (hl : l ≤ 7) : 2 ^ (7 - l) * (2 * 2 ^ l) = 256 := by
  rw [← Nat.pow_succ', ← Nat.pow_add, show 7 - l + l.succ = 8 by omega]

theorem blocks_of_level_le (l : Nat) : 2 ^ (7 - l) ≤ 128 := Nat.pow_le_pow_right Nat.two_pos (Nat.sub_le 7 l)

theorem loop_blocks_of_level {l : Nat} (hl : l ≤ 7) : 128 / 2 ^ l = 2 ^ (7 - l) :=
  Nat.pow_div (m := 7) hl Nat.two_pos

theorem isLevel_nttLevel {p : Poly} (hp : IsPoly p) {l : Nat} (hl : l ≤ 7) :
    IsLevel (nttButterfly (decide (l % 2 = 1))) (fun m => coeffAt zetas (2 ^ (7 - l) + m)) (2 ^ l) (2 ^ (7 - l)) p
      (nttLevel p l) := by
  have hn := blocks_of_level_le l
  refine isLevel_butterflyLevel ?_ (fun m hm => ?_) (hp.trans (blocks_of_level hl).symm)
  · rw [List.length_take, List.length_drop, zetas_length]
    omega
  · rw [coeffAt_take hm, coeffAt_drop]

theorem isLevel_invnttLevel {a : Poly} (ha : IsPoly a) {l : Nat} (hl : l ≤ 7) :
    IsLevel (invnttButterfly (decide (l % 2 = 1))) (coeffAt omegasInv) (2 ^ l) (2 ^ (7 - l)) a (invnttLevel a l) := by
  have hn := blocks_of_level_le l
  refine isLevel_butterflyLevel ?_ (fun m hm => coeffAt_take hm _) (ha.trans (blocks_of_level hl).symm)
  rw [List.length_take, omegasInv_length]
  omega

/-- The counter k of R163 is one ahead for each `start` done. -/
theorem foldl_nttLoopStart (l k n : Nat) (p : Poly) :
    (List.range n).foldl (nttLoopStart l) (p, k) =
      ((List.range n).foldl (fun p m => (List.range (2 ^ l)).foldl (fun p i =>
        butterflyAt (nttButterfly (decide (l % 2 = 1))) (coeffAt zetas (k + m)) (2 ^ l) p (2 * 2 ^ l * m + i)) p) p,
        k + n) := by
  induction n with
  | zero => rfl
  | succ n ih =>
    rw [List.range_succ, List.foldl_append, List.foldl_append, ih]
    simp only [List.foldl_cons, List.foldl_nil, nttLoopStart, nttLoopBody_eq _ _ (Nat.two_pow_pos l), Nat.add_assoc]

/-- Level `l` of R163 starts with k at 2^(7−l), and leaves it where the next level starts. -/
theorem nttLoopLevel_eq {p : Poly} (hp : IsPoly p) {l : Nat} (hl : l ≤ 7) :
    nttLoopLevel (p, 2 ^ (7 - l)) l = (nttLevel p l, 2 ^ (8 - l)) := by
  rw [nttLoopLevel, loop_blocks_of_level hl, foldl_nttLoopStart]
  congr 1
  · have hlen := hp.trans (blocks_of_level hl).symm
    exact (isLevel_foldl_blocks hlen).unique hlen (isLevel_nttLevel hp hl)
  · rw [← Nat.two_mul, ← Nat.pow_succ', show (7 - l).succ = 8 - l by omega]

theorem invnttLoopLevel_eq {a : Poly} (ha : IsPoly a) {l : Nat} (hl : l ≤ 7) : invnttLoopLevel a l = invnttLevel a l := by
  have hlen := ha.trans (blocks_of_level hl).symm
  have hloop : invnttLoopStart l = fun a start => (List.range (2 ^ (7 - l))).foldl (fun a jt =>
      butterflyAt (invnttButterfly (decide (l % 2 = 1))) (coeffAt omegasInv jt) (2 ^ l) a (start + 2 * 2 ^ l * jt)) a := by
    funext a start
    simp only [invnttLoopStart, loop_blocks_of_level hl, invnttLoopBody_eq]
  rw [invnttLoopLevel, hloop]
  exact (isLevel_foldl_places hlen).unique hlen (isLevel_invnttLevel ha hl)

/-- Levels n − 1 down to 0 of the forward transform. -/
def nttLevels (n : Nat) (p : Poly) : Poly := (List.range n).reverse.foldl nttLevel p

/-- Levels 0 to n − 1 of the inverse transform. -/
def invnttLevels (n : Nat) (a : Poly) : Poly := (List.range n).foldl invnttLevel a

theorem nttF_eq (p : Poly) : nttF p = nttLevels 8 p := rfl

theorem invnttF_eq (a : Poly) : invnttF a = List.zipWith (fun c f => montF (mulWord c f)) (invnttLevels 8 a) psisInv := rfl

@[simp] theorem nttLevels_zero (p : Poly) : nttLevels 0 p = p := rfl

@[simp] theorem invnttLevels_zero (a : Poly) : invnttLevels 0 a = a := rfl

theorem nttLevels_succ (n : Nat) (p : Poly) : nttLevels (n + 1) p = nttLevels n (nttLevel p n) := by
  rw [nttLevels, List.range_succ, List.reverse_append]
  rfl

theorem invnttLevels_succ (n : Nat) (a : Poly) : invnttLevels (n + 1) a = invnttLevel (invnttLevels n a) n := by
  rw [invnttLevels, List.range_succ, List.foldl_append]
  rfl

theorem foldl_nttLoopLevel {n : Nat} (hn : n ≤ 8) {p : Poly} (hp : IsPoly p) :
    ((List.range n).reverse.foldl nttLoopLevel (p, 2 ^ (8 - n))).1 = nttLevels n p := by
  induction n generalizing p with
  | zero => rfl
  | succ n ih =>
    rw [List.range_succ, List.reverse_append, List.reverse_singleton, List.singleton_append, List.foldl_cons,
      show 8 - (n + 1) = 7 - n by omega, nttLoopLevel_eq hp (by omega), ih (by omega) (nttLevel_length hp (by omega)),
      nttLevels_succ]

/-- Settles O52: each level of the loop is the level of blocks, since both do the same butterflies on disjoint pairs. -/
theorem nttFollowsThePseudocode : Obligations.NttFollowsThePseudocode := by
  intro p hp
  have hloop : nttLoop p = nttF p := foldl_nttLoopLevel (Nat.le_refl 8) hp
  rw [hloop]
  exact ⟨rfl, nttF_length hp⟩

theorem foldl_invnttLoopLevel {n : Nat} (hn : n ≤ 8) {a : Poly} (ha : IsPoly a) :
    (List.range n).foldl invnttLoopLevel a = invnttLevels n a ∧ IsPoly (invnttLevels n a) := by
  induction n with
  | zero => exact ⟨rfl, ha⟩
  | succ n ih =>
    obtain ⟨heq, hlen⟩ := ih (by omega)
    rw [List.range_succ, List.foldl_append, heq, List.foldl_cons, List.foldl_nil, invnttLoopLevel_eq hlen (by omega),
      invnttLevels_succ]
    exact ⟨rfl, invnttLevel_length hlen (by omega)⟩

theorem foldl_set_length (f : Nat → Coeff → Coeff) (n : Nat) (a : Poly) :
    ((List.range n).foldl (fun a j => a.set j (f j (coeffAt a j))) a).length = a.length := by
  induction n with
  | zero => rfl
  | succ n ih => rw [List.range_succ, List.foldl_append, List.foldl_cons, List.foldl_nil, List.length_set, ih]

/-- A loop that replaces the coefficients below `n` one after the other, each by a function of itself. -/
theorem coeffAt_foldl_set (f : Nat → Coeff → Coeff) {n : Nat} {a : Poly} (hn : n ≤ a.length) (j : Nat) :
    coeffAt ((List.range n).foldl (fun a j => a.set j (f j (coeffAt a j))) a) j =
      if j < n then f j (coeffAt a j) else coeffAt a j := by
  induction n generalizing j with
  | zero => rfl
  | succ n ih =>
    have ih := ih (by omega)
    rw [List.range_succ, List.foldl_append, List.foldl_cons, List.foldl_nil, ih n, if_neg (Nat.lt_irrefl n)]
    by_cases hj : n = j
    · subst hj
      rw [coeffAt_set_same (by rw [foldl_set_length]; omega), if_pos (Nat.lt_succ_self n)]
    · rw [coeffAt_set_other hj, ih j]
      exact if_congr (by omega) rfl rfl

theorem invnttLoopTwist_eq {a : Poly} (ha : IsPoly a) :
    invnttLoopTwist a = List.zipWith (fun c f => montF (mulWord c f)) a psisInv := by
  have hlen := foldl_set_length (fun j c => montF (mulWord c (coeffAt psisInv j))) 256 a
  refine poly_ext (hlen.trans ?_) fun j hj => ?_
  · rw [List.length_zipWith, ha, psisInv_length, Nat.min_self]
  · rw [invnttLoopTwist, hlen, ha] at hj
    rw [coeffAt_zipWith _ (by omega) (by rwa [psisInv_length]), invnttLoopTwist,
      coeffAt_foldl_set (fun j c => montF (mulWord c (coeffAt psisInv j))) (by omega), if_pos hj]

/-- Settles O53: each level of the loop is the level of blocks, and its last loop meets each coefficient once. -/
theorem invnttFollowsThePseudocode : Obligations.InvnttFollowsThePseudocode := by
  intro a ha
  obtain ⟨heq, hlen⟩ := foldl_invnttLoopLevel (Nat.le_refl 8) ha
  have hloop : invnttLoop a = invnttF a := (congrArg invnttLoopTwist heq).trans (invnttLoopTwist_eq hlen)
  rw [hloop]
  exact ⟨rfl, invnttF_length ha⟩

/-! ### The butterflies modulo q (R148, R163, R165) -/

/-- The residue modulo q that a coefficient stands for. -/
def residue (a : Coeff) : ZMod 7681 := (a.toNat : ZMod 7681)

theorem residue_eq_iff {a : Coeff} {n : Nat} : residue a = (n : ZMod 7681) ↔ a.toNat % 7681 = n % 7681 :=
  ZMod.natCast_eq_natCast_iff' _ _ _

@[simp] theorem residue_barrettF (a : Coeff) : residue (barrettF a) = residue a := residue_eq_iff.2 (barrettF_mod a)

theorem addCoeff_toNat {a b : Coeff} (h : a.toNat + b.toNat < 2 ^ 16) : (addCoeff a b).toNat = a.toNat + b.toNat := by
  rw [addCoeff, BitVec.toNat_ofNat, Nat.mod_eq_of_lt h]

theorem residue_addCoeff {a b : Coeff} (h : a.toNat + b.toNat < 2 ^ 16) : residue (addCoeff a b) = residue a + residue b := by
  rw [residue, addCoeff_toNat h, Nat.cast_add, residue, residue]

/-- A difference that 4q keeps from going below 0 (R163). -/
theorem w16_sub_toNat {a t : Coeff} (ha : a.toNat ≤ 34811) (ht : t.toNat ≤ 30724) :
    (w16 (a.toNat + 4 * q - t.toNat)).toNat = a.toNat + 30724 - t.toNat := by
  rw [w16, q, BitVec.toNat_ofInt]
  omega

theorem cast_add_sub {a t : Nat} (ht : t ≤ a + 30724) :
    ((a + 30724 - t : Nat) : ZMod 7681) = (a : ZMod 7681) - (t : ZMod 7681) := by
  have hq : (30724 : ZMod 7681) = 0 := by decide
  rw [Nat.cast_sub ht, Nat.cast_add, Nat.cast_ofNat, hq, add_zero]

theorem mulWord_toNat (x y : Coeff) : (mulWord x y).toNat = x.toNat * y.toNat := by
  have := Nat.mul_lt_mul'' x.isLt y.isLt
  rw [mulWord, BitVec.toNat_ofNat, Nat.mod_eq_of_lt (by omega)]

/-- mont_f of a product in its domain takes the factor 2^18 off, whose inverse is 225. -/
theorem residue_montF {a : Word} {x y : Nat} (ha : a.toNat = x * y) (hx : x ≤ 7680) (hy : y ≤ 2 ^ 18) :
    residue (montF a) = x * 225 * y := by
  have hdom := Nat.mul_le_mul hx hy
  rw [← ha] at hdom
  have := residue_eq_iff.2 (montF_mod hdom)
  rw [this, ha]
  push_cast
  ring

/-- The bound of R167 on mont_f's output, for a product with a table entry. -/
theorem montF_mul_le {a : Word} {x y : Nat} (ha : a.toNat = x * y) (hx : x ≤ 7680) (hy : y ≤ 2 ^ 18) :
    2 ^ 18 * (montF a).toNat ≤ 7680 * y + 262143 * 7681 := by
  have hdom := Nat.mul_le_mul hx hy
  have hle := Nat.mul_le_mul_right y hx
  rw [← ha] at hdom hle
  rw [montF_mul hdom]
  omega

section NttButterfly

variable {z a b : Coeff} (hz : z.toNat ≤ 7680)

include hz in
theorem ntt_product_le : 2 ^ 18 * (montF (mulWord z b)).toNat ≤ 7680 * b.toNat + 262143 * 7681 :=
  montF_mul_le (mulWord_toNat z b) hz (by omega)

include hz in
/-- While no sum wraps, the forward butterfly computes a + z·b and a − z·b, z without its Montgomery factor. -/
theorem residue_nttButterfly (ha : a.toNat ≤ 34811) (odd : Bool) :
    residue (nttButterfly odd z a b).1 = residue a + residue z * 225 * residue b ∧
    residue (nttButterfly odd z a b).2 = residue a - residue z * 225 * residue b := by
  have hle := ntt_product_le (b := b) hz
  have ht : residue (montF (mulWord z b)) = residue z * 225 * residue b :=
    residue_montF (mulWord_toNat z b) hz (by omega)
  have hsum : residue (addCoeff a (montF (mulWord z b))) = residue a + residue z * 225 * residue b := by
    rw [residue_addCoeff (by omega), ht]
  constructor
  · cases odd <;> simpa [nttButterfly] using hsum
  · rw [nttButterfly, residue_barrettF, residue, w16_sub_toNat ha (by omega), cast_add_sub (by omega), ← ht]
    rfl

end NttButterfly

section InvnttButterfly

variable {w a b : Coeff} (hw : w.toNat ≤ 7680) (hb : b.toNat ≤ 30724)

include hb in
theorem w32_sub_toNat : (w32 (a.toNat + 4 * q - b.toNat)).toNat = a.toNat + 30724 - b.toNat := by
  rw [w32, q, BitVec.toNat_ofInt]
  omega

include hw hb in
theorem w32_mul_toNat :
    (w32 (w.toNat * (w32 (a.toNat + 4 * q - b.toNat)).toNat)).toNat = w.toNat * (a.toNat + 30724 - b.toNat) := by
  have hle : w.toNat * (a.toNat + 30724 - b.toNat) ≤ 7680 * 2 ^ 18 := Nat.mul_le_mul hw (by omega)
  rw [w32_sub_toNat hb, w32, BitVec.toNat_ofInt, ← Nat.cast_mul]
  omega

include hw hb in
/-- While no sum wraps, the inverse butterfly computes a + b and w·(a − b), w without its Montgomery factor. -/
theorem residue_invnttButterfly (hsum : a.toNat + b.toNat < 2 ^ 16) (odd : Bool) :
    residue (invnttButterfly odd w a b).1 = residue a + residue b ∧
    residue (invnttButterfly odd w a b).2 = residue w * 225 * (residue a - residue b) := by
  have hs := residue_addCoeff hsum
  constructor
  · cases odd <;> simpa [invnttButterfly] using hs
  · rw [invnttButterfly, residue_montF (w32_mul_toNat hw hb) hw (by omega), cast_add_sub (by omega)]
    rfl

end InvnttButterfly

/-! ### No step of the transforms wraps (R167) -/

/-- What bounds the coefficients before level `n - 1` of the forward transform, and after its last level for 0. -/
def nttBound : Nat → Nat
  | 8 => 26358
  | 7 => 34811
  | 6 => 11768
  | n => if n % 2 = 1 then 19793 else 10746

/-- What bounds the coefficients before level `n` of the inverse transform. -/
def invnttBound (n : Nat) : Nat := if n % 2 = 1 then 30724 else 15362

/-- 34811 + 4q is the last value that fits 16 bits. -/
theorem nttBound_succ_le {n : Nat} (hn : n ≤ 7) : nttBound (n + 1) ≤ 34811 := by interval_cases n <;> decide

theorem invnttBound_le (n : Nat) : invnttBound n ≤ 30724 := by
  rw [invnttBound]
  split <;> decide

/-- A polynomial whose coefficients are at most `B`. -/
structure BoundedBy (B : Nat) (p : Poly) : Prop where
  length : IsPoly p
  le : ∀ c < 256, (coeffAt p c).toNat ≤ B

section NttButterflyBound

variable {z a b : Coeff} (hz : z.toNat ≤ 7680)

include hz in
/-- The two outputs as numbers, with t the Montgomery product. -/
theorem nttButterfly_toNat {t : Nat} (ht : t = (montF (mulWord z b)).toNat) (ha : a.toNat ≤ 34811) (odd : Bool) :
    (nttButterfly odd z a b).1.toNat = (if odd then a.toNat + t else a.toNat + t - (a.toNat + t) / 2 ^ 13 * 7681) ∧
    (nttButterfly odd z a b).2.toNat = a.toNat + 30724 - t - (a.toNat + 30724 - t) / 2 ^ 13 * 7681 := by
  have hle := ntt_product_le (b := b) hz
  have hsum := addCoeff_toNat (a := a) (b := montF (mulWord z b)) (by omega)
  subst ht
  constructor
  · cases odd with
    | false => rw [nttButterfly, if_neg Bool.false_ne_true, if_neg Bool.false_ne_true, barrettF_toNat, hsum]
    | true => exact hsum
  · rw [nttButterfly, barrettF_toNat, w16_sub_toNat ha (by omega)]

include hz in
/-- The interval analysis of R167, level by level. -/
theorem nttButterfly_le {n : Nat} (hn : n ≤ 7) (ha : a.toNat ≤ nttBound (n + 1)) (hb : b.toNat ≤ nttBound (n + 1)) :
    (nttButterfly (decide (n % 2 = 1)) z a b).1.toNat ≤ nttBound n ∧
    (nttButterfly (decide (n % 2 = 1)) z a b).2.toNat ≤ nttBound n := by
  have hle := ntt_product_le (b := b) hz
  generalize ht : (montF (mulWord z b)).toNat = t at hle
  obtain ⟨hupper, hlower⟩ := nttButterfly_toNat hz ht.symm (ha.trans (nttBound_succ_le hn)) (decide (n % 2 = 1))
  rw [hupper, hlower]
  interval_cases n <;> simp [nttBound] at ha hb ⊢ <;> omega

end NttButterflyBound

theorem invnttButterfly_le {w a b : Coeff} {n : Nat} (hw : w.toNat ≤ 7680) (ha : a.toNat ≤ invnttBound n)
    (hb : b.toNat ≤ invnttBound n) :
    (invnttButterfly (decide (n % 2 = 1)) w a b).1.toNat ≤ invnttBound (n + 1) ∧
    (invnttButterfly (decide (n % 2 = 1)) w a b).2.toNat ≤ invnttBound (n + 1) := by
  have hle := invnttBound_le n
  have hsum := addCoeff_toNat (a := a) (b := b) (by omega)
  have hproduct := montF_mul_le (w32_mul_toNat hw (hb.trans hle) (a := a)) hw (by omega)
  rw [invnttButterfly]
  by_cases hn : n % 2 = 1
  · simp only [invnttBound, hn, decide_true, if_true, if_neg (show ¬(n + 1) % 2 = 1 by omega), barrettF_toNat, hsum] at *
    omega
  · simp only [invnttBound, hn, decide_false, Bool.false_eq_true, if_false, if_pos (show (n + 1) % 2 = 1 by omega), hsum] at *
    omega

/-! ### The twiddles as powers of the root (R160 to R162) -/

/-- 225 takes off the Montgomery factor 2^18 of a table entry. -/
theorem montgomery_factor : (262144 * 225 : ZMod 7681) = 1 := by decide

theorem coeffAt_zetas_le {k : Nat} (hk : k < 256) : (coeffAt zetas k).toNat ≤ 7680 := by
  rw [zetas_toNat k hk]
  omega

theorem residue_zetas {k : Nat} (hk : k < 256) : residue (coeffAt zetas k) * 225 = 62 ^ bitReverse 8 k := by
  rw [residue, zetas_toNat k hk, ZMod.natCast_mod]
  push_cast
  rw [mul_assoc, montgomery_factor, mul_one]

theorem coeffAt_omegasInv_le {m : Nat} (hm : m < 128) : (coeffAt omegasInv m).toNat ≤ 7680 :=
  Nat.le_of_lt_succ (omegasInv_mul_pow m hm).1

theorem residue_omegasInv {m : Nat} (hm : m < 128) :
    residue (coeffAt omegasInv m) * 225 * 3844 ^ bitReverse 7 m = 1 := by
  have h := (ZMod.natCast_eq_natCast_iff' _ _ 7681).2 (omegasInv_mul_pow m hm).2
  push_cast at h
  rw [residue, mul_right_comm, h, montgomery_factor]

theorem coeffAt_psisInv_le {c : Nat} (hc : c < 256) : (coeffAt psisInv c).toNat ≤ 7680 :=
  Nat.le_of_lt_succ (psisInv_mul_pow c hc).1

theorem residue_psisInv {c : Nat} (hc : c < 256) : 256 * (residue (coeffAt psisInv c) * 225 * 62 ^ c) = 1 := by
  have h := (ZMod.natCast_eq_natCast_iff' _ _ 7681).2 (psisInv_mul_pow c hc).2
  push_cast at h
  rw [residue, mul_right_comm, h]
  decide

theorem root_pow_256_eq_neg_one : (62 : ZMod 7681) ^ 256 = -1 := by
  have h := (ZMod.natCast_eq_natCast_iff' (62 ^ 256) 7680 7681).2 root_pow_256
  rw [Nat.cast_pow] at h
  exact h.trans (by decide)

theorem bitReverse_zero (n : Nat) : bitReverse n 0 = 0 := by
  induction n with
  | zero => rfl
  | succ n ih => rw [bitReverse, Nat.zero_mod, Nat.zero_mul, Nat.zero_div, ih]

/-- Reversing `n + k` bits reverses the low `n` ahead of the high `k`. -/
theorem bitReverse_add (n k i : Nat) : bitReverse (n + k) i = bitReverse n i * 2 ^ k + bitReverse k (i / 2 ^ n) := by
  induction n generalizing i with
  | zero => simp [bitReverse]
  | succ n ih =>
    rw [Nat.succ_add, bitReverse, ih, bitReverse, Nat.div_div_eq_div_mul, ← Nat.pow_succ']
    ring

/-- The exponent of the twiddle of block `m` of the 2^n blocks of a level: entry 2^n + m of a table in reversed order. -/
theorem bitReverse_blocks_add {n m : Nat} (hm : m < 2 ^ n) (k : Nat) :
    bitReverse (n + (k + 1)) (2 ^ n + m) = 2 ^ k * (2 * bitReverse n m + 1) := by
  induction n generalizing m with
  | zero =>
    obtain rfl : m = 0 := by simpa using hm
    simp [bitReverse, bitReverse_zero, Nat.add_comm 0]
  | succ n ih =>
    have hhalf : (2 ^ (n + 1) + m) / 2 = 2 ^ n + m / 2 := by rw [Nat.pow_succ]; omega
    have hbit : (2 ^ (n + 1) + m) % 2 = m % 2 := by rw [Nat.pow_succ]; omega
    rw [Nat.succ_add, bitReverse, hhalf, hbit, ih (by rw [Nat.pow_succ] at hm; omega), bitReverse]
    ring

/-- The twiddle of block `m` at level `n`. -/
def twiddle (n m : Nat) : ZMod 7681 := 62 ^ (2 ^ n * (2 * bitReverse (7 - n) m + 1))

/-- The root of X^256 + 1 at which output `i` of the forward transform evaluates (R167). -/
def evalRoot (i : Nat) : ZMod 7681 := 62 ^ (2 * bitReverse 8 i + 1)

theorem table_index_lt {n m : Nat} (hm : m < 2 ^ (7 - n)) : 2 ^ (7 - n) + m < 256 := by
  have hle := blocks_of_level_le n
  omega

theorem residue_zetas_eq_twiddle {n m : Nat} (hn : n ≤ 7) (hm : m < 2 ^ (7 - n)) :
    residue (coeffAt zetas (2 ^ (7 - n) + m)) * 225 = twiddle n m := by
  rw [residue_zetas (table_index_lt hm), twiddle, ← bitReverse_blocks_add hm, show 7 - n + (n + 1) = 8 by omega]

theorem block_lt {n m : Nat} (hm : m < 2 ^ (7 - n)) : m < 128 := hm.trans_le (blocks_of_level_le n)

/-- The table of the inverse transform undoes the twiddle of the same block, but for a factor that is the same for all. -/
theorem residue_omegasInv_mul_twiddle {n m : Nat} (hn : n ≤ 7) (hm : m < 2 ^ (7 - n)) :
    residue (coeffAt omegasInv m) * 225 * twiddle n m = 62 ^ 2 ^ n := by
  have hrev : bitReverse 7 m = 2 ^ n * bitReverse (7 - n) m := by
    have := bitReverse_add (7 - n) n m
    rw [show 7 - n + n = 7 by omega, Nat.div_eq_of_lt hm, bitReverse_zero, Nat.add_zero] at this
    rw [this, Nat.mul_comm]
  have hsq : (3844 : ZMod 7681) = 62 ^ 2 := by decide
  have h := residue_omegasInv (block_lt hm)
  rw [hrev, hsq, ← pow_mul] at h
  rw [twiddle, Nat.mul_succ, pow_add, ← mul_assoc, Nat.mul_left_comm, h, one_mul]

/-- The root of output `i`, raised to half the block length, is the twiddle of its block, with a sign that says in which half of
the block `i` lies. -/
theorem evalRoot_pow {n : Nat} (hn : n ≤ 7) (i : Nat) :
    evalRoot i ^ 2 ^ n = (-1) ^ (i / 2 ^ n % 2) * twiddle n (i / 2 ^ n / 2) := by
  have hrev : bitReverse 8 i =
      bitReverse n i * 2 ^ (7 - n + 1) + (i / 2 ^ n % 2 * 2 ^ (7 - n) + bitReverse (7 - n) (i / 2 ^ n / 2)) := by
    have h := bitReverse_add n (7 - n + 1) i
    rwa [bitReverse, show n + (7 - n + 1) = 8 by omega] at h
  have hlen : 2 ^ n * 2 ^ (7 - n) = 128 := by rw [← Nat.pow_add, show n + (7 - n) = 7 by omega]
  have hexp : (2 * bitReverse 8 i + 1) * 2 ^ n =
      256 * (2 * bitReverse n i) + 256 * (i / 2 ^ n % 2) + 2 ^ n * (2 * bitReverse (7 - n) (i / 2 ^ n / 2) + 1) := by
    rw [hrev]
    linear_combination (4 * bitReverse n i + 2 * (i / 2 ^ n % 2)) * hlen
  rw [evalRoot, ← pow_mul, hexp, pow_add, pow_add, pow_mul _ 256, pow_mul _ 256, root_pow_256_eq_neg_one, pow_mul, neg_one_sq, one_pow,
    one_mul, twiddle]

/-! ### The indexes of a level -/

section LevelIndex

variable {n m i : Nat}

theorem level_index_lt (hn : n ≤ 7) (hm : m < 2 ^ (7 - n)) (hi : i < 2 ^ n) : 2 * 2 ^ n * m + i + 2 ^ n < 256 := by
  rw [← blocks_of_level hn]
  exact block_index_lt hm hi

theorem forall_of_level {P : Nat → Prop} (hn : n ≤ 7)
    (h : ∀ m < 2 ^ (7 - n), ∀ i < 2 ^ n, P (2 * 2 ^ n * m + i) ∧ P (2 * 2 ^ n * m + i + 2 ^ n)) : ∀ c < 256, P c := by
  rw [← blocks_of_level hn]
  exact forall_of_blocks h

theorem BoundedBy.pair {B : Nat} {p : Poly} (hp : BoundedBy B p) (hn : n ≤ 7) (hm : m < 2 ^ (7 - n)) (hi : i < 2 ^ n) :
    (coeffAt p (2 * 2 ^ n * m + i)).toNat ≤ B ∧ (coeffAt p (2 * 2 ^ n * m + i + 2 ^ n)).toNat ≤ B :=
  have hlt := level_index_lt hn hm hi
  ⟨hp.le _ (by omega), hp.le _ hlt⟩

/-- The place of a pair in its blocks of 2^n, and of 2^(n+1). -/
theorem level_index_mod (hi : i < 2 ^ n) (m : Nat) :
    (2 * 2 ^ n * m + i) % 2 ^ n = i ∧ (2 * 2 ^ n * m + i + 2 ^ n) % 2 ^ n = i ∧
    (2 * 2 ^ n * m + i) % 2 ^ (n + 1) = i ∧ (2 * 2 ^ n * m + i + 2 ^ n) % 2 ^ (n + 1) = i + 2 ^ n := by
  have hidx : 2 * 2 ^ n * m + i = 2 ^ n * (2 * m) + i := by ring
  have hsmall : (2 * 2 ^ n * m + i) % 2 ^ n = i := by rw [hidx, Nat.mul_add_mod, Nat.mod_eq_of_lt hi]
  refine ⟨hsmall, by rw [Nat.add_mod_right, hsmall], ?_, ?_⟩
  · rw [Nat.pow_succ', Nat.mul_add_mod, Nat.mod_eq_of_lt (by omega)]
  · rw [Nat.pow_succ', Nat.add_assoc, Nat.mul_add_mod, Nat.mod_eq_of_lt (by omega)]

end LevelIndex

/-! ### The forward transform evaluates (R167 law 1) -/

section ForwardLevel

variable {n : Nat} (hn : n ≤ 7) {p : Poly} (hp : BoundedBy (nttBound (n + 1)) p)

include hn hp

theorem boundedBy_nttLevel : BoundedBy (nttBound n) (nttLevel p n) := by
  refine ⟨nttLevel_length hp.length hn, forall_of_level hn fun m hm i hi => ?_⟩
  obtain ⟨ha, hb⟩ := hp.pair hn hm hi
  obtain ⟨hupper, hlower⟩ := Prod.mk.inj ((isLevel_nttLevel hp.length hn).pair m hm i hi)
  rw [hupper, hlower]
  exact nttButterfly_le (coeffAt_zetas_le (table_index_lt hm)) hn ha hb

theorem residue_nttLevel {m i : Nat} (hm : m < 2 ^ (7 - n)) (hi : i < 2 ^ n) :
    residue (coeffAt (nttLevel p n) (2 * 2 ^ n * m + i)) =
      residue (coeffAt p (2 * 2 ^ n * m + i)) + twiddle n m * residue (coeffAt p (2 * 2 ^ n * m + i + 2 ^ n)) ∧
    residue (coeffAt (nttLevel p n) (2 * 2 ^ n * m + i + 2 ^ n)) =
      residue (coeffAt p (2 * 2 ^ n * m + i)) - twiddle n m * residue (coeffAt p (2 * 2 ^ n * m + i + 2 ^ n)) := by
  obtain ⟨ha, -⟩ := hp.pair hn hm hi
  obtain ⟨hupper, hlower⟩ := Prod.mk.inj ((isLevel_nttLevel hp.length hn).pair m hm i hi)
  rw [hupper, hlower, ← residue_zetas_eq_twiddle hn hm]
  exact residue_nttButterfly (coeffAt_zetas_le (table_index_lt hm)) (ha.trans (nttBound_succ_le hn)) _

end ForwardLevel

theorem boundedBy_nttLevels {n : Nat} (hn : n ≤ 8) {p : Poly} (hp : BoundedBy (nttBound n) p) :
    BoundedBy (nttBound 0) (nttLevels n p) := by
  induction n generalizing p with
  | zero => exact hp
  | succ n ih =>
    rw [nttLevels_succ]
    exact ih (by omega) (boundedBy_nttLevel (Nat.le_of_succ_le_succ hn) hp)

/-- The levels below `n` evaluate each block of 2^n coefficients at the roots of its outputs. -/
theorem residue_nttLevels {n : Nat} (hn : n ≤ 8) {p : Poly} (hp : BoundedBy (nttBound n) p) {i : Nat} (hi : i < 256) :
    residue (coeffAt (nttLevels n p) i) =
      ∑ j ∈ Finset.range (2 ^ n), residue (coeffAt p (2 ^ n * (i / 2 ^ n) + j)) * evalRoot i ^ j := by
  induction n generalizing p with
  | zero => simp
  | succ n ih =>
    have hn' : n ≤ 7 := Nat.le_of_succ_le_succ hn
    have hm : i / 2 ^ n / 2 < 2 ^ (7 - n) := by
      rw [Nat.div_div_eq_div_mul, Nat.mul_comm]
      exact Nat.div_lt_of_lt_mul (by rwa [Nat.mul_comm, blocks_of_level hn'])
    have hroot := evalRoot_pow hn' i
    have hdiv : i / 2 ^ (n + 1) = i / 2 ^ n / 2 := by rw [Nat.div_div_eq_div_mul, Nat.pow_succ]
    rw [nttLevels_succ, ih (by omega) (boundedBy_nttLevel hn' hp), hdiv, Nat.pow_succ', Nat.two_mul, Finset.sum_range_add,
      ← Finset.sum_add_distrib, ← Nat.two_mul]
    refine Finset.sum_congr rfl fun j hj => ?_
    obtain ⟨hupper, hlower⟩ := residue_nttLevel hn' hp hm (Finset.mem_range.1 hj)
    have hpartner : 2 * 2 ^ n * (i / 2 ^ n / 2) + (2 ^ n + j) = 2 * 2 ^ n * (i / 2 ^ n / 2) + j + 2 ^ n := by ring
    have hhalf := Nat.div_add_mod (i / 2 ^ n) 2
    rw [pow_add, hroot, hpartner]
    rcases Nat.mod_two_eq_zero_or_one (i / 2 ^ n) with hbit | hbit
    · have hidx : 2 ^ n * (i / 2 ^ n) + j = 2 * 2 ^ n * (i / 2 ^ n / 2) + j := by
        linear_combination 2 ^ n * (hbit - hhalf)
      rw [hidx, hupper, hbit]
      ring
    · have hidx : 2 ^ n * (i / 2 ^ n) + j = 2 * 2 ^ n * (i / 2 ^ n / 2) + j + 2 ^ n := by
        linear_combination 2 ^ n * (hbit - hhalf)
      rw [hidx, hlower, hbit]
      ring

theorem evalPoly_eq_sum (x : Nat) (p : Poly) :
    (evalPoly x p : ZMod 7681) = ∑ j ∈ Finset.range p.length, residue (coeffAt p j) * (x : ZMod 7681) ^ j := by
  induction p with
  | nil => rfl
  | cons c p ih =>
    have hhead : residue (coeffAt (c :: p) 0) = (c.toNat : ZMod 7681) := rfl
    have htail : ∀ j, coeffAt (c :: p) (j + 1) = coeffAt p j := fun _ => rfl
    rw [evalPoly, List.length_cons, Finset.sum_range_succ', Nat.cast_add, Nat.cast_mul, ih, Finset.mul_sum, hhead, pow_zero,
      mul_one, add_comm]
    congr 1
    refine Finset.sum_congr rfl fun j _ => ?_
    rw [htail]
    ring

/-- Settles O54: at the end of the levels a block is one coefficient, and it is the value of the whole polynomial. -/
theorem nttEvaluatesThePolynomial : Obligations.NttEvaluatesThePolynomial := by
  intro p hlen hp i hi
  have hbound : BoundedBy (nttBound 8) p := ⟨hlen, hp⟩
  have hvalue := residue_nttLevels (Nat.le_refl 8) hbound hi
  refine ⟨(boundedBy_nttLevels (Nat.le_refl 8) hbound).le i hi, residue_eq_iff.1 ?_⟩
  rw [evalPoly_eq_sum, hlen]
  change residue (coeffAt (nttF p) i) = _
  rw [nttF_eq]
  simpa only [evalRoot, Nat.reducePow, Nat.div_eq_of_lt hi, Nat.mul_zero, Nat.zero_add, Nat.cast_pow, Nat.cast_ofNat]
    using hvalue

/-! ### The inverse transform undoes the forward one (R167 law 3) -/

section InverseLevel

variable {n : Nat} (hn : n ≤ 7) {a : Poly} (ha : BoundedBy (invnttBound n) a)

include hn ha

theorem boundedBy_invnttLevel : BoundedBy (invnttBound (n + 1)) (invnttLevel a n) := by
  refine ⟨invnttLevel_length ha.length hn, forall_of_level hn fun m hm i hi => ?_⟩
  obtain ⟨hx, hy⟩ := ha.pair hn hm hi
  obtain ⟨hupper, hlower⟩ := Prod.mk.inj ((isLevel_invnttLevel ha.length hn).pair m hm i hi)
  rw [hupper, hlower]
  exact invnttButterfly_le (coeffAt_omegasInv_le (block_lt hm)) hx hy

theorem residue_invnttLevel {m i : Nat} (hm : m < 2 ^ (7 - n)) (hi : i < 2 ^ n) :
    residue (coeffAt (invnttLevel a n) (2 * 2 ^ n * m + i)) =
      residue (coeffAt a (2 * 2 ^ n * m + i)) + residue (coeffAt a (2 * 2 ^ n * m + i + 2 ^ n)) ∧
    residue (coeffAt (invnttLevel a n) (2 * 2 ^ n * m + i + 2 ^ n)) = residue (coeffAt omegasInv m) * 225 *
      (residue (coeffAt a (2 * 2 ^ n * m + i)) - residue (coeffAt a (2 * 2 ^ n * m + i + 2 ^ n))) := by
  obtain ⟨hx, hy⟩ := ha.pair hn hm hi
  obtain ⟨hupper, hlower⟩ := Prod.mk.inj ((isLevel_invnttLevel ha.length hn).pair m hm i hi)
  have hle := invnttBound_le n
  rw [hupper, hlower]
  exact residue_invnttButterfly (coeffAt_omegasInv_le (block_lt hm)) (by omega) (by omega) _

end InverseLevel

/-- The levels below `n` of both transforms together multiply each coefficient by 2^n and by a power of the root that depends on
its place in its block of 2^n alone. -/
theorem residue_invnttLevels_nttLevels {n : Nat} (hn : n ≤ 8) {p : Poly} (hp : BoundedBy (nttBound n) p) :
    BoundedBy (invnttBound n) (invnttLevels n (nttLevels n p)) ∧ ∀ c < 256,
      residue (coeffAt (invnttLevels n (nttLevels n p)) c) = 2 ^ n * 62 ^ (c % 2 ^ n) * residue (coeffAt p c) := by
  induction n generalizing p with
  | zero =>
    refine ⟨⟨hp.length, fun c hc => (hp.le c hc).trans (by decide)⟩, fun c _ => ?_⟩
    simp [Nat.mod_one]
  | succ n ih =>
    have hn' : n ≤ 7 := Nat.le_of_succ_le_succ hn
    obtain ⟨hbound, hres⟩ := ih (by omega) (boundedBy_nttLevel hn' hp)
    rw [invnttLevels_succ, nttLevels_succ]
    refine ⟨boundedBy_invnttLevel hn' hbound, forall_of_level hn' fun m hm i hi => ?_⟩
    have hlt := level_index_lt hn' hm hi
    have htwiddle := residue_omegasInv_mul_twiddle hn' hm
    obtain ⟨hup, hlow⟩ := residue_nttLevel hn' hp hm hi
    obtain ⟨hupper, hlower⟩ := residue_invnttLevel hn' hbound hm hi
    obtain ⟨hmod, hmod', hmod2, hmod2'⟩ := level_index_mod hi m
    rw [hupper, hlower, hres _ (by omega), hres _ hlt, hup, hlow, hmod, hmod', hmod2, hmod2', pow_add (62 : ZMod 7681),
      ← htwiddle]
    constructor <;> ring

theorem residue_invnttF_nttF {p : Poly} (hp : BoundedBy (nttBound 8) p) {c : Nat} (hc : c < 256) :
    residue (coeffAt (invnttF (nttF p)) c) = residue (coeffAt p c) := by
  obtain ⟨hbound, hres⟩ := residue_invnttLevels_nttLevels (Nat.le_refl 8) hp
  have hlevels : residue (coeffAt (invnttLevels 8 (nttLevels 8 p)) c) = 256 * 62 ^ c * residue (coeffAt p c) := by
    rw [hres c hc, Nat.mod_eq_of_lt (show c < 2 ^ 8 from hc)]
    norm_num
  have hproduct := mulWord_toNat (coeffAt (invnttLevels 8 (nttLevels 8 p)) c) (coeffAt psisInv c)
  rw [nttF_eq, invnttF_eq, coeffAt_zipWith _ (hc.trans_eq hbound.length.symm) (hc.trans_eq psisInv_length.symm),
    residue_montF (hproduct.trans (Nat.mul_comm _ _)) (coeffAt_psisInv_le hc) (by omega)]
  change residue _ * 225 * residue _ = _
  rw [hlevels]
  linear_combination residue (coeffAt p c) * residue_psisInv hc

/-- Settles O55: the last pass of the inverse transform takes off what the levels of the two transforms leave. -/
theorem transformRoundTrip : Obligations.TransformRoundTrip := by
  intro p hlen hp
  have hlen' := invnttF_length (nttF_length hlen)
  refine ⟨hlen', fun c hc => ?_⟩
  have hfreeze : coeffNat ((invnttF (nttF p)).map freezeF) c = (coeffAt (invnttF (nttF p)) c).toNat % 7681 := by
    rw [← freezeF_toNat, ← coeffAt_map freezeF (hc.trans_eq hlen'.symm)]
    rfl
  rw [hfreeze]
  exact residue_eq_iff.1 (residue_invnttF_nttF ⟨hlen, hp⟩ hc)

end Sys2Proof.Machine

namespace Sys2Proof.Machine

open Sys2Proof

/-! ### Commands that complete (R52) -/

section Completion

variable {i : Instr} {s : State} {x : Except Stop Writes}

/-- Once the checks of a command pass, it commits the answer of its reads. -/
theorem exec_eq_commit (hc : exec i s = s.commit (s.check i >>= fun _ => x)) (hok : s.OperandsOk i) (hh : s.KeyHashOk i) :
    exec i s = s.commit x := by
  rw [hc, hok.check_eq, (s.checkKeyHash_eq_ok i).2 hh, ok_bind]

/-- A read of defined storage goes on with what stands there. -/
theorem orFault_bind_of_some {α β : Type} {f : Fault} {o : Option α} {a : α} (h : o = some a) (g : α → Except Stop β) :
    (orFault f o >>= g) = g a := by
  rw [h, orFault_some, ok_bind]

/-- A command whose computation answers consecutive registers writes those alone. -/
theorem exec_commitsRegs {r : Nat} {ps : List Poly} (hc : exec i s = s.commit (s.check i >>= fun _ => x))
    (hok : s.OperandsOk i) (hx : x = .ok { preg := [(r, ps)] }) (hp : ∀ p ∈ ps, IsPoly p) (hh : s.KeyHashOk i := by nofun) :
    ∃ t, exec i s = .next t ∧ s.CommitsRegs t r ps :=
  ⟨_, by rw [exec_eq_commit hc hok hh, hx, State.commit_ok], s.commitsRegs_of_writes r hp⟩

theorem exec_commitsReg {r : Nat} {p : Poly} (hc : exec i s = s.commit (s.check i >>= fun _ => x))
    (hok : s.OperandsOk i) (hx : x = .ok { preg := [(r, [p])] }) (hp : IsPoly p) (hh : s.KeyHashOk i := by nofun) :
    ∃ t, exec i s = .next t ∧ s.CommitsRegs t r [p] :=
  exec_commitsRegs hc hok hx (List.forall_mem_singleton.2 hp) hh

/-- A command whose computation answers one byte string stores that alone. -/
theorem exec_commitsBytes {o : Nat} {bs : Bytes} (hc : exec i s = s.commit (s.check i >>= fun _ => x))
    (hok : s.OperandsOk i) (hx : x = .ok { buf := [(o, bs)] }) (hh : s.KeyHashOk i := by nofun) :
    ∃ t, exec i s = .next t ∧ s.CommitsBytes t [(o, bs)] :=
  ⟨_, by rw [exec_eq_commit hc hok hh, hx, State.commit_ok], s.commitsBytes_of_writes o bs⟩

end Completion

/-! ### Addition and subtraction (R180 to R183) -/

/-- The Barrett reduction of a coefficient whose number is known. -/
theorem barrettF_of_toNat {x : Coeff} {n : Nat} (h : x.toNat = n) :
    (barrettF x).toNat = n - n / 2 ^ 13 * 7681 ∧ (barrettF x).toNat ≤ 11768 ∧ (barrettF x).toNat % 7681 = n % 7681 :=
  h ▸ ⟨barrettF_toNat x, barrettF_le x, barrettF_mod x⟩

theorem addCoeff_toNat_mod (x y : Coeff) : (addCoeff x y).toNat = (x.toNat + y.toNat) % 2 ^ 16 := BitVec.toNat_ofNat _ _

/-- The difference a + 3q − b as a 16-bit number: 2^16 more keeps it from going below 0 (R182). -/
theorem w16_add_3q_sub_toNat (x y : Coeff) :
    (w16 (x.toNat + 3 * q - y.toNat)).toNat = (x.toNat + 23043 + 2 ^ 16 - y.toNat) % 2 ^ 16 := by
  have := y.isLt
  rw [w16, q, BitVec.toNat_ofInt]
  omega

section AddSub

variable {a b : Poly} {c : Nat} (ha : IsPoly a) (hb : IsPoly b) (hc : c < 256)

include ha hb hc

theorem coeffNat_paddF : coeffNat (paddF a b) c = (barrettF (addCoeff (coeffAt a c) (coeffAt b c))).toNat :=
  congrArg BitVec.toNat (coeffAt_zipWith _ (hc.trans_eq ha.symm) (hc.trans_eq hb.symm))

theorem coeffNat_psubF :
    coeffNat (psubF a b) c = (barrettF (w16 ((coeffAt a c).toNat + 3 * q - (coeffAt b c).toNat))).toNat :=
  congrArg BitVec.toNat
    (coeffAt_zipWith (fun x y => barrettF (w16 (x.toNat + 3 * q - y.toNat))) (hc.trans_eq ha.symm) (hc.trans_eq hb.symm))

end AddSub

/-- Settles O34: the checks of the two commands pass in every state, and a number below 2^16 loses nothing to the wrap. -/
theorem additionAndSubtractionComplete : Obligations.AdditionAndSubtractionComplete := by
  intro s rd rs1 rs2 a b hpa hpb
  have ha := Memory.poly_length hpa
  have hb := Memory.poly_length hpb
  constructor
  · obtain ⟨t, ht, hwrites⟩ := exec_commitsReg (i := .padd rd rs1 rs2) rfl ⟨nofun, trivial, trivial, trivial, trivial⟩
      ((orFault_bind_of_some hpa _).trans (orFault_bind_of_some hpb _)) (paddF_length ha hb)
    refine ⟨t, _, ht, hwrites, paddF_length ha hb, fun c hc => ?_⟩
    have hsum : (addCoeff (coeffAt a c) (coeffAt b c)).toNat = (coeffNat a c + coeffNat b c) % 2 ^ 16 :=
      addCoeff_toNat_mod _ _
    obtain ⟨heq, hle, hmod⟩ := barrettF_of_toNat hsum
    rw [← coeffNat_paddF ha hb hc] at heq hle hmod
    refine ⟨heq, hle, fun hlt => ?_⟩
    rwa [Nat.mod_eq_of_lt hlt] at hmod
  · obtain ⟨t, ht, hwrites⟩ := exec_commitsReg (i := .psub rd rs1 rs2) rfl ⟨nofun, trivial, trivial, trivial, trivial⟩
      ((orFault_bind_of_some hpa _).trans (orFault_bind_of_some hpb _)) (psubF_length ha hb)
    refine ⟨t, _, ht, hwrites, psubF_length ha hb, fun c hc => ?_⟩
    have hdiff : (w16 ((coeffAt a c).toNat + 3 * q - (coeffAt b c).toNat)).toNat =
        (coeffNat a c + 23043 + 2 ^ 16 - coeffNat b c) % 2 ^ 16 := w16_add_3q_sub_toNat _ _
    obtain ⟨heq, hle, hmod⟩ := barrettF_of_toNat hdiff
    rw [← coeffNat_psubF ha hb hc] at heq hle hmod
    refine ⟨heq, hle, fun hba hlt => ?_⟩
    omega

/-! ### Packing and unpacking one register (R185 to R201) -/

/-- Settles O35: in range the checks pass, and each command stores the function of the register it read. -/
theorem packCommandsComplete : Obligations.PackCommandsComplete := by
  intro s rp boff p hp
  have hlen := Memory.poly_length hp
  exact ⟨fun ho => ⟨tobytesF_length hlen,
      exec_commitsBytes rfl ⟨nofun, trivial, ho, trivial, trivial⟩ (orFault_bind_of_some hp _)⟩,
    fun ho => ⟨compressF_length 3 hlen,
      exec_commitsBytes rfl ⟨nofun, trivial, ho, trivial, trivial⟩ (orFault_bind_of_some hp _)⟩,
    fun ho => ⟨compressF_length 11 hlen,
      exec_commitsBytes rfl ⟨nofun, trivial, ho, trivial, trivial⟩ (orFault_bind_of_some hp _)⟩,
    fun ho => ⟨tomsgF_length hlen,
      exec_commitsBytes rfl ⟨nofun, trivial, ho, trivial, trivial⟩ (orFault_bind_of_some hp _)⟩⟩

/-- Settles O36: in range the checks pass, and each command writes the function of the bytes it read. -/
theorem unpackCommandsComplete : Obligations.UnpackCommandsComplete := by
  intro s rp boff bs
  refine ⟨fun ho hl => ?_, fun ho hl => ?_, fun ho hl => ?_, fun ho hl => ?_⟩
  · exact exec_commitsReg rfl ⟨nofun, trivial, ho, trivial, trivial⟩ (orFault_bind_of_some hl _) (frombytesF_length bs)
  · exact exec_commitsReg rfl ⟨nofun, trivial, ho, trivial, trivial⟩ (orFault_bind_of_some hl _) (decompressF_length 3 bs)
  · exact exec_commitsReg rfl ⟨nofun, trivial, ho, trivial, trivial⟩ (orFault_bind_of_some hl _) (decompressF_length 11 bs)
  · have hlen : IsPoly (frommsgF bs) := by rw [IsPoly, frommsgF_length, Memory.load_length hl]
    exact exec_commitsReg rfl ⟨nofun, trivial, ho, trivial, trivial⟩ (orFault_bind_of_some hl _) hlen

theorem argNonce_eq (arg : Word) : argNonce arg = BitVec.ofNat 8 (arg.toNat % 2 ^ 8) :=
  BitVec.eq_of_toNat_eq (by rw [argNonce, BitVec.toNat_ofNat, BitVec.toNat_ofNat, Nat.mod_mod])

/-- Settles O37: under a configured set the checks pass in range, and GETNOISE samples from the output of the sponge. -/
theorem noiseCommandsComplete : Obligations.NoiseCommandsComplete := by
  intro s rp boff bs hset
  rw [← argNonce_eq]
  exact ⟨fun ho hl => exec_commitsReg rfl ⟨fun _ => hset, trivial, ho, trivial, trivial⟩ (orFault_bind_of_some hl _)
      (cbdF_length _ bs),
    fun ho hl => exec_commitsReg rfl ⟨fun _ => hset, trivial, ho, trivial, trivial⟩ (orFault_bind_of_some hl _)
      (getnoiseF_length sponge bs _ _)⟩

/-! ### Bytes packed again (R13, R14) -/

theorem undigits_append (w : Nat) (ds es : List Nat) :
    undigits w (ds ++ es) = undigits w ds + 2 ^ (w * ds.length) * undigits w es := by
  induction ds with
  | nil => simp [undigits]
  | cons d ds ih =>
    rw [List.cons_append, undigits, ih, undigits, List.length_cons, Nat.mul_succ, Nat.pow_add]
    ring

theorem digits_lt (w m v : Nat) : ∀ d ∈ digits w m v, d < 2 ^ w := by
  induction m generalizing v with
  | zero => nofun
  | succ m ih => exact List.forall_mem_cons.2 ⟨Nat.mod_lt _ (Nat.two_pow_pos w), ih _⟩

theorem digits_eq_map (w m v : Nat) : digits w m v = (List.range m).map fun i => v / 2 ^ (w * i) % 2 ^ w := by
  refine List.ext_getElem (by simp) fun i hi hi' => ?_
  have hlt : i < m := by rwa [digits_length] at hi
  rw [List.getElem_map, List.getElem_range, ← digits_getD v hlt, List.getD_eq_getElem _ _ hi]

theorem unpackBits_lt (w m : Nat) (bs : Bytes) : ∀ v ∈ unpackBits w m bs, v < 2 ^ w := digits_lt w m _

theorem map_eq_self {α : Type} {f : α → α} {xs : List α} (h : ∀ x ∈ xs, f x = x) : xs.map f = xs :=
  (List.map_congr_left h).trans (List.map_id xs)

theorem map_ofNat_map_toNat {n : Nat} (xs : List (BitVec n)) : (xs.map BitVec.toNat).map (BitVec.ofNat n) = xs := by
  simp [Function.comp_def]

theorem byte_lt_of_mem_map (bs : Bytes) : ∀ v ∈ bs.map BitVec.toNat, v < 2 ^ 8 :=
  List.forall_mem_map.2 fun b _ => b.isLt

theorem loadLE_lt (bs : Bytes) : loadLE bs < 2 ^ (8 * bs.length) := by
  simpa [loadLE] using undigits_lt (byte_lt_of_mem_map bs)

theorem storeLE_loadLE (bs : Bytes) : storeLE bs.length (loadLE bs) = bs := by
  have hdigits := digits_undigits (byte_lt_of_mem_map bs)
  rw [List.length_map] at hdigits
  rw [storeLE, loadLE, hdigits, map_ofNat_map_toNat]

/-- Values that stand for the integer of a byte string pack to that string. -/
theorem packBits_eq {w : Nat} {vs : List Nat} {bs : Bytes} (hlen : w * vs.length = 8 * bs.length)
    (h : undigits w vs = loadLE bs) : packBits w vs = bs := by
  rw [packBits, hlen, Nat.mul_div_cancel_left _ (by decide), h, storeLE_loadLE]

theorem packBits_unpackBits {w m : Nat} {bs : Bytes} (h : w * m = 8 * bs.length) : packBits w (unpackBits w m bs) = bs := by
  refine packBits_eq (by rwa [unpackBits_length]) ?_
  rw [unpackBits, undigits_digits, h, Nat.mod_eq_of_lt (loadLE_lt bs)]

/-! ### The round trips (R202 laws 3 to 5) -/

theorem coeffs_nats (p : Poly) : coeffs (nats p) = p := map_ofNat_map_toNat p

theorem nats_coeffs {vs : List Nat} (h : ∀ v ∈ vs, v < 2 ^ 16) : nats (coeffs vs) = vs := by
  rw [nats, coeffs, List.map_map]
  exact map_eq_self fun v hv => (BitVec.toNat_ofNat v 16).trans (Nat.mod_eq_of_lt (h v hv))

theorem nats_map_freezeF (p : Poly) : nats (p.map freezeF) = (nats p).map (· % 7681) := by
  rw [nats, nats, List.map_map, List.map_map]
  exact List.map_congr_left fun c _ => freezeF_toNat c

theorem nats_map_freezeF_lt (p : Poly) : ∀ v ∈ nats (p.map freezeF), v < 7681 := by
  rw [nats_map_freezeF]
  exact List.forall_mem_map.2 fun n _ => Nat.mod_lt n (by decide)

theorem frombytesF_tobytesF {p : Poly} (hp : IsPoly p) : frombytesF (tobytesF p) = p.map freezeF := by
  have hlen : (nats (p.map freezeF)).length = 256 := by rw [nats_length, List.length_map, hp]
  have hunpack := unpackBits_packBits (w := 13) (fun v hv => (nats_map_freezeF_lt p v hv).trans (by decide)) (by rw [hlen])
  rw [hlen] at hunpack
  rw [frombytesF, tobytesF, hunpack, coeffs_nats]

/-- FROMBYTES does not reduce: the register holds the 13-bit values as they stand (R184). -/
theorem nats_frombytesF (bs : Bytes) : nats (frombytesF bs) = unpackBits 13 256 bs :=
  nats_coeffs fun v hv => (unpackBits_lt 13 256 bs v hv).trans (by decide)

/-- Packing what was unpacked gives the bytes back exactly when freezing changes no 13-bit value. -/
theorem tobytesF_frombytesF {bs : Bytes} (hlen : bs.length = 416) :
    tobytesF (frombytesF bs) = bs ↔ ∀ v ∈ unpackBits 13 256 bs, v < 7681 := by
  constructor
  · intro h v hv
    have hfrozen : frombytesF bs = (frombytesF bs).map freezeF := by
      rw [← frombytesF_tobytesF (frombytesF_length bs), h]
    rw [← nats_frombytesF, hfrozen] at hv
    exact nats_map_freezeF_lt _ v hv
  · intro h
    rw [tobytesF, nats_map_freezeF, nats_frombytesF, map_eq_self fun v hv => Nat.mod_eq_of_lt (h v hv),
      packBits_unpackBits (by rw [hlen])]

/-- Rounding up to d bits undoes the scaling of d bits: the scaled value is nearest to its own step. -/
theorem cq_dq {d y : Nat} (hd : d = 3 ∨ d = 11) (hy : y < 2 ^ d) : cq d (BitVec.ofNat 16 (dq d y)) = y := by
  have hlt : dq d y < 7681 := by rcases hd with rfl | rfl <;> rw [dq] <;> omega
  have hround : (dq d y * 2 ^ d + 3840) / 7681 = y := by rcases hd with rfl | rfl <;> rw [dq] <;> omega
  rw [cq, freezeF_toNat, BitVec.toNat_ofNat, Nat.mod_eq_of_lt (hlt.trans (by decide)), Nat.mod_eq_of_lt hlt, hround,
    Nat.mod_eq_of_lt hy]

theorem compressF_decompressF {d : Nat} {bs : Bytes} (hd : d = 3 ∨ d = 11) (hlen : bs.length = 32 * d) :
    compressF d (decompressF d bs) = bs := by
  have hvalues : (decompressF d bs).map (cq d) = unpackBits d 256 bs := by
    rw [decompressF, coeffs, List.map_map, List.map_map]
    exact map_eq_self fun y hy => cq_dq hd (unpackBits_lt d 256 bs y hy)
  rw [compressF, hvalues, packBits_unpackBits (by omega)]

/-- The nearest-bit decoder takes MSGONE for 1 and 0 for 0 (R194, R196). -/
theorem msgBit_of_bit {t : Nat} (h : t < 2) : msgBit (w16 (0 - (t : Int)) &&& BitVec.ofNat 16 msgone) = t := by
  interval_cases t <;> decide

/-- The eight message bits of a byte's coefficients are its own (R194, R196). -/
theorem map_msgBit_frommsgByte (m : Byte) : (frommsgByte m).map msgBit = digits 1 8 m.toNat := by
  rw [frommsgByte, digits_eq_map, List.map_map]
  refine List.map_congr_left fun j _ => ?_
  rw [Nat.one_mul]
  exact msgBit_of_bit (Nat.mod_lt _ Nat.two_pos)

/-- The message bits are the binary digits of the message's integer. -/
theorem undigits_msgBits (m : Bytes) : undigits 1 ((frommsgF m).map msgBit) = loadLE m := by
  induction m with
  | nil => rfl
  | cons b m ih =>
    have hcons : frommsgF (b :: m) = frommsgByte b ++ frommsgF m := List.flatMap_cons
    rw [hcons, List.map_append, undigits_append, map_msgBit_frommsgByte, undigits_digits, digits_length, ih,
      Nat.mod_eq_of_lt b.isLt]
    rfl

theorem tomsgF_frommsgF (m : Bytes) : tomsgF (frommsgF m) = m :=
  packBits_eq (by rw [List.length_map, frommsgF_length, Nat.one_mul]) (undigits_msgBits m)

/-- Settles O46: a byte string and the values unpacked from it are digits of one integer, so only the map between the values
matters. -/
theorem serialisationRoundTrips : Obligations.SerialisationRoundTrips :=
  ⟨fun _ => frombytesF_tobytesF, fun _ => tobytesF_frombytesF, fun _ => compressF_decompressF (.inl rfl),
    fun _ => compressF_decompressF (.inr rfl), fun m _ => tomsgF_frommsgF m⟩

end Sys2Proof.Machine

namespace Sys2Proof.Machine

open Sys2Proof

/-! ### Vector commands that complete (R220 to R229) -/

/-- Settles O38: in range the checks pass, and both sources are read before anything is written, overlapping or not (R55). -/
theorem vectorArithmeticCompletes : Obligations.VectorArithmeticCompletes := by
  intro s rd rs1 rs2 u v hset hrs1 hu
  have hvec := isVec_of_polys hu
  refine ⟨fun hrs2 hv => ?_, fun hrd => ⟨?_, ?_, fun hrs2 hv => ?_⟩⟩
  · exact exec_commitsReg rfl ⟨fun _ => hset, ⟨hrs1, hrs2⟩, trivial, trivial, trivial⟩
      ((orFault_bind_of_some hu _).trans (orFault_bind_of_some hv _))
      (paccF_length (ParamSet.k_pos hset) hvec (isVec_of_polys hv))
  · exact exec_commitsRegs rfl ⟨fun _ => hset, ⟨hrd, hrs1⟩, trivial, trivial, trivial⟩ (orFault_bind_of_some hu _)
      (vnttF_isVec hvec).2
  · exact exec_commitsRegs rfl ⟨fun _ => hset, ⟨hrd, hrs1⟩, trivial, trivial, trivial⟩ (orFault_bind_of_some hu _)
      (vinvnttF_isVec hvec).2
  · exact exec_commitsRegs rfl ⟨fun _ => hset, ⟨hrd, hrs1, hrs2⟩, trivial, trivial, trivial⟩
      ((orFault_bind_of_some hu _).trans (orFault_bind_of_some hv _)) (vaddF_isVec hvec (isVec_of_polys hv)).2

/-- Piece `i` of a byte string starts at byte `n * i`. -/
theorem pieces_eq (n k : Nat) (bs : Bytes) : pieces n k bs = (List.range k).map fun i => (bs.drop (n * i)).take n := by
  induction k generalizing bs with
  | zero => rfl
  | succ k ih =>
    rw [pieces, ih, List.range_succ_eq_map, List.map_cons, List.map_map, Nat.mul_zero, List.drop_zero]
    refine congrArg _ (List.map_congr_left fun i _ => ?_)
    rw [List.drop_drop, Function.comp, Nat.mul_succ, Nat.add_comm]

theorem vfrombytesF_eq (k : Nat) (bs : Bytes) :
    vfrombytesF k bs = (List.range k).map fun i => frombytesF ((bs.drop (416 * i)).take 416) := by
  rw [vfrombytesF, pieces_eq, List.map_map]
  rfl

theorem vdecompressF_eq (k : Nat) (bs : Bytes) :
    vdecompressF k bs = (List.range k).map fun i => decompressF 11 ((bs.drop (352 * i)).take 352) := by
  rw [vdecompressF, pieces_eq, List.map_map]
  rfl

/-- Settles O39: in range the checks pass, and the pieces that are unpacked are those of the claim. -/
theorem vectorSerialisationCompletes : Obligations.VectorSerialisationCompletes := by
  intro s rp boff hset hrp
  refine ⟨fun u hu => ⟨fun ho => ?_, fun ho => ?_⟩, fun bs ho hl => ?_, fun bs ho hl => ?_⟩
  · exact exec_commitsBytes rfl ⟨fun _ => hset, hrp, ho, trivial, trivial⟩ (orFault_bind_of_some hu _)
  · exact exec_commitsBytes rfl ⟨fun _ => hset, hrp, ho, trivial, trivial⟩ (orFault_bind_of_some hu _)
  · rw [← vfrombytesF_eq]
    exact exec_commitsRegs rfl ⟨fun _ => hset, hrp, ho, trivial, trivial⟩ (orFault_bind_of_some hl _)
      (vfrombytesF_isVec _ bs).2
  · rw [← vdecompressF_eq]
    exact exec_commitsRegs rfl ⟨fun _ => hset, hrp, ho, trivial, trivial⟩ (orFault_bind_of_some hl _)
      (vdecompressF_isVec _ bs).2

/-! ### The inner product (R221, R230) -/

section Product

variable (a b : Coeff)

/-- The first product of R221, 4613 times an element, is in the domain of R148 for every 16-bit element. -/
theorem mulWord_mont2_le : (mulWord (BitVec.ofNat 16 mont2) b).toNat ≤ 2013265920 := by
  have := b.isLt
  rw [mulWord_toNat, mont2, BitVec.toNat_ofNat]
  omega

/-- The second product of R221 is in that domain too, since its factor t is at most 15360. -/
theorem mulWord_montF_le : (mulWord a (montF (mulWord (BitVec.ofNat 16 mont2) b))).toNat ≤ 2013265920 := by
  rw [mulWord_toNat]
  exact (Nat.mul_le_mul a.isLt.le (montF_le (mulWord_mont2_le b))).trans (by decide)

theorem mulCoeff_le : (mulCoeff a b).toNat ≤ 15360 := montF_le (mulWord_montF_le a b)

/-- 4613 is the square of 2^18 modulo q: it cancels the factor 225 that each mont_f brings in. -/
theorem residue_mulCoeff : residue (mulCoeff a b) = residue a * residue b := by
  have hinner := residue_eq_iff.2 (montF_mod (mulWord_mont2_le b))
  have houter := residue_eq_iff.2 (montF_mod (mulWord_montF_le a b))
  have hcancel : (4613 * 225 * 225 : ZMod 7681) = 1 := by decide
  rw [mulWord_toNat, Nat.cast_mul, Nat.cast_mul] at hinner houter
  calc residue (mulCoeff a b)
      = residue a * residue (montF (mulWord (BitVec.ofNat 16 mont2) b)) * 225 := houter
    _ = residue a * (4613 * residue b * 225) * 225 := by rw [hinner]; rfl
    _ = residue a * residue b * (4613 * 225 * 225) := by ring
    _ = residue a * residue b := by rw [hcancel, mul_one]

theorem mulCoeff_mod : (mulCoeff a b).toNat % 7681 = a.toNat * b.toNat % 7681 :=
  residue_eq_iff.1 ((residue_mulCoeff a b).trans (Nat.cast_mul _ _).symm)

end Product

theorem IsVec.getD {k i : Nat} {u : List Poly} (h : IsVec k u) (hi : i < k) : IsPoly (u.getD i []) := by
  rw [List.getD_eq_getElem _ _ (hi.trans_eq h.1.symm)]
  exact h.2 _ (List.getElem_mem _)

theorem coeffNat_mulPoly {a b : Poly} (ha : IsPoly a) (hb : IsPoly b) {c : Nat} (hc : c < 256) :
    coeffNat (mulPoly a b) c = (mulCoeff (coeffAt a c) (coeffAt b c)).toNat :=
  congrArg BitVec.toNat (coeffAt_zipWith mulCoeff (hc.trans_eq ha.symm) (hc.trans_eq hb.symm))

/-- The accumulation of R221 is the exact sum as long as that fits in 16 bits. -/
theorem coeffNat_foldl_addCoeff {c : Nat} (hc : c < 256) {ps : List Poly} (hps : ∀ p ∈ ps, IsPoly p) {p : Poly}
    (hp : IsPoly p) (hfit : coeffNat p c + (ps.map (coeffNat · c)).sum < 2 ^ 16) :
    coeffNat (ps.foldl (List.zipWith addCoeff) p) c = coeffNat p c + (ps.map (coeffNat · c)).sum := by
  induction ps generalizing p with
  | nil => rfl
  | cons r ps ih =>
    obtain ⟨hr, hps⟩ := List.forall_mem_cons.1 hps
    rw [List.map_cons, List.sum_cons, ← Nat.add_assoc] at hfit ⊢
    have hadd : coeffNat (List.zipWith addCoeff p r) c = coeffNat p c + coeffNat r c :=
      (congrArg BitVec.toNat (coeffAt_zipWith addCoeff (hc.trans_eq hp.symm) (hc.trans_eq hr.symm))).trans
        (addCoeff_toNat (lt_of_le_of_lt (Nat.le_add_right _ _) hfit))
    have hlen : IsPoly (List.zipWith addCoeff p r) := by rw [IsPoly, List.length_zipWith, hp, hr, Nat.min_self]
    rw [← hadd] at hfit ⊢
    exact ih hps hlen hfit

section InnerProduct

variable {k : Nat} {a b : List Poly} (ha : IsVec k a) (hb : IsVec k b)

include ha hb

theorem zipWith_mulPoly_eq :
    List.zipWith mulPoly a b = (List.range k).map fun i => mulPoly (a.getD i []) (b.getD i []) := by
  refine List.ext_getElem (by rw [List.length_zipWith, List.length_map, List.length_range, ha.1, hb.1, Nat.min_self])
    fun i hi _ => ?_
  obtain ⟨hia, hib⟩ := Nat.lt_min.1 (hi.trans_eq List.length_zipWith)
  rw [List.getElem_zipWith, List.getElem_map, List.getElem_range, List.getD_eq_getElem _ _ hia, List.getD_eq_getElem _ _ hib]

/-- The products of R221 at one coefficient, element 0 first. -/
theorem map_coeffNat_zipWith_mulPoly {c : Nat} (hc : c < 256) :
    (List.zipWith mulPoly a b).map (coeffNat · c) =
      (List.range k).map fun i => (mulCoeff (coeffAt (a.getD i []) c) (coeffAt (b.getD i []) c)).toNat := by
  rw [zipWith_mulPoly_eq ha hb, List.map_map]
  exact List.map_congr_left fun i hi =>
    coeffNat_mulPoly (ha.getD (List.mem_range.1 hi)) (hb.getD (List.mem_range.1 hi)) hc

theorem isPoly_of_mem_zipWith_mulPoly {p : Poly} (hp : p ∈ List.zipWith mulPoly a b) : IsPoly p := by
  rw [zipWith_mulPoly_eq ha hb] at hp
  obtain ⟨i, hi, rfl⟩ := List.mem_map.1 hp
  exact mulPoly_length (ha.getD (List.mem_range.1 hi)) (hb.getD (List.mem_range.1 hi))

theorem coeffNat_paccSum (hk : 0 < k) {c : Nat} (hc : c < 256)
    (hfit : ((List.zipWith mulPoly a b).map (coeffNat · c)).sum < 2 ^ 16) :
    coeffNat (paccSum a b) c = ((List.zipWith mulPoly a b).map (coeffNat · c)).sum := by
  have hpoly := fun p => isPoly_of_mem_zipWith_mulPoly ha hb (p := p)
  match a, b with
  | [], _ => exact absurd ha.1 hk.ne
  | _ :: _, [] => exact absurd hb.1 hk.ne
  | x :: as, y :: bs =>
    obtain ⟨hhead, htail⟩ := List.forall_mem_cons.1 hpoly
    exact coeffNat_foldl_addCoeff hc htail hhead hfit

theorem coeffNat_paccF (hk : 0 < k) {c : Nat} (hc : c < 256) :
    coeffNat (paccF a b) c = (barrettF (coeffAt (paccSum a b) c)).toNat :=
  congrArg BitVec.toNat
    (coeffAt_map barrettF (hc.trans_eq ((paccF_length hk ha hb).symm.trans (List.length_map _))))

/-- Each product is at most 15360, so four of them fit in 16 bits (R221). -/
theorem sum_products_le {c : Nat} (hc : c < 256) (hk : k ≤ 4) :
    ((List.zipWith mulPoly a b).map (coeffNat · c)).sum ≤ 61440 := by
  rw [map_coeffNat_zipWith_mulPoly ha hb hc]
  refine (List.sum_le_card_nsmul _ 15360 fun n hn => ?_).trans ?_
  · obtain ⟨i, -, rfl⟩ := List.mem_map.1 hn
    exact mulCoeff_le _ _
  · rw [List.length_map, List.length_range, smul_eq_mul]
    omega

theorem sum_products_mod {c : Nat} (hc : c < 256) :
    ((List.zipWith mulPoly a b).map (coeffNat · c)).sum % 7681 =
      ((List.range k).map fun i => coeffNat (a.getD i []) c * coeffNat (b.getD i []) c).sum % 7681 := by
  rw [map_coeffNat_zipWith_mulPoly ha hb hc]
  refine (List.sum_nat_mod _ _).trans (Eq.trans ?_ (List.sum_nat_mod _ _).symm)
  rw [List.map_map, List.map_map]
  exact congrArg (List.sum · % 7681) (List.map_congr_left fun i _ => mulCoeff_mod _ _)

end InnerProduct

/-- Barrett reduction brings an accumulator of at most four products down to 11257 (R221). -/
theorem barrettF_le_of_le {x : Coeff} (h : x.toNat ≤ 61440) : (barrettF x).toNat ≤ 11257 := by
  rw [barrettF_toNat]
  omega

/-- Settles O48: the accumulator is the exact sum of the products, which the Barrett reduction keeps modulo q. -/
theorem paccIsTheInnerProduct : Obligations.PaccIsTheInnerProduct := by
  intro k a b hk hk4 hla hlb hpa hpb c hc
  have ha : IsVec k a := ⟨hla, hpa⟩
  have hb : IsVec k b := ⟨hlb, hpb⟩
  have hle := sum_products_le ha hb hc hk4
  have hsum : (coeffAt (paccSum a b) c).toNat = _ := coeffNat_paccSum ha hb hk hc (lt_of_le_of_lt hle (by decide))
  rw [coeffNat_paccF ha hb hk hc]
  exact ⟨by rw [barrettF_mod, hsum, sum_products_mod ha hb hc], barrettF_le_of_le (hsum.trans_le hle)⟩

end Sys2Proof.Machine

namespace Sys2Proof.Machine

open Sys2Proof

/-! ### The cells of the matrix (R241, R242) -/

/-- A successful `mapM` of Option: element `i` of the answer is what element `i` of the list gives. -/
theorem getD_of_mapM_eq_some {α β : Type} {f : α → Option β} {l : List α} {r : List β} (h : l.mapM f = some r) {i : Nat}
    (hi : i < l.length) (d : β) : f l[i] = some (r.getD i d) := by
  induction l generalizing r i with
  | nil => cases hi
  | cons a l ih =>
    simp only [List.mapM_cons, Option.pure_def, Option.bind_eq_bind, Option.bind_eq_some_iff, Option.some.injEq] at h
    obtain ⟨y, hy, ys, hys, rfl⟩ := h
    cases i with
    | zero => exact hy
    | succ i => exact ih hys (Nat.lt_of_succ_lt_succ hi)

theorem exists_mapM_eq_some {α β : Type} {f : α → Option β} {l : List α} (h : ∀ x ∈ l, ∃ y, f x = some y) :
    ∃ r, l.mapM f = some r := by
  induction l with
  | nil => exact ⟨[], rfl⟩
  | cons a l ih =>
    obtain ⟨⟨y, hy⟩, hl⟩ := List.forall_mem_cons.1 h
    obtain ⟨ys, hys⟩ := ih hl
    exact ⟨y :: ys, by rw [List.mapM_cons, hy, hys]; rfl⟩

section Matrix

variable {h : Sponge} {fuel k i j : Nat} {seed : Bytes} {transposed : Bool} {a : List (List Poly)}

/-- Each cell of a sampled matrix is the sample of the seed and the two index bytes of R241. -/
theorem sampleF_cellIndex (ha : genmatrixF h fuel seed transposed k = some a) (hi : i < k) (hj : j < k) :
    sampleF h fuel seed (cellIndex transposed i j).1 (cellIndex transposed i j).2 = some ((a.getD i []).getD j []) := by
  have hrow := getD_of_mapM_eq_some ha (hi.trans_eq List.length_range.symm) []
  have hcell := getD_of_mapM_eq_some hrow (hj.trans_eq List.length_range.symm) []
  rwa [List.getElem_range, List.getElem_range] at hcell

/-- A matrix is sampled as soon as each of its cells is. -/
theorem exists_genmatrixF_eq_some
    (hcell : ∀ i < k, ∀ j < k, ∃ p, sampleF h fuel seed (cellIndex transposed i j).1 (cellIndex transposed i j).2 = some p) :
    ∃ a, genmatrixF h fuel seed transposed k = some a :=
  exists_mapM_eq_some fun i hi => exists_mapM_eq_some fun j hj =>
    hcell i (List.mem_range.1 hi) j (List.mem_range.1 hj)

end Matrix

/-- The sampler keeps a candidate only when it is below q (R241). -/
theorem sampleFrom_lt (n : Nat) (bs : Bytes) (p : Poly) (h : sampleFrom n bs = some p) : ∀ c ∈ p, c.toNat < 7681 := by
  induction n, bs using sampleFrom.induct generalizing p with
  | case1 bs =>
    rw [sampleFrom] at h
    obtain rfl := Option.some.inj h
    exact List.forall_mem_nil _
  | case2 need b0 b1 bs val hv ih =>
    rw [sampleFrom, if_pos hv, Option.map_eq_some_iff] at h
    obtain ⟨p', hp', rfl⟩ := h
    refine List.forall_mem_cons.2 ⟨?_, ih p' hp'⟩
    exact lt_of_le_of_lt ((BitVec.toNat_ofNat _ _).trans_le (Nat.mod_le _ _)) hv
  | case3 need b0 b1 bs val hv ih =>
    rw [sampleFrom, if_neg hv] at h
    exact ih p h
  | case4 need bs hbs => simp [sampleFrom] at h

theorem coeffNat_sampleF_lt {h : Sponge} {fuel x y : Nat} {seed : Bytes} {p : Poly} (hp : sampleF h fuel seed x y = some p)
    {c : Nat} (hc : c < 256) : coeffNat p c < 7681 := by
  have hc' : c < p.length := hc.trans_eq (sampleFrom_length _ _ _ hp).symm
  rw [coeffNat, List.getD_eq_getElem _ _ hc']
  exact sampleFrom_lt _ _ _ hp _ (List.getElem_mem hc')

/-- Settles O49: cell (i, j) of the transposed matrix and cell (j, i) of the matrix are the same sample. -/
theorem matrixLaws : Obligations.MatrixLaws := by
  intro h fuel seed k aT haT
  have hsample : ∀ i < k, ∀ j < k, sampleF h fuel seed i j = some ((aT.getD i []).getD j []) :=
    fun i hi j hj => sampleF_cellIndex haT hi hj
  obtain ⟨a, ha⟩ : ∃ a, genmatrixF h fuel seed false k = some a :=
    exists_genmatrixF_eq_some fun j hj i hi => ⟨_, hsample i hi j hj⟩
  refine ⟨a, ha, fun i hi j hj => ⟨?_, hsample i hi j hj, ?_, fun c hc => ?_⟩⟩
  · exact Option.some.inj ((hsample i hi j hj).symm.trans (sampleF_cellIndex ha hj hi))
  · exact sampleFrom_length _ _ _ (hsample i hi j hj)
  · exact coeffNat_sampleF_lt (hsample i hi j hj) hc

/-! ### GENMATRIX (R243) -/

/-- Rows of `k` elements laid end to end: element `j` of row `i` stands at `i * k + j`. -/
theorem getElem?_flatten_of_rows {α : Type} {k j : Nat} {a : List (List α)} (hrows : ∀ row ∈ a, row.length = k) {i : Nat}
    (hi : i < a.length) (hj : j < k) (d : α) : a.flatten[i * k + j]? = some ((a.getD i []).getD j d) := by
  induction a generalizing i with
  | nil => cases hi
  | cons row a ih =>
    obtain ⟨hrow, hrest⟩ := List.forall_mem_cons.1 hrows
    cases i with
    | zero =>
      have hj' : j < row.length := hj.trans_eq hrow.symm
      rw [Nat.zero_mul, Nat.zero_add, List.flatten_cons, List.getElem?_append_left hj', List.getElem?_eq_getElem hj',
        List.getD_cons_zero, List.getD_eq_getElem _ _ hj']
    | succ i =>
      have hskip : (i + 1) * k + j = row.length + (i * k + j) := by rw [hrow]; ring
      rw [hskip, List.flatten_cons, List.getElem?_append_right (Nat.le_add_right _ _), Nat.add_sub_cancel_left,
        ih hrest (Nat.lt_of_succ_lt_succ hi), List.getD_cons_succ]

/-- One register of consecutive registers that are read. -/
theorem Memory.poly_of_polys {m : Memory} {r n : Nat} {ps : List Poly} (h : Memory.polys m r n = some ps) {i : Nat}
    (hi : i < n) : Memory.poly m (r + i) = ps[i]? := by
  induction n generalizing r i ps with
  | zero => cases hi
  | succ n ih =>
    rw [Memory.polys] at h
    split at h
    · next p ps' hp hps =>
      obtain rfl := Option.some.inj h
      cases i with
      | zero => exact hp
      | succ i => rw [← Nat.add_assoc, Nat.add_right_comm]; exact ih hps (Nat.lt_of_succ_lt_succ hi)
    · cases h

/-- The index bytes of cell (i, j) are (i, j) when the flag is set and (j, i) when it is not (R241). -/
theorem sampleF_cellIndex_decide (h : Sponge) (fuel : Nat) (seed : Bytes) (c : Prop) [Decidable c] (i j : Nat) :
    sampleF h fuel seed (cellIndex (decide c) i j).1 (cellIndex (decide c) i j).2 =
      if c then sampleF h fuel seed i j else sampleF h fuel seed j i := by
  by_cases hc : c
  · rw [decide_eq_true hc, if_pos hc]
    rfl
  · rw [decide_eq_false hc, if_neg hc]
    rfl

/-- Once a sampled matrix stands in consecutive registers row by row, register `r + i * k + j` holds the sample of cell
(i, j) (R243). -/
theorem poly_of_polys_flatten {h : Sponge} {fuel k : Nat} {seed : Bytes} {transposed : Bool} {a : List (List Poly)}
    (ha : genmatrixF h fuel seed transposed k = some a) {m : Memory} {r : Nat}
    (hm : Memory.polys m r a.flatten.length = some a.flatten) {i j : Nat} (hi : i < k) (hj : j < k) :
    Memory.poly m (r + i * k + j) =
      sampleF h fuel seed (cellIndex transposed i j).1 (cellIndex transposed i j).2 := by
  obtain ⟨hlen, hrows⟩ := genmatrixF_shape ha
  have hcell := getElem?_flatten_of_rows (fun row hrow => (hrows row hrow).1) (hi.trans_eq hlen.symm) hj []
  obtain ⟨hlt, -⟩ := List.getElem?_eq_some_iff.1 hcell
  rw [Nat.add_assoc, Memory.poly_of_polys hm hlt, hcell, sampleF_cellIndex ha hi hj]

/-- Settles O40: in range the checks pass, the seed is read, and the matrix is either sampled and written or not sampled. -/
theorem genmatrixCompletes : Obligations.GenmatrixCompletes := by
  intro s rp boff seed hset hrp ho hl
  have hok : s.OperandsOk (.genmatrix rp boff) := ⟨fun _ => hset, hrp, ho, trivial, trivial⟩
  have hnext : ∀ a, genmatrixF sponge Config.genmatFuel seed (decide (s.snap.arg.toNat % 2 = 1)) s.snap.set.k = some a →
      ∃ t, exec (.genmatrix rp boff) s = .next t ∧ s.CommitsRegs t rp a.flatten := fun a ha =>
    exec_commitsRegs rfl hok ((orFault_bind_of_some hl _).trans (orFault_bind_of_some ha _)) (genmatrixF_flatten ha).2
  refine ⟨fun a ha => ?_, fun hfault => ?_, fun hnone => ?_⟩
  · obtain ⟨t, ht, hwrites⟩ := hnext a ha
    refine ⟨t, ht, hwrites, fun i hi j hj => ?_⟩
    rw [poly_of_polys_flatten ha hwrites.written hi hj, sampleF_cellIndex_decide]
  · refine Option.eq_none_iff_forall_ne_some.2 fun a ha => ?_
    obtain ⟨t, ht, -⟩ := hnext a ha
    cases ht.symm.trans hfault
  · exact exec_fault rfl hok nofun ((orFault_bind_of_some hl _).trans (bind_fault_of_none hnone))

end Sys2Proof.Machine

namespace Sys2Proof.Machine

open Sys2Proof

/-! ### The outputs of the IND-CPA functions (R251 to R257) -/

/-- The public key that is generated ends with the public seed, the first half of the hashed draw (R251). -/
theorem cpaKeypairF_pk_eq_append {h : Sponge} {fuel k eta : Nat} {d pk sk : Bytes}
    (e : cpaKeypairF h fuel k eta d = some (pk, sk)) : ∃ t, pk = t ++ (h.sha3_512 d).take 32 := by
  simp only [cpaKeypairF] at e
  split at e
  · cases e
  · obtain ⟨rfl, rfl⟩ := Prod.mk.inj (Option.some.inj e)
    exact ⟨_, rfl⟩

theorem cpaKeypairF_pk_drop {h : Sponge} (hh : Sized h) {fuel k eta : Nat} (hk : 0 < k) {d pk sk : Bytes}
    (e : cpaKeypairF h fuel k eta d = some (pk, sk)) : pk.drop (352 * k) = (h.sha3_512 d).take 32 := by
  obtain ⟨hpk, -⟩ := cpaKeypairF_lengths hh hk e
  obtain ⟨t, rfl⟩ := cpaKeypairF_pk_eq_append e
  have ht : t.length = 352 * k := by simpa [hh.sha3_512, pkLen] using hpk
  exact List.drop_left' ht

/-- Settles O56: the lengths are those of the three functions' layouts, and the public seed is what stands after the packed
vector. -/
theorem indCpaOutputsHaveTheirLengths : Obligations.IndCpaOutputsHaveTheirLengths := by
  refine ⟨fun fuel k eta d pk sk hk e => ?_, fun _ _ _ _ _ _ _ hk hm e => cpaEncF_length hk hm e,
    fun _ ct sk hk => cpaDecF_length hk ct sk⟩
  obtain ⟨hpk, hsk⟩ := cpaKeypairF_lengths sponge_sized hk e
  exact ⟨hpk, hsk, cpaKeypairF_pk_drop sponge_sized hk e⟩

/-! ### CPA_KEYPAIR, CPA_ENC and CPA_DEC (R252, R254, R256) -/

section Completion

variable {i : Instr} {s : State} {x : Except Stop Writes}

/-- A command whose computation answers two byte strings that do not meet stores those alone. -/
theorem exec_commitsTwoBytes {o o' : Nat} {bs bs' : Bytes} (hc : exec i s = s.commit (s.check i >>= fun _ => x))
    (hok : s.OperandsOk i) (hx : x = .ok { buf := [(o, bs), (o', bs')] })
    (hdisj : o + bs.length ≤ o' ∨ o' + bs'.length ≤ o) (hh : s.KeyHashOk i := by nofun) :
    ∃ t, exec i s = .next t ∧ s.CommitsBytes t [(o, bs), (o', bs')] :=
  ⟨_, by rw [exec_eq_commit hc hok hh, hx, State.commit_ok], s.commitsBytes_of_two_writes hdisj⟩

/-- A command whose computation can only stop for want of `o` is a fault exactly when `o` is missing. -/
theorem exec_fault_iff_none {α : Type} {f : Fault} {o : Option α} {g : α → Writes}
    (hc : exec i s = s.commit (s.check i >>= fun _ => x)) (hok : s.OperandsOk i)
    (hx : x = (orFault f o >>= fun a => pure (g a))) (hh : s.KeyHashOk i := by nofun) :
    exec i s = .fault f ↔ o = none := by
  rw [exec_eq_commit hc hok hh, hx]
  cases o with
  | none => exact iff_of_true rfl rfl
  | some a => exact iff_of_false nofun nofun

end Completion

/-- Settles O41: under a configured set the checks pass, the inputs are read, and the output is either computed and stored or
not sampled; PK and SK do not meet under any set. -/
theorem indCpaCommandsComplete : Obligations.IndCpaCommandsComplete := by
  intro s hset
  have hk : 0 < s.snap.set.k := ParamSet.k_pos hset
  refine ⟨fun d hd => ?_, fun m pk coins hm hpk hcoins => ?_, fun ct sk hct hsk => ?_⟩
  · have hok : s.OperandsOk .cpaKeypair := ⟨fun _ => hset, trivial, trivial, trivial, trivial⟩
    refine ⟨fun pk sk e => ?_, exec_fault_iff_none rfl hok (orFault_bind_of_some hd _)⟩
    obtain ⟨hpk, hsk⟩ := cpaKeypairF_lengths sponge_sized hk e
    have hdisj : 0x0000 + pk.length ≤ 0x0600 := by
      have := s.snap.set.k_le
      rw [hpk, pkLen]
      omega
    exact ⟨hpk, hsk,
      exec_commitsTwoBytes rfl hok ((orFault_bind_of_some hd _).trans (orFault_bind_of_some e _)) (.inl hdisj)⟩
  · have hok : s.OperandsOk .cpaEnc := ⟨fun _ => hset, trivial, trivial, trivial, trivial⟩
    have hread {g : Bytes → Bytes → Bytes → Except Stop Writes} :
        (s.memRead regionMSG 32 >>= fun a => s.memRead regionPK (pkLen s.snap.set.k) >>= fun b =>
          s.memRead regionCOINS 32 >>= g a b) = g m pk coins :=
      (orFault_bind_of_some hm _).trans ((orFault_bind_of_some hpk _).trans (orFault_bind_of_some hcoins _))
    exact ⟨fun ct e => ⟨cpaEncF_length hk (Memory.load_length hm) e,
        exec_commitsBytes rfl hok (hread.trans (orFault_bind_of_some e _))⟩,
      exec_fault_iff_none rfl hok hread⟩
  · exact ⟨cpaDecF_length hk ct sk,
      exec_commitsBytes rfl ⟨fun _ => hset, trivial, trivial, trivial, trivial⟩
        ((orFault_bind_of_some hct _).trans (orFault_bind_of_some hsk _))⟩

end Sys2Proof.Machine

namespace Sys2Proof.Machine

open Sys2Proof

/-! ### Constant-time compare and select (R280) -/

/-- The OR of a list of bytes is zero exactly when each of them is. -/
theorem foldl_or_eq_zero_iff (bs : Bytes) (acc : Byte) :
    bs.foldl (fun a b => a ||| b) acc = 0 ↔ acc = 0 ∧ ∀ b ∈ bs, b = 0 := by
  induction bs generalizing acc with
  | nil => simp
  | cons b bs ih =>
    rw [List.foldl_cons, ih, List.forall_mem_cons, ← and_assoc]
    exact and_congr_left' BitVec.or_eq_zero_iff

/-- Two byte strings of one length have no difference in any byte pair exactly when they are equal. -/
theorem forall_mem_zipWith_xor_iff {x y : Bytes} (h : x.length = y.length) :
    (∀ b ∈ List.zipWith (fun a b => a ^^^ b) x y, b = 0) ↔ x = y := by
  induction x generalizing y with
  | nil =>
    obtain rfl := List.length_eq_zero_iff.1 h.symm
    simp
  | cons a x ih =>
    cases y with
    | nil => cases h
    | cons b y =>
      rw [List.zipWith_cons_cons, List.forall_mem_cons, ih (Nat.succ.inj h), List.cons.injEq]
      exact and_congr_left' BitVec.xor_eq_zero_iff

/-- ConstantTimeEqual decides equality. -/
theorem constantTimeEqual_eq_decide (x y : Bytes) : constantTimeEqual x y = decide (x = y) := by
  by_cases hlen : x.length = y.length
  · simp only [constantTimeEqual, hlen, foldl_or_eq_zero_iff, true_and, forall_mem_zipWith_xor_iff hlen, decide_true,
      Bool.true_and]
  · have hne : x ≠ y := fun h => hlen (congrArg List.length h)
    simp only [constantTimeEqual, hlen, hne, decide_false, Bool.false_and]

/-- A byte under the full mask is the first operand of the selection. -/
theorem select_byte_true (a b : Byte) : (a &&& 0xFF) ||| (b &&& ~~~0xFF) = a := by
  have hmask : (0xFF : Byte) = BitVec.allOnes 8 := rfl
  rw [hmask, BitVec.and_allOnes, BitVec.not_allOnes, BitVec.and_zero, BitVec.or_zero]

/-- A byte under the empty mask is the second operand of the selection. -/
theorem select_byte_false (a b : Byte) : (a &&& 0x00) ||| (b &&& ~~~0x00) = b := by
  have hmask : (0x00 : Byte) = 0#8 := rfl
  rw [hmask, BitVec.not_zero, BitVec.and_zero, BitVec.and_allOnes, BitVec.zero_or]

theorem constantTimeSelect_true {x y : Bytes} (h : x.length ≤ y.length) : constantTimeSelect true x y = x := by
  simp only [constantTimeSelect, if_true, select_byte_true]
  exact List.map_zip_eq_zipWith.symm.trans (List.map_fst_zip h)

theorem constantTimeSelect_false {x y : Bytes} (h : y.length ≤ x.length) : constantTimeSelect false x y = y := by
  simp only [constantTimeSelect, Bool.false_eq_true, if_false, select_byte_false]
  exact List.map_zip_eq_zipWith.symm.trans (List.map_snd_zip h)

/-- ConstantTimeSelect of two byte strings of one length is the choice between them. -/
theorem constantTimeSelect_eq_ite {x y : Bytes} (h : x.length = y.length) (fail : Bool) :
    constantTimeSelect fail x y = if fail then x else y := by
  cases fail with
  | true => exact constantTimeSelect_true h.le
  | false => exact constantTimeSelect_false h.ge

/-- The rejection secret z ends sk (R270). -/
theorem take_z_eq_drop {k : Nat} {sk : Bytes} (h : sk.length = 768 * k + 96) :
    (sk.drop (768 * k + 64)).take 32 = sk.drop (768 * k + 64) :=
  List.take_of_length_le (by rw [List.length_drop]; omega)

/-- Settles O57: the comparison decides whether the two ciphertexts are equal, and the masks then select the pre-key or z. -/
theorem decapsulationRejectsImplicitly : Obligations.DecapsulationRejectsImplicitly := by
  intro fuel k eta ct sk ct' hsk hct'
  have hlen : (sk.drop (768 * k + 64)).length =
      ((sponge.sha3_512 (cpaDecF k ct (sk.take (416 * k)) ++ (sk.drop (768 * k + 32)).take 32)).take 32).length := by
    rw [List.length_drop, List.length_take, sponge_sized.sha3_512]
    omega
  simp only [kemDecapsF, hct', take_z_eq_drop hsk, constantTimeSelect_eq_ite hlen, constantTimeEqual_eq_decide,
    Bool.not_eq_true', decide_eq_false_iff_not, ite_not]

/-! ### KEM_KEYGEN and KEM_ENCAPS (R272 to R275) -/

/-- KEM key generation adds to the IND-CPA pair and runs out of fuel with it (R272). -/
theorem kemKeygenF_eq_map (h : Sponge) (fuel k eta : Nat) (d z : Bytes) :
    kemKeygenF h fuel k eta d z =
      (cpaKeypairF h fuel k eta d).map fun ks => (ks.1, ks.2 ++ ks.1 ++ h.sha3_256 ks.1 ++ z) := by
  rw [kemKeygenF]
  cases cpaKeypairF h fuel k eta d <;> rfl

/-- Encapsulation adds to the IND-CPA ciphertext and runs out of fuel with it (R274). -/
theorem kemEncapsF_eq_map (h : Sponge) (fuel k eta : Nat) (r pk : Bytes) :
    kemEncapsF h fuel k eta r pk =
      (cpaEncF h fuel k eta (h.sha3_256 r) pk (((h.sha3_512 (h.sha3_256 r ++ h.sha3_256 pk)).drop 32).take 32)).map
        fun ct => (ct, h.sha3_256 ((h.sha3_512 (h.sha3_256 r ++ h.sha3_256 pk)).take 32 ++ h.sha3_256 ct)) := by
  simp only [kemEncapsF]
  cases cpaEncF h fuel k eta (h.sha3_256 r) pk (((h.sha3_512 (h.sha3_256 r ++ h.sha3_256 pk)).drop 32).take 32) <;> rfl

/-- PK ends before SK begins under every set (R85). -/
theorem regionPK_add_pkLen_le (set : ParamSet) : regionPK + pkLen set.k ≤ regionSK := by
  have := set.k_le
  rw [regionPK, pkLen, regionSK]
  omega

/-- CT ends before SS begins under every set (R85). -/
theorem regionCT_add_ctLen_le (set : ParamSet) : regionCT + ctLen set.k ≤ regionSS := by
  have := set.k_le
  rw [regionCT, ctLen, regionSS]
  omega

section Completion

variable {s : State} (hset : s.snap.set ≠ .unconfigured)

include hset

theorem kemKeygen_operandsOk : s.OperandsOk .kemKeygen := ⟨fun _ => hset, trivial, trivial, trivial, trivial⟩

theorem kemEncaps_operandsOk (hk : s.snap.keylen.toNat = s.snap.set.pkSize) : s.OperandsOk .kemEncaps :=
  ⟨fun _ => hset, trivial, trivial, hk, trivial⟩

theorem kemSkcheck_operandsOk (hk : s.snap.keylen.toNat = s.snap.set.skSize) : s.OperandsOk .kemSkcheck :=
  ⟨fun _ => hset, trivial, trivial, hk, trivial⟩

theorem kemDecaps_operandsOk (hk : s.snap.keylen.toNat = s.snap.set.skSize) (hc : s.snap.ctlen.toNat = s.snap.set.ctSize) :
    s.OperandsOk .kemDecaps := ⟨fun _ => hset, trivial, trivial, hk, hc⟩

/-- KEM_KEYGEN for defined draws and a sampled matrix (R273): sk has its length, and the two keys are stored. -/
theorem execKemKeygen_commitsBytes {d z pk skc : Bytes} (hd : Memory.load s.buf regionRND0 32 = some d)
    (hz : Memory.load s.buf regionRND1 32 = some z)
    (e : cpaKeypairF sponge Config.genmatFuel s.snap.set.k s.snap.set.eta d = some (pk, skc)) :
    (skc ++ pk ++ sponge.sha3_256 pk ++ z).length = skLen s.snap.set.k ∧ ∃ t, exec .kemKeygen s = .next t ∧
      s.CommitsBytes t [(regionPK, pk), (regionSK, skc ++ pk ++ sponge.sha3_256 pk ++ z)] := by
  have hks : kemKeygenF sponge Config.genmatFuel s.snap.set.k s.snap.set.eta d z =
      some (pk, skc ++ pk ++ sponge.sha3_256 pk ++ z) := by rw [kemKeygenF_eq_map, e]; rfl
  obtain ⟨hpk, hsk⟩ := kemKeygenF_lengths sponge_sized (ParamSet.k_pos hset) (Memory.load_length hz) hks
  have hdisj : regionPK + pk.length ≤ regionSK := hpk ▸ regionPK_add_pkLen_le s.snap.set
  exact ⟨hsk, exec_commitsTwoBytes rfl (kemKeygen_operandsOk hset)
    ((orFault_bind_of_some hd _).trans ((orFault_bind_of_some hz _).trans (orFault_bind_of_some hks _))) (.inl hdisj)⟩

/-- KEM_KEYGEN for defined draws stops exactly when the matrix runs out of fuel (R242). -/
theorem execKemKeygen_samplerFuel_iff {d z : Bytes} (hd : Memory.load s.buf regionRND0 32 = some d)
    (hz : Memory.load s.buf regionRND1 32 = some z) :
    exec .kemKeygen s = .fault .samplerFuel ↔
      cpaKeypairF sponge Config.genmatFuel s.snap.set.k s.snap.set.eta d = none := by
  rw [exec_fault_iff_none rfl (kemKeygen_operandsOk hset)
    ((orFault_bind_of_some hd _).trans (orFault_bind_of_some hz _)), kemKeygenF_eq_map, Option.map_eq_none_iff]

/-- KEM_ENCAPS for a defined draw and key stores the ciphertext and the shared secret that it computes (R275). -/
theorem execKemEncaps_commitsBytes (hk : s.snap.keylen.toNat = s.snap.set.pkSize) {r pk ct ss : Bytes}
    (hr : Memory.load s.buf regionRND0 32 = some r) (hpk : Memory.load s.buf regionPK (pkLen s.snap.set.k) = some pk)
    (e : kemEncapsF sponge Config.genmatFuel s.snap.set.k s.snap.set.eta r pk = some (ct, ss)) :
    ct.length = ctLen s.snap.set.k ∧ ∃ t, exec .kemEncaps s = .next t ∧
      s.CommitsBytes t [(regionCT, ct), (regionSS, ss)] := by
  obtain ⟨hct, -⟩ := kemEncapsF_lengths sponge_sized (ParamSet.k_pos hset) e
  have hdisj : regionCT + ct.length ≤ regionSS := hct ▸ regionCT_add_ctLen_le s.snap.set
  exact ⟨hct, exec_commitsTwoBytes rfl (kemEncaps_operandsOk hset hk)
    ((orFault_bind_of_some hr _).trans ((orFault_bind_of_some hpk _).trans (orFault_bind_of_some e _))) (.inl hdisj)⟩

end Completion

/-- Settles O42: the checks pass, the inputs are read, and the two outputs are the IND-CPA ones with what the KEM adds to
them. -/
theorem keyGenerationAndEncapsulationComplete : Obligations.KeyGenerationAndEncapsulationComplete := by
  intro s hset
  refine ⟨fun d z hd hz => ⟨fun pk skc e => execKemKeygen_commitsBytes hset hd hz e,
    execKemKeygen_samplerFuel_iff hset hd hz⟩, fun r pk hk hr hpk => ⟨fun ct e => ?_, ?_⟩⟩
  · exact execKemEncaps_commitsBytes hset hk hr hpk (by rw [kemEncapsF_eq_map, e]; rfl)
  · rw [exec_fault_iff_none rfl (kemEncaps_operandsOk hset hk)
      ((orFault_bind_of_some hr _).trans (orFault_bind_of_some hpk _)), kemEncapsF_eq_map, Option.map_eq_none_iff]

/-! ### KEM_SKCHECK and KEM_DECAPS on a sound key (R276 to R279) -/

/-- The hash embedded in the sk that is read is right: the check of R302 that KEM_SKCHECK and KEM_DECAPS make. -/
theorem keyHashOk_of_skCheck {s : State} {sk : Bytes} (hl : Memory.load s.buf regionSK (skLen s.snap.set.k) = some sk)
    (hh : skCheck sponge s.snap.set.k sk = true) (i : Instr) : s.KeyHashOk i := fun _ => ⟨sk, hl, hh⟩

/-- KEM_SKCHECK of a sound key sets DONE and nothing else (R277). -/
theorem execKemSkcheck_commitsNothing {s : State} {sk : Bytes} (hset : s.snap.set ≠ .unconfigured)
    (hk : s.snap.keylen.toNat = s.snap.set.skSize) (hl : Memory.load s.buf regionSK (skLen s.snap.set.k) = some sk)
    (hh : skCheck sponge s.snap.set.k sk = true) : exec .kemSkcheck s = .next s.commitsNothing :=
  exec_eq_commit (x := .ok {}) rfl (kemSkcheck_operandsOk hset hk) (keyHashOk_of_skCheck hl hh _)

/-- Settles O43: the checks pass with that of the embedded hash, and KEM_DECAPS stores what kemDecapsF gives, which has the
rejection inside it. -/
theorem decapsulationAndKeyCheckComplete : Obligations.DecapsulationAndKeyCheckComplete := by
  intro s sk hset hk hl hh
  have hcheck : skCheck sponge s.snap.set.k sk = true := decide_eq_true hh
  refine ⟨execKemSkcheck_commitsNothing hset hk hl hcheck, fun ct hc hct => ?_⟩
  have hok := kemDecaps_operandsOk hset hk hc
  have hkey := keyHashOk_of_skCheck hl hcheck .kemDecaps
  have hread {g : Bytes → Bytes → Except Stop Writes} :
      (s.memRead regionSK (skLen s.snap.set.k) >>= fun a => s.memRead regionCT (ctLen s.snap.set.k) >>= g a) = g sk ct :=
    (orFault_bind_of_some hl _).trans (orFault_bind_of_some hct _)
  exact ⟨fun ss e => ⟨kemDecapsF_length sponge_sized e,
      exec_commitsBytes rfl hok (hread.trans (orFault_bind_of_some e _)) hkey⟩,
    exec_fault_iff_none rfl hok hread hkey⟩

/-! ### A generated key passes the check (R272, R276) -/

section GeneratedKey

variable {k : Nat} {skc pk hpk : Bytes} (z : Bytes) (hskc : skc.length = skcLen k) (hlen : pk.length = pkLen k)

include hskc hlen

/-- The public key stands in sk after sk_cpa (R270). -/
theorem take_pk_of_append : ((skc ++ pk ++ hpk ++ z).drop (416 * k)).take (352 * k + 32) = pk := by
  rw [← skcLen, ← pkLen, List.append_assoc, List.append_assoc, List.drop_left' hskc, List.take_left' hlen]

/-- The hash stands in sk after the two keys (R270). -/
theorem take_hash_of_append (hhash : hpk.length = 32) : ((skc ++ pk ++ hpk ++ z).drop (768 * k + 32)).take 32 = hpk := by
  have hkeys : (skc ++ pk).length = 768 * k + 32 := by
    rw [List.length_append, hskc, hlen, skcLen, pkLen]
    omega
  rw [List.append_assoc, List.drop_left' hkeys, List.take_left' hhash]

/-- The sk of R272 passes the check of R276. -/
theorem skCheck_generated {h : Sponge} (hh : Sized h) : skCheck h k (skc ++ pk ++ h.sha3_256 pk ++ z) = true := by
  rw [skCheck, take_pk_of_append z hskc hlen, take_hash_of_append z hskc hlen (hh.sha3_256 pk)]
  exact decide_eq_true rfl

end GeneratedKey

/-- KEM_KEYGEN gives a next state only by storing a generated key pair: an undefined draw or a matrix that runs out of fuel is
a fault, and under a configured set no check fails. -/
theorem keypair_of_execKemKeygen_next {s t : State} (hset : s.snap.set ≠ .unconfigured) (h : exec .kemKeygen s = .next t) :
    ∃ d z pk skc, cpaKeypairF sponge Config.genmatFuel s.snap.set.k s.snap.set.eta d = some (pk, skc) ∧
      Memory.load t.buf regionSK (skLen s.snap.set.k) = some (skc ++ pk ++ sponge.sha3_256 pk ++ z) := by
  have hdraws (hnone : Memory.load s.buf regionRND0 32 = none ∨ Memory.load s.buf regionRND1 32 = none) : False := by
    cases h.symm.trans (exec_fault_of_either rfl (kemKeygen_operandsOk hset) hnone)
  obtain ⟨d, hd⟩ := Option.ne_none_iff_exists'.1 fun hnone => hdraws (.inl hnone)
  obtain ⟨z, hz⟩ := Option.ne_none_iff_exists'.1 fun hnone => hdraws (.inr hnone)
  obtain ⟨⟨pk, skc⟩, e⟩ := Option.ne_none_iff_exists'.1 fun hnone => by
    cases h.symm.trans ((execKemKeygen_samplerFuel_iff hset hd hz).2 hnone)
  obtain ⟨hlen, t', ht, hwrites⟩ := execKemKeygen_commitsBytes hset hd hz e
  obtain rfl := Host.Outcome.next.inj (ht.symm.trans h)
  exact ⟨d, z, pk, skc, e, hlen ▸ hwrites.written _ (List.mem_cons_of_mem _ List.mem_cons_self)⟩

/-- Settles O58: the key that KEM_KEYGEN stored is still read by KEM_SKCHECK, and its hash was computed from its public key. -/
theorem generatedKeyPassesTheCheck : Obligations.GeneratedKeyPassesTheCheck := by
  intro s t u hset h hbuf hsame hk
  obtain ⟨d, z, pk, skc, e, hl⟩ := keypair_of_execKemKeygen_next hset h
  obtain ⟨hpk, hskc⟩ := cpaKeypairF_lengths sponge_sized (ParamSet.k_pos hset) e
  rw [← hsame] at hset hk hl hpk hskc
  rw [← hbuf] at hl
  exact execKemSkcheck_commitsNothing hset hk hl (skCheck_generated z hskc hpk sponge_sized)

/-! ### The checks of lengths and of the embedded hash (R281, R302) -/

section Checks

variable {s : State} {i : Instr}

/-- A command whose checks answer an error code ends with it (R303). -/
theorem exec_endsWith_of_check {c : CmdError} (h : s.check i = .error (.err c)) : exec i s = .next (s.endsWith c) := by
  obtain ⟨r, hr⟩ := exec_executes i s
  rw [hr.commits, hr.stops _ h, State.commit_err, State.endsWith_eq]

variable (hset : s.snap.set ≠ .unconfigured) (hgroups : i.groups s.snap.set.k = [])
  (hrange : i.bufRange s.snap.set.k s.snap.set.eta = none)

include hset hgroups hrange

/-- Under a configured set a command without operands is left with the checks of its lengths and of the key. -/
theorem check_eq_lengths :
    s.check i = (require (lengthOk s.snap.keylen (i.keySize s.snap.set)) .invalidKeySize >>= fun _ =>
      require (lengthOk s.snap.ctlen (i.ctSize s.snap.set)) .invalidCiphertextSize >>= fun _ => s.checkKeyHash i) := by
  simp only [State.check, hset, hgroups, hrange, decide_false, Bool.and_false, Bool.not_false, List.all_nil,
    Option.all_none, require_true, ok_bind]

theorem exec_invalidKeySize {n : Nat} (hsize : i.keySize s.snap.set = some n) (hk : s.snap.keylen.toNat ≠ n) :
    exec i s = .next (s.endsWith .invalidKeySize) :=
  exec_endsWith_of_check (by
    rw [check_eq_lengths hset hgroups hrange, hsize, lengthOk, decide_eq_false hk, require_false, error_bind])

theorem exec_invalidCiphertextSize {n m : Nat} (hsize : i.keySize s.snap.set = some n) (hk : s.snap.keylen.toNat = n)
    (hctSize : i.ctSize s.snap.set = some m) (hc : s.snap.ctlen.toNat ≠ m) :
    exec i s = .next (s.endsWith .invalidCiphertextSize) :=
  exec_endsWith_of_check (by
    rw [check_eq_lengths hset hgroups hrange, hsize, hctSize, lengthOk, lengthOk, decide_eq_true hk, decide_eq_false hc,
      require_true, ok_bind, require_false, error_bind])

end Checks

/-- A command that checks an sk whose embedded hash is wrong ends with that code, its other checks passed. -/
theorem exec_invalidPrivateKey {s : State} {i : Instr} {sk : Bytes} (hok : s.OperandsOk i) (hi : i.checksKeyHash = true)
    (hl : Memory.load s.buf regionSK (skLen s.snap.set.k) = some sk) (hh : skCheck sponge s.snap.set.k sk = false) :
    exec i s = .next (s.endsWith .invalidPrivateKey) :=
  exec_endsWith_of_check (by
    rw [hok.check_eq, State.checkKeyHash, if_pos hi, State.memRead, orFault_bind_of_some hl, hh, require_false])

/-- Settles O29: each condition fails one check of R302 and passes those before it. -/
theorem keysAndCiphertextsAreChecked : Obligations.KeysAndCiphertextsAreChecked := by
  intro s hset
  refine ⟨fun hk => exec_invalidKeySize hset rfl rfl rfl hk, fun hk => ⟨exec_invalidKeySize hset rfl rfl rfl hk,
    exec_invalidKeySize hset rfl rfl rfl hk⟩, fun hk => ⟨fun hc =>
    exec_invalidCiphertextSize hset rfl rfl rfl hk rfl hc, fun sk hl hh => ?_⟩⟩
  have hwrong : skCheck sponge s.snap.set.k sk = false := decide_eq_false hh
  exact ⟨exec_invalidPrivateKey (kemSkcheck_operandsOk hset hk) rfl hl hwrong,
    fun hc => exec_invalidPrivateKey (kemDecaps_operandsOk hset hk hc) rfl hl hwrong⟩

end Sys2Proof.Machine

namespace Sys2Proof.Machine

open Sys2Proof

/-! ### Abort and soft reset (R342, R343) -/

theorem Memory.byteAt_forgetRegs (m : Memory) (d : Option (Nat × Nat)) (x : Nat) :
    Memory.byteAt (Memory.forgetRegs m d) x =
      if ∃ g ∈ d, 512 * g.1 ≤ x ∧ x < 512 * (g.1 + g.2) then none else Memory.byteAt m x := by
  cases d with
  | none => simp [Memory.forgetRegs]
  | some g =>
    rw [Memory.forgetRegs, Memory.byteAt_forget, pregBytes, ← Nat.mul_add]
    simp

theorem Memory.byteAt_forgetRanges (m : Memory) (ds : List (Nat × Nat)) (x : Nat) :
    Memory.byteAt (Memory.forgetRanges m ds) x =
      if ∃ d ∈ ds, d.1 ≤ x ∧ x < d.1 + d.2 then none else Memory.byteAt m x := by
  rw [Memory.forgetRanges]
  induction ds generalizing m with
  | nil => simp
  | cons d ds ih =>
    rw [List.foldl_cons, ih, Memory.byteAt_forget]
    simp only [List.exists_mem_cons_iff, or_comm (a := d.1 ≤ x ∧ x < d.1 + d.2), ite_or]

section Abort

variable {s : State} {sn : Snapshot} {n : Nat}

theorem State.abort_of_idle (h : s.eng = .idle) : s.abort = s := by
  rw [State.abort, h]

theorem State.abort_of_decode_error (h : s.eng = .busy sn n) {e : DecodeError} (hd : decode sn.word = .error e) :
    s.abort = s := by
  simp only [State.abort, h, hd]

theorem State.abort_of_error (h : s.eng = .busy sn n) {i : Instr} (hd : decode sn.word = .ok i) {c : CmdError}
    (hc : s.errorOf i = some c) : s.abort = s := by
  simp only [State.abort, h, hd, hc]

theorem State.abort_of_ok (h : s.eng = .busy sn n) {i : Instr} (hd : decode sn.word = .ok i) (hc : s.errorOf i = none) :
    s.abort = { s with
      preg := Memory.forgetRegs s.preg (i.pregDest sn.set.k)
      buf := Memory.forgetRanges s.buf (i.bufDest sn.set.k) } := by
  simp only [State.abort, h, hd, hc]

/-- An abort changes PREG and BUF alone. -/
theorem State.abort_eq (s : State) : s.abort = { s with preg := s.abort.preg, buf := s.abort.buf } := by
  cases he : s.eng with
  | idle => rw [State.abort_of_idle he, ← he]
  | busy sn n =>
    cases hd : decode sn.word with
    | error e => rw [State.abort_of_decode_error he hd, ← he]
    | ok i =>
      cases hc : s.errorOf i with
      | some c => rw [State.abort_of_error he hd hc, ← he]
      | none => rw [State.abort_of_ok he hd hc, ← he]

theorem State.byteAt_preg_abort (h : s.eng = .busy sn n) {i : Instr} (hd : decode sn.word = .ok i) (hc : s.errorOf i = none)
    (x : Nat) : Memory.byteAt s.abort.preg x =
      if ∃ g ∈ i.pregDest sn.set.k, 512 * g.1 ≤ x ∧ x < 512 * (g.1 + g.2) then none else Memory.byteAt s.preg x := by
  rw [State.abort_of_ok h hd hc, Memory.byteAt_forgetRegs]

theorem State.byteAt_buf_abort (h : s.eng = .busy sn n) {i : Instr} (hd : decode sn.word = .ok i) (hc : s.errorOf i = none)
    (x : Nat) : Memory.byteAt s.abort.buf x =
      if ∃ d ∈ i.bufDest sn.set.k, d.1 ≤ x ∧ x < d.1 + d.2 then none else Memory.byteAt s.buf x := by
  rw [State.abort_of_ok h hd hc, Memory.byteAt_forgetRanges]

end Abort

/-- A soft reset puts the registers at their reset values and leaves PREG and BUF as the abort does (R342). -/
theorem State.softReset_eq (s : State) :
    s.softReset = { s with
      ie := false, done := false, err := false, ovr := false, ecode := none, set := .unconfigured, cmd := 0, arg := 0
      res := 0, keylen := 0, ctlen := 0, eng := .idle, preg := s.abort.preg, buf := s.abort.buf } := by
  rw [State.softReset, s.abort_eq]
  rfl

/-- Settles O19: the write is the soft reset, whose abort does nothing while IDLE. -/
theorem softResetClearsTheRegisters : Obligations.SoftResetClearsTheRegisters := by
  intro s v hv
  refine ⟨s.softReset, ?_, s.softReset_eq, fun he => ?_, hostRead_csr _⟩
  · rw [← writeCtrl_of_srst s hv]
    exact hostWrite_csr s v
  · rw [State.softReset, State.abort_of_idle he]
    exact ⟨rfl, rfl⟩

/-- Settles O20: an abort without an error code forgets the destinations, byte by byte, and a commit changes no other byte. -/
theorem abortUndefinesTheDestinations : Obligations.AbortUndefinesTheDestinations := by
  intro s sn n he
  refine ⟨fun e hd => State.abort_of_decode_error he hd, fun i hd => ⟨fun c hc => State.abort_of_error he hd hc,
    fun hc => ?_⟩⟩
  have hpreg := State.byteAt_preg_abort he hd hc
  have hbuf := State.byteAt_buf_abort he hd hc
  refine ⟨s.abort_eq, fun x => ⟨?_, fun hx => ?_⟩, fun x => ⟨fun hx => ?_, fun hx => ?_⟩, fun t ht x => ?_⟩
  · rintro ⟨r, m, hm, hx⟩
    rw [hpreg, if_pos ⟨(r, m), hm, hx⟩]
  · rw [hpreg, if_neg]
    rintro ⟨⟨r, m⟩, hm, hr⟩
    have hout := hx r m hm
    omega
  · rw [hbuf, if_pos hx]
  · rw [hbuf, if_neg]
    rintro ⟨d, hd, hr⟩
    have hout := hx d hd
    omega
  have hframe := commandsChangeOnlyTheirDestinations i s t ht
  rw [State.snap_of_busy s he] at hframe
  obtain ⟨-, -, -, -, -, -, -, -, -, -, -, -, hframep, hframeb⟩ := hframe
  refine ⟨fun hx => ?_, fun hx => ?_⟩
  · rw [hpreg, if_pos]
    by_contra! hnot
    exact hx (hframep x fun r m hm => (Nat.lt_or_ge x (512 * r)).imp_right (hnot (r, m) hm))
  · rw [hbuf, if_pos]
    by_contra! hnot
    exact hx (hframeb x fun d hd => (Nat.lt_or_ge x d.1).imp_right (hnot d hd))

/-! ### The ends of a commit (R303, R304) -/

/-- The two ends of a commit: writes and DONE, or an error code and nothing else. -/
theorem commitWord_next_cases {s t : State} {w : Word} (h : s.commitWord w = .next t) :
    (∃ ws, t = (s.applyWrites ws).complete) ∨ ∃ c, t = s.completeError c := by
  cases hd : decode w with
  | error e =>
    rw [commitWord_of_decode_error hd] at h
    exact .inr ⟨_, (Host.Outcome.next.inj h).symm⟩
  | ok i =>
    rw [commitWord_of_decode hd] at h
    exact (exec_next_cases h).imp_left fun ⟨ws, _, _, ht⟩ => ⟨ws, ht⟩

/-- Settles O26: a commit that completes leaves ERR and ECODE, and one that does not is `completeError`. -/
theorem errorsHaveNoOtherEffect : Obligations.ErrorsHaveNoOtherEffect := by
  intro s t sn he hecode herr h
  rw [step_of_busy_zero he] at h
  rcases commitWord_next_cases h with ⟨ws, rfl⟩ | ⟨c, rfl⟩
  · exact ⟨fun c hc => (nomatch hecode.symm.trans hc), fun _ => ⟨herr, rfl, rfl⟩⟩
  · exact ⟨fun c' hc => by rw [← Option.some.inj hc]; rfl, fun hc => nomatch hc⟩

/-! ### The checks of the set and of the operands (R118, R301, R302) -/

section Checks

variable {s : State} {i : Instr}

theorem exec_illegalParam (hset : s.snap.set = .unconfigured) (hi : i.needsParam = true) :
    exec i s = .next (s.endsWith .illegalParam) :=
  exec_endsWith_of_check (by rw [State.check, hi, decide_eq_true hset]; rfl)

variable (hset : i.needsParam = true → s.snap.set ≠ .unconfigured)

include hset

/-- Past the check of PARAM.SET, the checks go on with the register groups. -/
theorem check_eq_operands :
    s.check i = (require ((i.groups s.snap.set.k).all groupOk) .illegalOperand >>= fun _ =>
      require ((i.bufRange s.snap.set.k s.snap.set.eta).all rangeOk) .illegalOperand >>= fun _ =>
      require (lengthOk s.snap.keylen (i.keySize s.snap.set)) .invalidKeySize >>= fun _ =>
      require (lengthOk s.snap.ctlen (i.ctSize s.snap.set)) .invalidCiphertextSize >>= fun _ => s.checkKeyHash i) := by
  have hparam : (!(i.needsParam && decide (s.snap.set = .unconfigured))) = true := by
    cases hi : i.needsParam with
    | false => rfl
    | true => simp [hset hi]
  rw [State.check, hparam, require_true, ok_bind]

/-- A register group that passes P31 or a BUF range that passes the end of the buffer ends the command. -/
theorem exec_illegalOperand (h : (∃ g ∈ i.groups s.snap.set.k, 32 < g.1 + g.2) ∨
    ∃ r ∈ i.bufRange s.snap.set.k s.snap.set.eta, 8192 < r.1 + r.2) : exec i s = .next (s.endsWith .illegalOperand) := by
  refine exec_endsWith_of_check ?_
  rw [check_eq_operands hset]
  cases hgroups : (i.groups s.snap.set.k).all groupOk with
  | false => rfl
  | true =>
    rcases h with ⟨g, hg, hlt⟩ | ⟨r, hr, hlt⟩
    · exact absurd (of_decide_eq_true (List.all_eq_true.1 hgroups g hg)) (Nat.not_le.2 hlt)
    · have hrange : rangeOk r = false := decide_eq_false (Nat.not_le.2 hlt)
      rw [hr, Option.all_some, hrange]
      rfl

end Checks

/-- Settles O27: each of the commands needs PARAM.SET, and its check is the first. -/
theorem unconfiguredSetIsIllegalParam : Obligations.UnconfiguredSetIsIllegalParam :=
  fun _ _ _ _ _ hset i hi => exec_illegalParam hset (List.all_eq_true.1 (by rfl) i hi)

/-- Settles O28: each condition is that one group or the BUF range of the command does not fit. -/
theorem operandRangesAreChecked : Obligations.OperandRangesAreChecked := by
  intro s a b c o
  refine ⟨fun h => ?_, fun h => ?_, fun h => ?_, fun h => ?_, fun hs => ?_⟩
  case refine_1 | refine_2 | refine_3 | refine_4 =>
    exact List.forall_iff_forall_mem.1
      ⟨exec_illegalOperand nofun (.inr ⟨_, rfl, h⟩), exec_illegalOperand nofun (.inr ⟨_, rfl, h⟩)⟩
  have hset {i : Instr} : i.needsParam = true → s.snap.set ≠ .unconfigured := fun _ => hs
  have hpair : 32 < a + s.snap.set.k ∨ 32 < b + s.snap.set.k →
      ∃ g ∈ [(a, s.snap.set.k), (b, s.snap.set.k)], 32 < g.1 + g.2 := by simp
  refine ⟨fun h => exec_illegalOperand hset (.inr ⟨_, rfl, h⟩), fun h => exec_illegalOperand hset (.inr ⟨_, rfl, h⟩),
    fun h => exec_illegalOperand hset (.inl (by simpa [Instr.groups] using h)), fun h => ?_,
    fun h => exec_illegalOperand hset (.inl (by simpa [Instr.groups] using h)), fun h => ?_, fun h => ?_,
    fun h => exec_illegalOperand hset (by simpa [Instr.groups, Instr.bufRange] using h)⟩
  · exact List.forall_iff_forall_mem.1
      ⟨exec_illegalOperand hset (.inl (hpair h)), exec_illegalOperand hset (.inl (hpair h))⟩
  case refine_2 | refine_3 =>
    exact List.forall_iff_forall_mem.1
      ⟨exec_illegalOperand hset (by simpa [Instr.groups, Instr.bufRange] using h),
        exec_illegalOperand hset (by simpa [Instr.groups, Instr.bufRange] using h)⟩

/-! ### The latency's public values (R360, R361) -/

/-- The snapshot an idle engine would take now is that of its registers. -/
theorem State.snap_of_idle {s : State} (h : s.eng = .idle) : s.snap = s.snapshotFor s.cmd := by
  rw [State.snap, h]
  rfl

/-- The error code a command word ends with, the decoder's check included (R302). -/
def State.wordErrorOf (s : State) (w : Word) : Option CmdError :=
  match decode w with
  | .ok i => s.errorOf i
  | .error _ => some .illegalOpcode

section LatencyKey

variable {s : State} {w : Word}

theorem wordErrorOf_eq_none_iff : s.wordErrorOf w = none ↔ ∃ i, decode w = .ok i ∧ s.errorOf i = none := by
  rw [State.wordErrorOf]
  cases decode w <;> simp

/-- The latency of a word that ends with an error depends on the code and on no operand. -/
theorem latKey_of_error {c : CmdError} (h : s.wordErrorOf w = some c) :
    s.latKey w =
      { opcode := BitVec.ofNat 8 w.toNat, set := BitVec.ofNat 2 s.snap.set.number,
        ecode := BitVec.ofNat 4 c.code, seed := none } := by
  rw [State.wordErrorOf] at h
  rw [State.latKey]
  cases hd : decode w with
  | error e =>
    simp only [hd, Option.some.injEq] at h
    rw [← h]
  | ok i =>
    simp only [hd] at h
    simp only [h, ecodeNumber, Option.isSome_some, if_true]

/-- The latency of a command that ends without an error depends on its matrix's seed. -/
theorem latKey_of_ok {i : Instr} (hd : decode w = .ok i) (h : s.errorOf i = none) :
    s.latKey w =
      { opcode := BitVec.ofNat 8 w.toNat, set := BitVec.ofNat 2 s.snap.set.number,
        ecode := 0, seed := s.matrixSeed i } := by
  simp only [State.latKey, hd, h, ecodeNumber, Option.isSome_none, Bool.false_eq_true, if_false, BitVec.ofNat_eq_ofNat]

end LatencyKey

theorem checksKeyHash_iff (i : Instr) : i.checksKeyHash = true ↔ i = .kemDecaps ∨ i = .kemSkcheck := by
  cases i <;> simp [Instr.checksKeyHash]

/-- The checks of a command that checks no key hash read PARAM.SET, KEYLEN and CTLEN alone. -/
theorem errorOf_congr {s s' : State} {i : Instr} (hset : s.snap.set = s'.snap.set) (hkey : s.snap.keylen = s'.snap.keylen)
    (hct : s.snap.ctlen = s'.snap.ctlen) (hi : i.checksKeyHash = false) : s.errorOf i = s'.errorOf i := by
  simp only [State.errorOf, State.check, State.checkKeyHash, hset, hkey, hct, hi, Bool.false_eq_true, if_false]

/-- Settles O59: the key of the latency is made of the opcode, PARAM.SET, the code and, without a code, the seed. -/
theorem latencyDependsOnPublicValues : Obligations.LatencyDependsOnPublicValues := by
  refine ⟨fun s s' w w' he he' hdraws hset hop hcode hseed => ?_, fun s s' i he he' hset hkey hct hdec hchk => ?_⟩
  · have hopcode : BitVec.ofNat 8 w.toNat = BitVec.ofNat 8 w'.toNat := BitVec.eq_of_toNat_eq (by simpa using hop)
    have hsnap : s.snap.set = s'.snap.set := by rw [State.snap_of_idle he, State.snap_of_idle he']; exact hset
    have hcode : s.wordErrorOf w = s'.wordErrorOf w' := hcode
    have hkey : s.latKey w = s'.latKey w' := by
      cases hc : s.wordErrorOf w with
      | some c => rw [latKey_of_error hc, latKey_of_error (hcode ▸ hc), hopcode, hsnap]
      | none =>
        obtain ⟨i, hd, hi⟩ := wordErrorOf_eq_none_iff.1 hc
        obtain ⟨i', hd', hi'⟩ := wordErrorOf_eq_none_iff.1 (hcode ▸ hc)
        rw [latKey_of_ok hd hi, latKey_of_ok hd' hi', hopcode, hsnap, hseed i i' hd hd' hi hi']
    exact ⟨_, _, _, s.accept_eng w, by rw [State.accept_eng, hdraws, hkey]⟩
  · have hi : ¬ i.checksKeyHash = true := fun h => ((checksKeyHash_iff i).1 h).elim hdec hchk
    refine errorOf_congr ?_ ?_ ?_ (Bool.eq_false_iff.2 hi) <;> rw [State.snap_of_idle he, State.snap_of_idle he']
    · exact hset
    · exact hkey
    · exact hct

end Sys2Proof.Machine
